-- ==== Sys2Proof/Word.lean ====
section
/-! DEFINITION. The two word types of the block. -/

namespace Sys2Proof

/-- A byte of the arena, a queue byte (00_scope.md R8: value width 8). -/
abbrev Byte := BitVec 8

/-- A host register or a command word (10_state.md R28, 30_encoding.md R100). -/
abbrev Word := BitVec 32

end Sys2Proof
end

