-- ==== Sys2Proof/Syntax.lean ====
section
/-! DEFINITION. The five commands of the opcode map (30_encoding.md R106), the decoder's two reasons
for rejecting a word (R107, R108) and the pseudo-commands (R111). QID, OFFSET and WIDTH are unsigned
numbers (00_scope.md R12) whose encodable range `Instr.wellFormed` checks (log 18). -/

namespace Sys2Proof

/-- One constructor for each row of spec/opcode_table.json. -/
inductive Instr where
  /-- CREATE, format N (43_engine.md R201). -/
  | create
  /-- DESTROY q, format Q (43_engine.md R202). -/
  | destroy (qid : Nat)
  /-- ENQ q, b, format QD (43_engine.md R203). -/
  | enq (qid : Nat) (data : Byte)
  /-- DEQ q, format Q (43_engine.md R214). -/
  | deq (qid : Nat)
  /-- RDFIELD o, w, format F (40_codec.md R137). -/
  | rdfield (offset : Nat) (width : Nat)
deriving DecidableEq, Repr

/-- Why a command word is no command (30_encoding.md R109). -/
inductive Illegal where
  /-- OP is 0x0 or 0x6 .. 0xF (30_encoding.md R107). -/
  | reservedOpcode
  /-- A reserved bit of the format is 1 (30_encoding.md R108). -/
  | reservedBits
deriving DecidableEq, Repr

/-- The pseudo-commands; each expands to one RDFIELD (30_encoding.md R111). -/
inductive Pseudo where
  | rdcount
  | rdhdr (q : Nat)
  | rdhvalid (q : Nat)
  | rdhbase (q : Nat)
  | rdhlen (q : Nat)
  | rdent (s : Nat)
  | rdeqb (s : Nat)
  | rdevalid (s : Nat)
  | rdeval (s : Nat)
deriving DecidableEq, Repr

end Sys2Proof
end

