-- ==== Sys2Proof/WellFormed.lean ====
section
/-! DEFINITION. Which instructions have an encoding: exactly those the assembler does not refuse
(30_encoding.md R110). Values the engine then rejects (a null handle, an illegal width) are well
formed: they encode, and the command ends in its error. -/

namespace Sys2Proof

/-- The QID field holds 0 .. 255 (30_encoding.md R103, R110). -/
def encodableQid (q : Nat) : Bool := decide (q ≤ 255)

/-- The OFFSET field holds 0 .. 16383 (30_encoding.md R104, R110). -/
def encodableOffset (o : Nat) : Bool := decide (o ≤ 16383)

/-- The WIDTH field holds 0 .. 31 (30_encoding.md R104, R110). -/
def encodableWidth (w : Nat) : Bool := decide (w ≤ 31)

/-- Every operand fits its field (30_encoding.md R102, R110). -/
def Instr.wellFormed : Instr → Bool
  | .create => true
  | .destroy q => encodableQid q
  | .enq q _ => encodableQid q
  | .deq q => encodableQid q
  | .rdfield o w => encodableOffset o && encodableWidth w

/-- The operands a pseudo-command takes: a qid 0 .. 63, a slot 0 .. 1483 (30_encoding.md R111). -/
def Pseudo.wellFormed : Pseudo → Bool
  | .rdcount => true
  | .rdhdr q => decide (q < 64)
  | .rdhvalid q => decide (q < 64)
  | .rdhbase q => decide (q < 64)
  | .rdhlen q => decide (q < 64)
  | .rdent s => decide (s < 1484)
  | .rdeqb s => decide (s < 1484)
  | .rdevalid s => decide (s < 1484)
  | .rdeval s => decide (s < 1484)

end Sys2Proof
end

