-- ==== Sys2Proof/Decode.lean ====
section
/-! DEFINITION. The decoder of 30_encoding.md R109, total on all 2^32 words, then the encoder of the
same formats (R102, R106), the pseudo-commands' expansion (R111) and the table's word numbering. -/

namespace Sys2Proof

/-- The OP field, bits [31:28] (30_encoding.md R101). -/
def opField (w : Word) : BitVec 4 := w.extractLsb' 28 4

/-- The QID field, bits [7:0], zero-extended (30_encoding.md R103). -/
def qidField (w : Word) : Nat := (w.extractLsb' 0 8).toNat

/-- The DATA field, bits [15:8] (30_encoding.md R105). -/
def dataField (w : Word) : Byte := w.extractLsb' 8 8

/-- The OFFSET field, bits [13:0], zero-extended (30_encoding.md R104). -/
def offsetField (w : Word) : Nat := (w.extractLsb' 0 14).toNat

/-- The WIDTH field, bits [18:14], zero-extended (30_encoding.md R104). -/
def widthField (w : Word) : Nat := (w.extractLsb' 14 5).toNat

/-- The reserved bits of format N (30_encoding.md R109). -/
def reservedN : Word := 0x0FFFFFFF#32

/-- The reserved bits of format Q (30_encoding.md R109). -/
def reservedQ : Word := 0x0FFFFF00#32

/-- The reserved bits of format QD (30_encoding.md R109). -/
def reservedQD : Word := 0x0FFF0000#32

/-- The reserved bits of format F (30_encoding.md R109). -/
def reservedF : Word := 0x0FF80000#32

/-- `i`, unless a reserved bit of its format is 1 in the word (30_encoding.md R108). -/
def checkReserved (w mask : Word) (i : Instr) : Except Illegal Instr :=
  if w &&& mask = 0#32 then .ok i else .error .reservedBits

/-- The decode procedure (30_encoding.md R109). -/
def decode (w : Word) : Except Illegal Instr :=
  if opField w = 0x1#4 then checkReserved w reservedN .create
  else if opField w = 0x2#4 then checkReserved w reservedQ (.destroy (qidField w))
  else if opField w = 0x3#4 then checkReserved w reservedQD (.enq (qidField w) (dataField w))
  else if opField w = 0x4#4 then checkReserved w reservedQ (.deq (qidField w))
  else if opField w = 0x5#4 then checkReserved w reservedF (.rdfield (offsetField w) (widthField w))
  else .error .reservedOpcode

/-- The command word of an instruction (30_encoding.md R102, R106, R110), for the well-formed ones. -/
def encode : Instr → Word
  | .create => 0x10000000#32
  | .destroy q => 0x20000000#32 ||| BitVec.ofNat 32 q
  | .enq q d => 0x30000000#32 ||| (d.setWidth 32 <<< 8) ||| BitVec.ofNat 32 q
  | .deq q => 0x40000000#32 ||| BitVec.ofNat 32 q
  | .rdfield o w => 0x50000000#32 ||| (BitVec.ofNat 32 w <<< 14) ||| BitVec.ofNat 32 o

/-- The RDFIELD a pseudo-command stands for (30_encoding.md R111). -/
def Pseudo.expand : Pseudo → Instr
  | .rdcount => .rdfield 0 8
  | .rdhdr q => .rdfield (8 + 24 * q) 24
  | .rdhvalid q => .rdfield (8 + 24 * q) 1
  | .rdhbase q => .rdfield (9 + 24 * q) 11
  | .rdhlen q => .rdfield (20 + 24 * q) 11
  | .rdent s => .rdfield (1544 + 10 * s) 10
  | .rdeqb s => .rdfield (1544 + 10 * s) 1
  | .rdevalid s => .rdfield (1545 + 10 * s) 1
  | .rdeval s => .rdfield (1546 + 10 * s) 8

/-- The command word whose low `nbits` bits are those of `w`, the rest 0. -/
def tableWord (nbits w : Nat) : Word := BitVec.ofNat 32 (w % 2 ^ nbits)

/-- The instruction the decoder reads from a word of the opcode table; a command is one 32-bit word
(30_encoding.md R100), so a longer row is none. -/
def decodeTableWord (nbits w : Nat) : Option Instr :=
  if nbits ≤ 32 then
    match decode (tableWord nbits w) with
    | .ok i => some i
    | .error _ => none
  else none

end Sys2Proof
end

