-- ==== Sys2Proof/Config.lean ====
section
/-! DEFINITION. The implementation parameters (00_scope.md R8 to R10), the constant registers, the
error policy (60_exceptions.md R307), and the two values the spec leaves open: the draws of an
ARENA read while BUSY and the block's address in a system. -/

namespace Sys2Proof.Config

/-- A choice of the three independent parameters of 00_scope.md R8. -/
structure Params where
  arenaBytes    : Nat
  maxQueues     : Nat
  entryBitWidth : Nat
deriving DecidableEq, Repr

/-- The reference values, which this hardware takes (00_scope.md R8; log 17). -/
def reference : Params := ⟨2048, 64, 10⟩

/-- `MONITOR_SEGMENT_BYTES = 1 + 3*MAX_QUEUES` (00_scope.md R8). -/
def Params.monitorSegmentBytes (p : Params) : Nat := 1 + 3 * p.maxQueues

/-- `MAX_ENTRIES`, with the division rounded down (00_scope.md R8, R9). -/
def Params.maxEntries (p : Params) : Nat :=
  (p.arenaBytes - p.monitorSegmentBytes) * 8 / p.entryBitWidth

/-- The constraints every choice of parameters must hold (00_scope.md R10). -/
abbrev Params.legal (p : Params) : Prop :=
  p.maxQueues ≤ 255 ∧ p.maxEntries ≤ 2047 ∧ 1 ≤ p.maxEntries ∧ 8 * p.arenaBytes ≤ 16384

/-- `ARENA_BYTES` (00_scope.md R8). -/
abbrev arenaBytes : Nat := 2048

/-- `ARENA_BITS = 8 * ARENA_BYTES` (00_scope.md R8). -/
abbrev arenaBits : Nat := 16384

/-- `MAX_QUEUES`, the spec's Q (00_scope.md R8). -/
abbrev maxQueues : Nat := 64

/-- `MAX_ENTRIES`, the spec's N (00_scope.md R8). -/
abbrev maxEntries : Nat := 1484

/-- `INVALID_ENTRY`, the base that names no slot (00_scope.md R8, 41_header_table.md R157). -/
abbrev invalidEntry : Nat := 1484

/-- `MAX_FIELD_WIDTH`, the widest field the codec serves (00_scope.md R8). -/
abbrev maxFieldWidth : Nat := 24

/-- The two error completion policies (60_exceptions.md R307). -/
inductive OnError where
  /-- The FSM returns to IDLE after an error. -/
  | resume
  /-- The FSM enters HALTED after an error, until reset. -/
  | halt
deriving DecidableEq, Repr

/-- `ON_ERROR`: this hardware takes RESUME (00_scope.md R8, 60_exceptions.md R307; log 21). -/
def onError : OnError := .resume

/-- CONFIG0: `ENTRY_BIT_WIDTH`, `MAX_QUEUES`, `ARENA_BYTES` (10_state.md R33). -/
def config0 : Word := 0x0A400800#32

/-- CONFIG1: `MONITOR_SEGMENT_BYTES`, `MAX_ENTRIES` (10_state.md R34). -/
def config1 : Word := 0x00C105CC#32

/-- ID: the letters BQ and the command set's version (10_state.md R30). -/
def identification : Word := 0x42510001#32

/-- FREE VALUE. What the `n`-th host read of an ARENA register while BUSY returns: an unspecified
32-bit value, a fresh draw for each read (10_state.md R35, 70_reset_and_hazards.md R412; log 3). -/
opaque arenaDraw : Nat → Word

/-- OPEN PARAMETER `BQ_BASE_ADDRESS`: the system address of bus offset 0x0000
(20_memory.md R70, 92_eei_decisions.md OPEN; log 12). -/
opaque bqBaseAddress : Nat

/-- The system address of a bus offset. Nothing in the block depends on it (20_memory.md R70). -/
def systemAddress (offset : BitVec 14) : Nat := bqBaseAddress + offset.toNat

end Sys2Proof.Config
end

