-- ==== Sys2Proof/Machine/State.lean ====
section
/-! DEFINITION. The machine's state: the arena, the interface registers and outputs of 10_state.md,
the host's input, and the reset value of each (10_state.md R41). -/

namespace Sys2Proof.Machine

/-- The arena as a list of its nonzero bytes by address, addresses strictly rising; an address that
is not listed reads as 0x00, the reset contents (10_state.md R41; log 8). -/
abbrev Memory := List Host.Cell

/-- The control state (10_state.md R38). -/
inductive Fsm where
  /-- No command in progress; CMD writes are accepted. -/
  | idle
  /-- The command in CMDBUF is executing. -/
  | busy
  /-- No command is accepted until reset; never entered with ON_ERROR = RESUME. -/
  | halted
deriving DecidableEq, Repr

/-- The values of STATUS.LAST_ERR (10_state.md R31); the value 3 is never written. -/
inductive ErrKind where
  | success
  | illegalOperation
  | outOfMemory
deriving DecidableEq, Repr

/-- The cause codes 0 to 8 (60_exceptions.md R301). -/
inductive Cause where
  /-- NONE: the command succeeded. -/
  | none
  | noFreeHeader
  | nullHandle
  | invalidHandle
  | emptyQueue
  | reservedOpcode
  | reservedBits
  | badField
  | noFreeSlot
deriving DecidableEq, Repr

/-- The two hook outputs (60_exceptions.md R304). -/
inductive Hook where
  | illop
  | oom
deriving DecidableEq, Repr

/-- One hook event of the history, with its cause code (60_exceptions.md R304). -/
structure HookEvent where
  hook  : Hook
  cause : Cause
deriving DecidableEq, Repr

/-- What the outside does to the block in one step (10_state.md R37, R40; logs 1, 13, 14). -/
inductive HostEvent where
  /-- `rst` is 1 at the clock edge (70_reset_and_hazards.md R400). -/
  | rst
  /-- A bus write of `size` bytes at a byte offset. -/
  | write (addr : BitVec 14) (size : Nat) (data : Word)
  /-- A bus read of `size` bytes at a byte offset. -/
  | read (addr : BitVec 14) (size : Nat)
  /-- No host access: a BUSY engine completes its command (10_state.md R38). -/
  | quiet
deriving DecidableEq, Repr

/-- One entry record (10_state.md R23). -/
structure Entry where
  qb    : Bool
  valid : Bool
  value : Byte
deriving DecidableEq, Repr

/-- The view of one header record, without its pad bit (10_state.md R22, 41_header_table.md R152). -/
structure Header where
  valid  : Bool
  base   : Nat
  length : Nat
deriving DecidableEq, Repr

/-- How an engine computation ends early. -/
inductive Stop where
  /-- `raise`: the command ends with this error (00_scope.md R13). -/
  | raise (c : Cause)
  /-- The model fault INTERNAL (60_exceptions.md R312). -/
  | internal
deriving DecidableEq, Repr

/-- An engine computation: a value, or an early end. -/
abbrev Engine (α : Type) := Except Stop α

/-- The whole state of the block and of its input. -/
structure State where
  /-- The arena A (10_state.md R20). -/
  arena         : Memory
  /-- FSM (10_state.md R38); STATUS.BUSY and STATUS.HALTED are read from it. -/
  fsm           : Fsm
  /-- CMDBUF (10_state.md R39). -/
  cmdbuf        : Word
  /-- STATUS.LAST_ERR (10_state.md R31). -/
  lastErr       : ErrKind
  /-- STATUS.LAST_CAUSE (10_state.md R31). -/
  lastCause     : Cause
  /-- STATUS.STICKY_ILLOP (10_state.md R31). -/
  stickyIllop   : Bool
  /-- STATUS.STICKY_OOM (10_state.md R31). -/
  stickyOom     : Bool
  /-- STATUS.STICKY_OVERRUN (10_state.md R31). -/
  stickyOverrun : Bool
  /-- RESULT (10_state.md R32). -/
  result        : Word
  /-- Output `hook_illop` (10_state.md R40); high for one step (log 5). -/
  hookIllop     : Bool
  /-- Output `hook_oom` (10_state.md R40); high for one step (log 5). -/
  hookOom       : Bool
  /-- The history of hook events, the newest first (60_exceptions.md R304; log 6). -/
  hookLog       : List HookEvent
  /-- Port `bus_rdata`: the word the last host read returned (10_state.md R40; log 4). -/
  busRdata      : Word
  /-- The model's own: the host events still to come, the next one first (log 1). -/
  host          : List HostEvent
  /-- The model's own: how many free values have been drawn (log 3). -/
  draws         : Nat
deriving DecidableEq, Repr

/-- The faults of the hardware: NONE. The spec's errors complete their command and go on
(60_exceptions.md R303, R307), and its model fault INTERNAL is "a refusal" by 60_exceptions.md R312
(log 2), so no constructor is needed, and nothing can raise a fault. -/
inductive Fault where
deriving DecidableEq, Repr

/-- Why a step has no meaning. -/
inductive Refusal where
  /-- Raised by `exec` for an instruction without a meaning; no arm uses it. Safe. -/
  | notModelled (mnemonic : String)
  /-- INTERNAL: an engine access outside the arena, or a slot or qid out of range
  (60_exceptions.md R312, 93_implementation_defined.md K3). Raised by the codec, header and entry
  operations, only from an arena that is not well formed. Safe: the run has no meaning. -/
  | internal
  /-- A host access that is not an aligned 32-bit one, which is outside the block's contract
  (10_state.md R37, 93_implementation_defined.md K7). Raised by the bus. Safe. -/
  | busAccess
deriving DecidableEq, Repr

/-- The machine right after reset (10_state.md R41, 70_reset_and_hazards.md R400), with no host event
to come (log 7); `busRdata` and `draws` are the model's choice (logs 4, 3). -/
def State.reset : State where
  arena := []
  fsm := .idle
  cmdbuf := 0#32
  lastErr := .success
  lastCause := .none
  stickyIllop := false
  stickyOom := false
  stickyOverrun := false
  result := 0#32
  hookIllop := false
  hookOom := false
  hookLog := []
  busRdata := 0#32
  host := []
  draws := 0

end Sys2Proof.Machine
end

