-- ==== Sys2Proof/Machine/Flags.lean ====
section
/-! DEFINITION. The status fields: the codes of LAST_ERR and LAST_CAUSE, the STATUS word
(10_state.md R31), and what the completion of a command writes to them (60_exceptions.md R304, R305).
The block has no arithmetic flags (10_state.md R42). -/

namespace Sys2Proof.Machine

/-- The code of LAST_ERR (10_state.md R31). -/
def ErrKind.code : ErrKind → Nat
  | .success => 0
  | .illegalOperation => 1
  | .outOfMemory => 2

/-- The cause codes (60_exceptions.md R301). -/
def Cause.code : Cause → Nat
  | .none => 0
  | .noFreeHeader => 1
  | .nullHandle => 2
  | .invalidHandle => 3
  | .emptyQueue => 4
  | .reservedOpcode => 5
  | .reservedBits => 6
  | .badField => 7
  | .noFreeSlot => 8

/-- The error kind of a cause (60_exceptions.md R301). -/
def Cause.kind : Cause → ErrKind
  | .none => .success
  | .noFreeHeader => .illegalOperation
  | .nullHandle => .illegalOperation
  | .invalidHandle => .illegalOperation
  | .emptyQueue => .illegalOperation
  | .reservedOpcode => .illegalOperation
  | .reservedBits => .illegalOperation
  | .badField => .illegalOperation
  | .noFreeSlot => .outOfMemory

/-- The cause of a word that is no command (30_encoding.md R107, R108). -/
def illegalCause : Illegal → Cause
  | .reservedOpcode => .reservedOpcode
  | .reservedBits => .reservedBits

/-- The hook event of a command that ends with a cause: one for an error, none for a success
(60_exceptions.md R304). -/
def hookEvents (c : Cause) : List HookEvent :=
  match c.kind with
  | .success => []
  | .illegalOperation => [⟨.illop, c⟩]
  | .outOfMemory => [⟨.oom, c⟩]

/-- STATUS.BUSY and the output `busy` (10_state.md R31, R40). -/
def State.busy (s : State) : Bool := decide (s.fsm = .busy)

/-- STATUS.HALTED (10_state.md R31). -/
def State.haltedBit (s : State) : Bool := decide (s.fsm = .halted)

/-- The STATUS word: BUSY [0], HALTED [1], LAST_ERR [3:2], LAST_CAUSE [7:4], STICKY_ILLOP [8],
STICKY_OOM [9], STICKY_OVERRUN [10], reserved [31:11] reading 0 (10_state.md R31). -/
def State.status (s : State) : Word :=
  BitVec.ofNat 32 (s.busy.toNat + 2 * s.haltedBit.toNat + 4 * s.lastErr.code + 16 * s.lastCause.code
    + 256 * s.stickyIllop.toNat + 512 * s.stickyOom.toNat + 1024 * s.stickyOverrun.toNat)

/-- STATUS and the hook outputs at the completion of a command with a cause, NONE for a success
(60_exceptions.md R304, R305). -/
def State.recordOutcome (s : State) (c : Cause) : State :=
  { s with
    lastErr := c.kind
    lastCause := c
    stickyIllop := s.stickyIllop || decide (c.kind = .illegalOperation)
    stickyOom := s.stickyOom || decide (c.kind = .outOfMemory)
    hookIllop := decide (c.kind = .illegalOperation)
    hookOom := decide (c.kind = .outOfMemory)
    hookLog := hookEvents c ++ s.hookLog }

end Sys2Proof.Machine
end

