-- ==== Sys2Proof/Machine/Ops.lean ====
section
/-! DEFINITION. The shared operations: the arena's bytes and bits, the Bit Field Codec
(40_codec.md), the Queue Header Table (41_header_table.md), the Entry Store (42_entry_store.md), and
the completion of a command, with taking an error as one operation (60_exceptions.md R303 to R307). -/

namespace Sys2Proof.Machine

/-! ### Bytes -/

/-- Arena byte `a`; a byte that is not listed is 0x00 (10_state.md R41; log 8). -/
def Memory.read : Memory → Nat → Byte
  | [], _ => 0#8
  | (b, x) :: m, a => if b = a then x else Memory.read m a

/-- The list without any entry for address `a`. -/
def Memory.erase (m : Memory) (a : Nat) : Memory := m.filter (fun c => decide (c.1 ≠ a))

/-- The entry put before the first larger address. -/
def Memory.insertSorted : Memory → Nat → Byte → Memory
  | [], a, v => [(a, v)]
  | (b, x) :: m, a, v => if a < b then (a, v) :: (b, x) :: m else (b, x) :: Memory.insertSorted m a v

/-- The arena with byte `a` set to `v`, in canonical form: a zero byte is not listed. -/
def Memory.write (m : Memory) (a : Nat) (v : Byte) : Memory :=
  if v = 0#8 then m.erase a else (m.erase a).insertSorted a v

/-- The canonical form: addresses strictly rising, no entry equal to what an unlisted address reads
as (log 8). -/
abbrev Memory.wf (m : Memory) : Prop :=
  m.Pairwise (fun c d => c.1 < d.1) ∧ ∀ c ∈ m, c.2 ≠ 0#8

/-- Every listed address exists: the arena is bytes 0 .. 2047 (10_state.md R20). -/
abbrev Memory.inArena (m : Memory) : Prop := ∀ c ∈ m, c.1 < Config.arenaBytes

/-- `MemRead(addr, n)`: `n` arena bytes, for observation only (20_memory.md R64). -/
def memRead (m : Memory) (addr n : Nat) : Option (List Byte) :=
  if addr + n ≤ Config.arenaBytes then some ((List.range n).map (fun i => m.read (addr + i))) else none

/-! ### Bits and fields -/

/-- Arena bit `k` is bit `7 - (k mod 8)` of byte `k div 8` (00_scope.md R11). -/
def Memory.bit (m : Memory) (k : Nat) : Bool := (m.read (k / 8)).getLsbD (7 - k % 8)

/-- A byte with its bit `p` set to `b` (40_codec.md R131). -/
def byteWithBit (x : Byte) (p : Nat) (b : Bool) : Byte :=
  if b then x ||| (1#8 <<< p) else x &&& ~~~(1#8 <<< p)

/-- The arena with bit `k` set to `b` (40_codec.md R131). -/
def Memory.setBit (m : Memory) (k : Nat) (b : Bool) : Memory :=
  m.write (k / 8) (byteWithBit (m.read (k / 8)) (7 - k % 8) b)

/-- The bits `o .. o+w-1` as an unsigned number, the most significant at `o`: the loop of
40_codec.md R130. -/
def Memory.bits (m : Memory) (o : Nat) : Nat → Nat
  | 0 => 0
  | w + 1 => 2 * Memory.bits m o w + (m.bit (o + w)).toNat

/-- The bits `o .. o+w-1` set to those of `v mod 2^w`, the most significant at `o`: the loop of
40_codec.md R131. -/
def Memory.putBits (m : Memory) (o : Nat) : Nat → Nat → Memory
  | 0, _ => m
  | w + 1, v => (Memory.putBits m o w (v / 2)).setBit (o + w) (decide (v % 2 = 1))

/-- The codec's domain (40_codec.md R130, R132). -/
def inDomain (o w : Nat) : Bool :=
  decide (1 ≤ w) && decide (w ≤ Config.maxFieldWidth) && decide (o + w ≤ Config.arenaBits)

/-- `FieldRead(o, w)` (40_codec.md R130); out of the domain it is INTERNAL (R132). -/
def fieldRead (m : Memory) (o w : Nat) : Engine Nat :=
  if inDomain o w then .ok (m.bits o w) else .error .internal

/-- `FieldWrite(o, w, v)` (40_codec.md R131); out of the domain it is INTERNAL (R132). -/
def fieldWrite (m : Memory) (o w v : Nat) : Engine Memory :=
  if inDomain o w then .ok (m.putBits o w v) else .error .internal

/-! ### The Queue Header Table and the counter -/

/-- A qid out of range is INTERNAL (93_implementation_defined.md K3, 41_header_table.md R161). -/
def checkQid (q : Nat) : Engine Unit :=
  if q < Config.maxQueues then .ok () else .error .internal

/-- `H(q).valid` (41_header_table.md R151, R152). -/
def getValid (m : Memory) (q : Nat) : Engine Bool := do
  checkQid q
  let x ← fieldRead m (8 + 24 * q) 1
  return decide (x = 1)

/-- `get_base(q)` (41_header_table.md R154). -/
def getBase (m : Memory) (q : Nat) : Engine Nat := do
  checkQid q
  fieldRead m (9 + 24 * q) 11

/-- `get_length(q)` (41_header_table.md R155). -/
def getLength (m : Memory) (q : Nat) : Engine Nat := do
  checkQid q
  fieldRead m (20 + 24 * q) 11

/-- `get_header(q)`, without the pad bit (41_header_table.md R152). -/
def getHeader (m : Memory) (q : Nat) : Engine Header := do
  let v ← getValid m q
  let b ← getBase m q
  let n ← getLength m q
  return ⟨v, b, n⟩

/-- `set_valid(q)` and `set_invalid(q)` (41_header_table.md R153). -/
def setValid (m : Memory) (q : Nat) (v : Bool) : Engine Memory := do
  checkQid q
  fieldWrite m (8 + 24 * q) 1 v.toNat

/-- `set_base(q, b)` (41_header_table.md R154). -/
def setBase (m : Memory) (q b : Nat) : Engine Memory := do
  checkQid q
  fieldWrite m (9 + 24 * q) 11 b

/-- `set_length(q, n)` (41_header_table.md R155). -/
def setLength (m : Memory) (q n : Nat) : Engine Memory := do
  checkQid q
  fieldWrite m (20 + 24 * q) 11 n

/-- `get_count()` (41_header_table.md R159). -/
def getCount (m : Memory) : Engine Nat := fieldRead m 0 8

/-- `set_count(n)` (41_header_table.md R159). -/
def setCount (m : Memory) (n : Nat) : Engine Memory := fieldWrite m 0 8 n

/-- `set_count(get_count() + 1)` (43_engine.md R201). -/
def incrementCount (m : Memory) : Engine Memory := do
  let n ← getCount m
  setCount m (n + 1)

/-- `set_count(get_count() - 1)` (43_engine.md R202). The field stores its value mod 2^8
(00_scope.md R12), so one less than 0 is 255 (log 10). -/
def decrementCount (m : Memory) : Engine Memory := do
  let n ← getCount m
  setCount m (n + 255)

/-- The scan of `find_free_header` over `k` headers from `q` (41_header_table.md R158). -/
def findFreeHeaderFrom (m : Memory) : Nat → Nat → Engine (Option Nat)
  | 0, _ => .ok none
  | k + 1, q => do
    let v ← getValid m q
    if v then findFreeHeaderFrom m k (q + 1) else return some q

/-- `find_free_header()` (41_header_table.md R158). -/
def findFreeHeader (m : Memory) : Engine (Option Nat) := findFreeHeaderFrom m Config.maxQueues 0

/-- Whether queue `q` owns a run that starts at slot `s`: the condition of `find_owner`
(41_header_table.md R160). -/
def ownsBase (m : Memory) (q s : Nat) : Engine Bool := do
  let h ← getHeader m q
  return h.valid && decide (0 < h.length) && decide (h.base = s)

/-- The scan of `find_owner` over `k` headers from `q` (41_header_table.md R160). -/
def findOwnerFrom (m : Memory) (s : Nat) (exclude : Option Nat) : Nat → Nat → Engine (Option Nat)
  | 0, _ => .ok none
  | k + 1, q => do
    if some q = exclude then findOwnerFrom m s exclude k (q + 1)
    else
      let o ← ownsBase m q s
      if o then return some q else findOwnerFrom m s exclude k (q + 1)

/-- `find_owner(s, exclude)` (41_header_table.md R160). -/
def findOwner (m : Memory) (s : Nat) (exclude : Option Nat) : Engine (Option Nat) :=
  findOwnerFrom m s exclude Config.maxQueues 0

/-! ### The Entry Store -/

/-- A slot out of range is INTERNAL (42_entry_store.md R178). -/
def checkSlot (s : Nat) : Engine Unit :=
  if s < Config.maxEntries then .ok () else .error .internal

/-- The ten bits of an entry (42_entry_store.md R171). -/
def Entry.pack (e : Entry) : Nat := e.qb.toNat * 512 + e.valid.toNat * 256 + e.value.toNat

/-- An entry from its ten bits (42_entry_store.md R172). -/
def Entry.unpack (x : Nat) : Entry := ⟨x.testBit 9, x.testBit 8, BitVec.ofNat 8 x⟩

/-- `read_entry(s)` (42_entry_store.md R172). -/
def readEntry (m : Memory) (s : Nat) : Engine Entry := do
  checkSlot s
  let x ← fieldRead m (1544 + 10 * s) 10
  return Entry.unpack x

/-- `write_entry(s, e)`: all ten bits (42_entry_store.md R173). -/
def writeEntry (m : Memory) (s : Nat) (e : Entry) : Engine Memory := do
  checkSlot s
  fieldWrite m (1544 + 10 * s) 10 e.pack

/-- `E(s).valid <- b`: one bit; the value bits stay (42_entry_store.md R174). -/
def setEntryValid (m : Memory) (s : Nat) (b : Bool) : Engine Memory := do
  checkSlot s
  fieldWrite m (1545 + 10 * s) 1 b.toNat

/-- `E(s).qb <- b`: one bit (42_entry_store.md R174). -/
def setEntryBase (m : Memory) (s : Nat) (b : Bool) : Engine Memory := do
  checkSlot s
  fieldWrite m (1544 + 10 * s) 1 b.toNat

/-- `copy_entry(src, dst)`: all ten bits, the marker with them (42_entry_store.md R175). -/
def copyEntry (m : Memory) (src dst : Nat) : Engine Memory := do
  let e ← readEntry m src
  writeEntry m dst e

/-- The scan of `find_free_slot_from` over `k` slots up from `s` (42_entry_store.md R177). -/
def findFreeSlotUpFrom (m : Memory) : Nat → Nat → Engine (Option Nat)
  | 0, _ => .ok none
  | k + 1, s => do
    let e ← readEntry m s
    if e.valid then findFreeSlotUpFrom m k (s + 1) else return some s

/-- `find_free_slot_from(start, UP)`: the loop `start to 1483`, empty for a larger start
(42_entry_store.md R177; log 9). -/
def findFreeSlotUp (m : Memory) (start : Nat) : Engine (Option Nat) :=
  findFreeSlotUpFrom m (Config.maxEntries - start) start

/-- `find_free_slot_from(bound - 1, DOWN)`: the loop `bound - 1 downto 0`, empty for bound 0
(42_entry_store.md R177). -/
def findFreeSlotBelow (m : Memory) : Nat → Engine (Option Nat)
  | 0 => .ok none
  | s + 1 => do
    let e ← readEntry m s
    if e.valid then findFreeSlotBelow m s else return some s

/-! ### Shifting and freeing runs -/

/-- One iteration of a shift: the entry of `src` goes to `dst` with its marker, and when it was a
queue's base, that queue's header follows (43_engine.md R208, R211). -/
def moveEntry (m : Memory) (src dst : Nat) (exclude : Option Nat) : Engine Memory := do
  let m1 ← copyEntry m src dst
  let e ← readEntry m1 dst
  if e.qb then
    let o ← findOwner m1 src exclude
    match o with
    | some p => setBase m1 p dst
    | none => return m1
  else return m1

/-- The loop of ShiftRight, `j = tail + k downto tail + 1` (43_engine.md R208). -/
def shiftRightLoop (m : Memory) (q tail : Nat) : Nat → Engine Memory
  | 0 => .ok m
  | k + 1 => do
    let m1 ← moveEntry m (tail + k) (tail + k + 1) (some q)
    shiftRightLoop m1 q tail k

/-- The loop of ShiftLeft, `k` iterations from `j` up (43_engine.md R211). -/
def shiftLeftLoop (m : Memory) : Nat → Nat → Engine Memory
  | 0, _ => .ok m
  | k + 1, j => do
    let m1 ← moveEntry m (j + 1) j none
    shiftLeftLoop m1 k (j + 1)

/-- `if s == b then E(s).qb <- 0` (43_engine.md R202). -/
def clearBaseMarker (m : Memory) (b s : Nat) : Engine Memory :=
  if s = b then setEntryBase m s false else .ok m

/-- The loop of DESTROY over `k` slots from `s`, for a run with base `b` (43_engine.md R202). -/
def freeRun (m : Memory) (b : Nat) : Nat → Nat → Engine Memory
  | 0, _ => .ok m
  | k + 1, s => do
    let m1 ← setEntryValid m s false
    let m2 ← clearBaseMarker m1 b s
    freeRun m2 b k (s + 1)

/-! ### Completion of a command -/

/-- Where the FSM goes after an error, the block's only "return" from one (10_state.md R38,
60_exceptions.md R307, R310). -/
def Fsm.afterError : Config.OnError → Fsm
  | .resume => .idle
  | .halt => .halted

/-- TAKING AN ERROR: the command ends with a cause; STATUS and the hook record it, the arena and
RESULT stay, and the FSM leaves BUSY (60_exceptions.md R303 to R307). -/
def State.raiseError (s : State) (c : Cause) : State :=
  { s.recordOutcome c with fsm := Fsm.afterError Config.onError }

/-- `return r`: the command ends successfully with the arena `m` and RESULT `r`
(10_state.md R32, 60_exceptions.md R305, R306). -/
def State.succeed (s : State) (m : Memory) (r : Nat) : State :=
  { s.recordOutcome .none with arena := m, result := BitVec.ofNat 32 r, fsm := .idle }

/-- The end of a command: its success, its error, or INTERNAL (60_exceptions.md R303, R312). -/
def State.finish (s : State) (r : Engine (Memory × Nat)) : Host.Outcome State Fault Refusal :=
  match r with
  | .ok (m, v) => .next (s.succeed m v)
  | .error (.raise c) => .next (s.raiseError c)
  | .error .internal => .refused .internal

end Sys2Proof.Machine
end

