-- ==== Sys2Proof/Machine/Bus.lean ====
section
/-! DEFINITION. The host's side: the register map (10_state.md R28 to R37), the reset input
(70_reset_and_hazards.md R400, R401), the start of a step, and the issue sequence
(30_encoding.md R112). -/

namespace Sys2Proof.Machine

/-- The accesses the block defines: 32 bits, offset a multiple of 4 (10_state.md R37). -/
def alignedWord (addr : BitVec 14) (size : Nat) : Bool :=
  decide (size = 4) && decide (addr.toNat % 4 = 0)

/-- The offsets of the ARENA window, 0x1000 .. 0x2FFF (10_state.md R28). -/
def inWindow (addr : BitVec 14) : Bool :=
  decide (0x1000 ≤ addr.toNat) && decide (addr.toNat < 0x3000)

/-- What a read of a register returns, a BUSY read of the ARENA window apart: CMD reads 0, an
unmapped offset reads 0 (10_state.md R28 to R36). -/
def readRegister (s : State) (addr : BitVec 14) : Word :=
  if addr.toNat = 0x0000 then 0#32
  else if addr.toNat = 0x0004 then s.status
  else if addr.toNat = 0x0008 then s.result
  else if addr.toNat = 0x000C then Config.config0
  else if addr.toNat = 0x0010 then Config.config1
  else if addr.toNat = 0x0014 then Config.identification
  else if inWindow addr then (s.arena.read ((addr.toNat - 0x1000) / 4)).setWidth 32
  else 0#32

/-- A read of the ARENA window while BUSY: a free value (10_state.md R35; log 3). -/
def drawRead (s : State) : State :=
  { s with busRdata := Config.arenaDraw s.draws, draws := s.draws + 1 }

/-- A host read: no side effect but the word on the bus (20_memory.md R69). -/
def busRead (s : State) (addr : BitVec 14) : State :=
  if inWindow addr && s.busy then drawRead s
  else { s with busRdata := readRegister s addr }

/-- A host write of CMD: accepted when IDLE; otherwise ignored, and STICKY_OVERRUN is set
(10_state.md R29, 70_reset_and_hazards.md R410). -/
def writeCmd (s : State) (w : Word) : State :=
  match s.fsm with
  | .idle => { s with cmdbuf := w, fsm := .busy }
  | .busy => { s with stickyOverrun := true }
  | .halted => { s with stickyOverrun := true }

/-- A host write: only CMD takes one; a write elsewhere is ignored (10_state.md R28, R36). -/
def busWrite (s : State) (addr : BitVec 14) (w : Word) : State :=
  if addr.toNat = 0x0000 then writeCmd s w else s

/-- Reset by the `rst` input: every piece of the block's state takes its reset value; a command in
progress is abandoned without a hook event (70_reset_and_hazards.md R400, R401). The events still to
come, the history and the count of draws are not the block's (logs 1, 3, 6). -/
def State.applyReset (s : State) : State :=
  { State.reset with host := s.host, hookLog := s.hookLog, draws := s.draws }

/-- One host event other than `quiet` (10_state.md R37, R40). -/
def hostTurn (e : HostEvent) (s : State) : Host.Outcome State Fault Refusal :=
  match e with
  | .rst => .next s.applyReset
  | .write addr size data =>
    if alignedWord addr size then .next (busWrite s addr data) else .refused .busAccess
  | .read addr size =>
    if alignedWord addr size then .next (busRead s addr) else .refused .busAccess
  | .quiet => .next s

/-- The next host event; none to come is a step with no access (log 1). -/
def State.nextEvent (s : State) : HostEvent := s.host.headD .quiet

/-- The start of a step: the event is taken, and a hook pulse of the step before is over
(60_exceptions.md R304; log 5). -/
def State.beginStep (s : State) : State :=
  { s with host := s.host.tail, hookIllop := false, hookOom := false }

/-- The host's `issue(w)`: write CMD, wait for BUSY = 0, read STATUS, read RESULT
(30_encoding.md R112). -/
def issue (w : Word) : List HostEvent :=
  [.write 0x0000#14 4 w, .quiet, .read 0x0004#14 4, .read 0x0008#14 4]

end Sys2Proof.Machine
end

