-- ==== Sys2Proof/Machine/Operands.lean ====
section
/-! DEFINITION. The operand forms: the queue handle (30_encoding.md R103) and its check
(43_engine.md R200), and the field named by OFFSET and WIDTH (30_encoding.md R104). DATA is a byte
and every value is legal (30_encoding.md R105). -/

namespace Sys2Proof.Machine

/-- A null handle: a QID of 64 or more (30_encoding.md R103). -/
def nullHandle (q : Nat) : Bool := decide (Config.maxQueues ≤ q)

/-- `CheckHandle(q)` (43_engine.md R200). -/
def checkHandle (m : Memory) (q : Nat) : Engine Unit :=
  if nullHandle q then .error (.raise .nullHandle)
  else do
    let v ← getValid m q
    if v then return () else .error (.raise .invalidHandle)

/-- The fields RDFIELD may name: widths 1 .. 24 inside the arena (30_encoding.md R104,
40_codec.md R137). -/
def legalField (o w : Nat) : Bool :=
  !(decide (w = 0) || decide (w > 24) || decide (o + w > 16384))

end Sys2Proof.Machine
end

