-- ==== Sys2Proof/Machine/Codec.lean ====
section
/-! DEFINITION. The codec's command, RDFIELD (40_codec.md R137). -/

namespace Sys2Proof.Machine

/-- RDFIELD on an arena: the field, or BAD_FIELD (40_codec.md R137). -/
def rdfield (m : Memory) (o w : Nat) : Engine (Memory × Nat) :=
  if legalField o w then do
    let v ← fieldRead m o w
    return (m, v)
  else .error (.raise .badField)

/-- The meaning of RDFIELD o, w (40_codec.md R137). -/
def execRdfield (o w : Nat) (s : State) : Host.Outcome State Fault Refusal :=
  s.finish (rdfield s.arena o w)

end Sys2Proof.Machine
end

