-- ==== Sys2Proof/Machine/Lifecycle.lean ====
section
/-! DEFINITION. The commands that make and remove queues: CREATE and DESTROY
(43_engine.md R201, R202). -/

namespace Sys2Proof.Machine

/-- The base CREATE records: the first free slot, or INVALID (43_engine.md R201). -/
def baseOrInvalid : Option Nat → Nat
  | some s => s
  | none => Config.invalidEntry

/-- CREATE on an arena (43_engine.md R201). -/
def createQueue (m : Memory) : Engine (Memory × Nat) := do
  let o ← findFreeHeader m
  match o with
  | none => .error (.raise .noFreeHeader)
  | some q =>
    let m1 ← setValid m q true
    let m2 ← incrementCount m1
    let s ← findFreeSlotUp m2 0
    let m3 ← setBase m2 q (baseOrInvalid s)
    let m4 ← setLength m3 q 0
    return (m4, q)

/-- DESTROY on an arena (43_engine.md R202). -/
def destroyQueue (m : Memory) (q : Nat) : Engine (Memory × Nat) := do
  checkHandle m q
  let b ← getBase m q
  let n ← getLength m q
  let m1 ← freeRun m b n b
  let m2 ← setLength m1 q 0
  let m3 ← setBase m2 q Config.invalidEntry
  let m4 ← setValid m3 q false
  let m5 ← decrementCount m4
  return (m5, 0)

/-- The meaning of CREATE (43_engine.md R201). -/
def execCreate (s : State) : Host.Outcome State Fault Refusal :=
  s.finish (createQueue s.arena)

/-- The meaning of DESTROY q (43_engine.md R202). -/
def execDestroy (q : Nat) (s : State) : Host.Outcome State Fault Refusal :=
  s.finish (destroyQueue s.arena q)

end Sys2Proof.Machine
end

