-- ==== Sys2Proof/Machine/Transfer.lean ====
section
/-! DEFINITION. The commands that move bytes: ENQ with its cases (43_engine.md R203 to R213) and DEQ
(R214). -/

namespace Sys2Proof.Machine

/-- Case 1 applies: the queue is empty and its base is a free slot (43_engine.md R203, R204). -/
def fastPathApplies (m : Memory) (b n : Nat) : Engine Bool :=
  if n = 0 ∧ b < Config.maxEntries then do
    let e ← readEntry m b
    return !e.valid
  else return false

/-- FastPath (43_engine.md R204). -/
def fastPath (m : Memory) (q : Nat) (d : Byte) (b : Nat) : Engine Memory := do
  let m1 ← writeEntry m b ⟨true, true, d⟩
  setLength m1 q 1

/-- AppendDirect (43_engine.md R206). -/
def appendDirect (m : Memory) (q : Nat) (d : Byte) (n tail : Nat) : Engine Memory := do
  let m1 ← writeEntry m tail ⟨false, true, d⟩
  setLength m1 q (n + 1)

/-- RelocateRight: the old base slot's marker is not cleared (43_engine.md R207). -/
def relocateRight (m : Memory) (q : Nat) (d : Byte) (i : Nat) : Engine Memory := do
  let m1 ← writeEntry m i ⟨true, true, d⟩
  let m2 ← setBase m1 q i
  setLength m2 q 1

/-- ShiftRight (43_engine.md R208). -/
def shiftRight (m : Memory) (q : Nat) (d : Byte) (n tail i : Nat) : Engine Memory := do
  let m1 ← shiftRightLoop m q tail (i - tail)
  let m2 ← writeEntry m1 tail ⟨false, true, d⟩
  setLength m2 q (n + 1)

/-- RelocateLeft, the mirror image of RelocateRight (43_engine.md R210). -/
def relocateLeft (m : Memory) (q : Nat) (d : Byte) (i : Nat) : Engine Memory := do
  let m1 ← writeEntry m i ⟨true, true, d⟩
  let m2 ← setBase m1 q i
  setLength m2 q 1

/-- ShiftLeft: the window `[i+1, tail)` moves left by one, the byte is appended at `tail - 1`
(43_engine.md R211). -/
def shiftLeft (m : Memory) (q : Nat) (d : Byte) (n tail i : Nat) : Engine Memory := do
  let m1 ← shiftLeftLoop m (tail - 1 - i) i
  let m2 ← writeEntry m1 (tail - 1) ⟨false, true, d⟩
  setLength m2 q (n + 1)

/-- Case 2, a free slot `i` at or to the right of the tail (43_engine.md R203, R205). -/
def enqueueRight (m : Memory) (q : Nat) (d : Byte) (n tail i : Nat) : Engine Memory :=
  if i = tail then appendDirect m q d n tail
  else if n = 0 then relocateRight m q d i
  else shiftRight m q d n tail i

/-- Case 3, a free slot `i` to the left of the base (43_engine.md R203, R209). -/
def enqueueLeft (m : Memory) (q : Nat) (d : Byte) (n tail i : Nat) : Engine Memory :=
  if n = 0 then relocateLeft m q d i
  else shiftLeft m q d n tail i

/-- The dispatch of ENQ for a queue with base `b` and length `n`: rightward search first, the nearest
slot first, OutOfMemory when both searches fail (43_engine.md R203, R212, R213). -/
def enqueueAt (m : Memory) (q : Nat) (d : Byte) (b n : Nat) : Engine Memory := do
  let fast ← fastPathApplies m b n
  if fast then fastPath m q d b
  else
    let up ← findFreeSlotUp m (b + n)
    match up with
    | some i => enqueueRight m q d n (b + n) i
    | none =>
      let down ← findFreeSlotBelow m b
      match down with
      | some i => enqueueLeft m q d n (b + n) i
      | none => .error (.raise .noFreeSlot)

/-- ENQ on an arena (43_engine.md R203). -/
def enqueueByte (m : Memory) (q : Nat) (d : Byte) : Engine (Memory × Nat) := do
  checkHandle m q
  let b ← getBase m q
  let n ← getLength m q
  let m1 ← enqueueAt m q d b n
  return (m1, 0)

/-- The base of a queue after its front byte left (43_engine.md R214). -/
def advanceBase (m : Memory) (q b n : Nat) : Engine Memory :=
  if n > 1 then do
    let m1 ← setBase m q (b + 1)
    setEntryBase m1 (b + 1) true
  else setBase m q Config.invalidEntry

/-- The steps of DEQ on a queue with base `b` and length `n > 0` (43_engine.md R214). -/
def takeFront (m : Memory) (q b n : Nat) : Engine (Memory × Nat) := do
  let e ← readEntry m b
  let m1 ← setEntryValid m b false
  let m2 ← setEntryBase m1 b false
  let m3 ← advanceBase m2 q b n
  let m4 ← setLength m3 q (n - 1)
  return (m4, e.value.toNat)

/-- DEQ on an arena (43_engine.md R214). -/
def dequeueByte (m : Memory) (q : Nat) : Engine (Memory × Nat) := do
  checkHandle m q
  let b ← getBase m q
  let n ← getLength m q
  if n = 0 then .error (.raise .emptyQueue) else takeFront m q b n

/-- The meaning of ENQ q, d (43_engine.md R203). -/
def execEnq (q : Nat) (d : Byte) (s : State) : Host.Outcome State Fault Refusal :=
  s.finish (enqueueByte s.arena q d)

/-- The meaning of DEQ q (43_engine.md R214). -/
def execDeq (q : Nat) (s : State) : Host.Outcome State Fault Refusal :=
  s.finish (dequeueByte s.arena q)

end Sys2Proof.Machine
end

