-- ==== Sys2Proof/Machine/Dispatch.lean ====
section
/-! DEFINITION. The dispatch to the commands' rules, one arm a constructor (30_encoding.md R109). -/

namespace Sys2Proof.Machine

/-- The meaning of a command (30_encoding.md R106). -/
def exec (i : Instr) (s : State) : Host.Outcome State Fault Refusal :=
  match i with
  | .create => Sys2Proof.Machine.execCreate s
  | .destroy q => Sys2Proof.Machine.execDestroy q s
  | .enq q d => Sys2Proof.Machine.execEnq q d s
  | .deq q => Sys2Proof.Machine.execDeq q s
  | .rdfield o w => Sys2Proof.Machine.execRdfield o w s

end Sys2Proof.Machine
end

