-- ==== Sys2Proof/Machine/Engine.lean ====
section
/-! DEFINITION. The engine's turn: the decode of CMDBUF and the command's whole effect in one step
(00_scope.md R7, 10_state.md R38, 30_encoding.md R109). -/

namespace Sys2Proof.Machine

/-- A BUSY engine decodes CMDBUF and completes its command, or the error of an illegal word
(30_encoding.md R107 to R109); IDLE and HALTED have nothing to do (log 11). -/
def engineTurn (s : State) : Host.Outcome State Fault Refusal :=
  match s.fsm with
  | .busy =>
    match decode s.cmdbuf with
    | .ok i => exec i s
    | .error e => .next (s.raiseError (illegalCause e))
  | .idle => .next s
  | .halted => .next s

end Sys2Proof.Machine
end

