-- ==== Sys2Proof/Machine/Step.lean ====
section
/-! DEFINITION. One step of the machine: one host event, or, with no host access, the engine's turn
(10_state.md R38; log 1). -/

namespace Sys2Proof.Machine

/-- One step (10_state.md R38, R40; 20_memory.md R72). -/
def step (s : State) : Host.Outcome State Fault Refusal :=
  match s.nextEvent with
  | .quiet => engineTurn s.beginStep
  | .rst => hostTurn .rst s.beginStep
  | .write addr size data => hostTurn (.write addr size data) s.beginStep
  | .read addr size => hostTurn (.read addr size) s.beginStep

/-- The state in which the very next step runs the command word `w`: it is in CMDBUF, the FSM is
BUSY, and the host makes no access in that step (10_state.md R29, R38; log 7). -/
def State.withFetchWord (s : State) (nbits w : Nat) : State :=
  { s with cmdbuf := tableWord nbits w, fsm := .busy, host := .quiet :: s.host }

end Sys2Proof.Machine
end

