-- ==== Sys2Proof/Machine/Assembler.lean ====
section
/-! DEFINITION. The assembler of 30_encoding.md R110 and R111: one line to one command word. The
line is a list of characters; spacing is the model's choice (log 16). -/

namespace Sys2Proof.Machine

/-- A token of a line: a run of letters and digits, in capitals, or a comma. -/
inductive Token where
  | word (cs : List Char)
  | comma
deriving DecidableEq, Repr

/-- The word being read, if any, put before the tokens that follow it. -/
def closeWord (cur : List Char) (ts : List Token) : List Token :=
  if cur = [] then ts else .word cur.reverse :: ts

/-- The tokens of a line, `cur` the word being read, backwards; none on a foreign character. -/
def tokens : List Char → List Char → Option (List Token)
  | [], cur => some (closeWord cur [])
  | c :: cs, cur =>
    if c = ' ' ∨ c = '\t' then (tokens cs []).map (closeWord cur)
    else if c = ',' then (tokens cs []).map (fun ts => closeWord cur (.comma :: ts))
    else if c.isAlphanum then tokens cs (c.toUpper :: cur)
    else none

/-- The value of a digit in a base. -/
def digitValue (base : Nat) (c : Char) : Option Nat :=
  let v := if c.isDigit then c.toNat - '0'.toNat
    else if 'A' ≤ c ∧ c ≤ 'F' then c.toNat - 'A'.toNat + 10 else base
  if v < base then some v else none

/-- The number a list of digits stands for, after `acc`. -/
def digits (base : Nat) : List Char → Nat → Option Nat
  | [], acc => some acc
  | c :: cs, acc =>
    match digitValue base c with
    | some v => digits base cs (base * acc + v)
    | none => none

/-- A number, in decimal or with a 0x prefix (30_encoding.md R110). -/
def number : List Char → Option Nat
  | [] => none
  | ['0', 'X'] => none
  | '0' :: 'X' :: cs => digits 16 cs 0
  | cs => digits 10 cs 0

/-- A queue handle: a number, or NULL, the handle 0xFF (30_encoding.md R110). -/
def handle (cs : List Char) : Option Nat := if cs = "NULL".toList then some 0xFF else number cs

/-- The word of an instruction, unless an operand does not fit its field (30_encoding.md R110). -/
def assembleInstr (i : Instr) : Option Word := if i.wellFormed then some (encode i) else none

/-- The word of a pseudo-command, for the operands it takes (30_encoding.md R111). -/
def assemblePseudo (p : Pseudo) : Option Word :=
  if p.wellFormed then some (encode p.expand) else none

/-- ENQ q, b, refused when b is over 255 (30_encoding.md R110). -/
def assembleEnq (q b : Nat) : Option Word :=
  if b ≤ 255 then assembleInstr (.enq q (BitVec.ofNat 8 b)) else none

/-- A command without operands (30_encoding.md R110, R111). -/
def assemble0 (m : List Char) : Option Word :=
  if m = "CREATE".toList then assembleInstr .create
  else if m = "RDCOUNT".toList then assemblePseudo .rdcount
  else none

/-- A command with one operand (30_encoding.md R110, R111). -/
def assemble1 (m a : List Char) : Option Word :=
  if m = "DESTROY".toList then (handle a).bind (fun q => assembleInstr (.destroy q))
  else if m = "DEQ".toList then (handle a).bind (fun q => assembleInstr (.deq q))
  else if m = "RDHDR".toList then (number a).bind (fun q => assemblePseudo (.rdhdr q))
  else if m = "RDHVALID".toList then (number a).bind (fun q => assemblePseudo (.rdhvalid q))
  else if m = "RDHBASE".toList then (number a).bind (fun q => assemblePseudo (.rdhbase q))
  else if m = "RDHLEN".toList then (number a).bind (fun q => assemblePseudo (.rdhlen q))
  else if m = "RDENT".toList then (number a).bind (fun s => assemblePseudo (.rdent s))
  else if m = "RDEQB".toList then (number a).bind (fun s => assemblePseudo (.rdeqb s))
  else if m = "RDEVALID".toList then (number a).bind (fun s => assemblePseudo (.rdevalid s))
  else if m = "RDEVAL".toList then (number a).bind (fun s => assemblePseudo (.rdeval s))
  else none

/-- A command with two operands (30_encoding.md R110). -/
def assemble2 (m a b : List Char) : Option Word :=
  if m = "ENQ".toList then (handle a).bind (fun q => (number b).bind (fun d => assembleEnq q d))
  else if m = "RDFIELD".toList then
    (number a).bind (fun o => (number b).bind (fun w => assembleInstr (.rdfield o w)))
  else none

/-- The command word of one line of assembler, or none where the assembler refuses it
(30_encoding.md R110, R111). -/
def assemble (line : List Char) : Option Word :=
  match tokens line [] with
  | some [.word m] => assemble0 m
  | some [.word m, .word a] => assemble1 m a
  | some [.word m, .word a, .comma, .word b] => assemble2 m a b
  | _ => none

end Sys2Proof.Machine
end

