-- ==== Sys2Proof/Safety.lean ====
section
/-! DEFINITION. The terms the claims use: the record fields as plain readings of the arena
(20_memory.md R61), well-formedness (43_engine.md R230), a queue's bytes (43_engine.md R232), how a
command ends (60_exceptions.md R303 to R306), and the invariants of a run. -/

namespace Sys2Proof.Machine

/-! ### The record fields of an arena -/

/-- COUNT, the active-queue counter (41_header_table.md R159). -/
def countOf (m : Memory) : Nat := m.bits 0 8

/-- `H(q).valid` (41_header_table.md R151). -/
def hValid (m : Memory) (q : Nat) : Bool := m.bit (8 + 24 * q)

/-- `H(q).base` (41_header_table.md R151). -/
def hBase (m : Memory) (q : Nat) : Nat := m.bits (9 + 24 * q) 11

/-- `H(q).length` (41_header_table.md R151). -/
def hLength (m : Memory) (q : Nat) : Nat := m.bits (20 + 24 * q) 11

/-- The pad bit of header `q` (41_header_table.md R151). -/
def hPad (m : Memory) (q : Nat) : Bool := m.bit (31 + 24 * q)

/-- `E(s).qb` (42_entry_store.md R171). -/
def eQb (m : Memory) (s : Nat) : Bool := m.bit (1544 + 10 * s)

/-- `E(s).valid` (42_entry_store.md R171). -/
def eValid (m : Memory) (s : Nat) : Bool := m.bit (1545 + 10 * s)

/-- `E(s).value` (42_entry_store.md R171). -/
def eValue (m : Memory) (s : Nat) : Byte := BitVec.ofNat 8 (m.bits (1546 + 10 * s) 8)

/-- The record of slot `s` (42_entry_store.md R171). -/
def entryAt (m : Memory) (s : Nat) : Entry := ⟨eQb m s, eValid m s, eValue m s⟩

/-! ### Well-formedness -/

/-- Slot `s` lies in the run of the valid queue `q` (00_scope.md R14, R15). -/
def inRun (m : Memory) (q s : Nat) : Prop :=
  hValid m q = true ∧ hBase m q ≤ s ∧ s < hBase m q + hLength m q

/-- Queue `q` is valid, holds bytes, and its base is slot `s` (41_header_table.md R160). -/
def startsAt (m : Memory) (q s : Nat) : Prop :=
  hValid m q = true ∧ 0 < hLength m q ∧ hBase m q = s

/-- WF, the well-formedness of the arena (43_engine.md R230). -/
structure WF (m : Memory) : Prop where
  /-- W1: the counter is the number of valid headers. -/
  counter : countOf m = ((List.range 64).filter (hValid m)).length
  /-- W2: the run of a queue with bytes lies in the entry segment. -/
  runsInRange : ∀ q < 64, hValid m q = true → 0 < hLength m q → hBase m q + hLength m q ≤ 1484
  /-- W3: the base of an empty queue is a slot or INVALID. -/
  emptyBases : ∀ q < 64, hValid m q = true → hLength m q = 0 → hBase m q ≤ 1484
  /-- W4: no slot lies in the runs of two queues. -/
  disjoint : ∀ p < 64, ∀ q < 64, p ≠ q → ∀ s, ¬ (inRun m p s ∧ inRun m q s)
  /-- W5: the valid slots are those of the runs. -/
  validBits : ∀ s < 1484, (eValid m s = true ↔ ∃ q < 64, inRun m q s)
  /-- W6: the marked slots are the bases of the queues with bytes. -/
  markers : ∀ s < 1484, (eQb m s = true ↔ ∃ q < 64, startsAt m q s)
  /-- W7: lengths. -/
  lengths : ∀ q < 64, hValid m q = true → hLength m q ≤ 1484

/-- No pad bit is set (20_memory.md R62). -/
def padsClear (m : Memory) : Prop := ∀ q < 64, hPad m q = false

/-- The bytes of queue `q`, the oldest first (43_engine.md R232). -/
def contents (m : Memory) (q : Nat) : List Byte :=
  (List.range (hLength m q)).map (fun i => eValue m (hBase m q + i))

/-! ### What a command leaves -/

/-- Every arena bit outside `P` is unchanged, and every byte with no bit in `P`. -/
def sameOutside (m m' : Memory) (P : Nat → Prop) : Prop :=
  (∀ k, ¬ P k → m'.bit k = m.bit k) ∧
  ∀ a, (∀ j < 8, ¬ P (8 * a + j)) → m'.read a = m.read a

/-- The arena bits of header `q`, its pad bit apart (41_header_table.md R151). -/
def headerBit (q k : Nat) : Prop := 8 + 24 * q ≤ k ∧ k < 31 + 24 * q

/-- The arena bits of the base field of header `q` (41_header_table.md R151). -/
def baseBit (q k : Nat) : Prop := 9 + 24 * q ≤ k ∧ k < 20 + 24 * q

/-- The arena bits of the length field of header `q` (41_header_table.md R151). -/
def lengthBit (q k : Nat) : Prop := 20 + 24 * q ≤ k ∧ k < 31 + 24 * q

/-- The arena bits of entry `s` (42_entry_store.md R171). -/
def entryBit (s k : Nat) : Prop := 1544 + 10 * s ≤ k ∧ k < 1554 + 10 * s

/-- The arena bits of the two flags of entry `s` (42_entry_store.md R171). -/
def entryFlagBit (s k : Nat) : Prop := 1544 + 10 * s ≤ k ∧ k < 1546 + 10 * s

/-- The state `t` after a command that succeeded from `s` with result `r`, the arena apart: RESULT,
STATUS, the FSM and the hooks as the completion writes them, everything else unchanged
(10_state.md R32, R38; 60_exceptions.md R304 to R306). -/
structure EndsInSuccess (s t : State) (r : Nat) : Prop where
  result : t.result.toNat = r
  fsm : t.fsm = .idle
  lastErr : t.lastErr = .success
  lastCause : t.lastCause = .none
  stickyIllop : t.stickyIllop = s.stickyIllop
  stickyOom : t.stickyOom = s.stickyOom
  stickyOverrun : t.stickyOverrun = s.stickyOverrun
  hookIllop : t.hookIllop = false
  hookOom : t.hookOom = false
  hookLog : t.hookLog = s.hookLog
  cmdbuf : t.cmdbuf = s.cmdbuf
  busRdata : t.busRdata = s.busRdata
  host : t.host = s.host
  draws : t.draws = s.draws

/-- The state `t` after a command that ended from `s` in IllegalOperation with cause `c`: the arena
and RESULT as before, one event on `hook_illop` (60_exceptions.md R303 to R307). -/
structure EndsInIllegal (s t : State) (c : Cause) : Prop where
  arena : t.arena = s.arena
  result : t.result = s.result
  fsm : t.fsm = .idle
  lastErr : t.lastErr = .illegalOperation
  lastCause : t.lastCause = c
  stickyIllop : t.stickyIllop = true
  stickyOom : t.stickyOom = s.stickyOom
  stickyOverrun : t.stickyOverrun = s.stickyOverrun
  hookIllop : t.hookIllop = true
  hookOom : t.hookOom = false
  hookLog : t.hookLog = ⟨.illop, c⟩ :: s.hookLog
  cmdbuf : t.cmdbuf = s.cmdbuf
  busRdata : t.busRdata = s.busRdata
  host : t.host = s.host
  draws : t.draws = s.draws

/-- The state `t` after a command that ended from `s` in OutOfMemory: the arena and RESULT as
before, one event on `hook_oom` (60_exceptions.md R303 to R307). -/
structure EndsInOutOfMemory (s t : State) : Prop where
  arena : t.arena = s.arena
  result : t.result = s.result
  fsm : t.fsm = .idle
  lastErr : t.lastErr = .outOfMemory
  lastCause : t.lastCause = .noFreeSlot
  stickyIllop : t.stickyIllop = s.stickyIllop
  stickyOom : t.stickyOom = true
  stickyOverrun : t.stickyOverrun = s.stickyOverrun
  hookIllop : t.hookIllop = false
  hookOom : t.hookOom = true
  hookLog : t.hookLog = ⟨.oom, .noFreeSlot⟩ :: s.hookLog
  cmdbuf : t.cmdbuf = s.cmdbuf
  busRdata : t.busRdata = s.busRdata
  host : t.host = s.host
  draws : t.draws = s.draws

/-! ### Invariants of a run -/

/-- STATUS agrees with itself and with the hook history (10_state.md R31, R38; 60_exceptions.md R301,
R304, R305): LAST_ERR is the kind of LAST_CAUSE, an error set its sticky bit, a set sticky bit has
its event in the history, every event's output is that of its cause's kind, the outputs are never
high together, a high output is the last command's, and HALTED is not entered. -/
structure StatusConsistent (s : State) : Prop where
  kind : s.lastErr = s.lastCause.kind
  illopSticks : s.lastErr = .illegalOperation → s.stickyIllop = true
  oomSticks : s.lastErr = .outOfMemory → s.stickyOom = true
  illopLogged : s.stickyIllop = true → ∃ e ∈ s.hookLog, e.hook = .illop
  oomLogged : s.stickyOom = true → ∃ e ∈ s.hookLog, e.hook = .oom
  logIllop : ∀ e ∈ s.hookLog, (e.hook = .illop ↔ e.cause.kind = .illegalOperation)
  logOom : ∀ e ∈ s.hookLog, (e.hook = .oom ↔ e.cause.kind = .outOfMemory)
  notBoth : ¬ (s.hookIllop = true ∧ s.hookOom = true)
  pulseIllop : s.hookIllop = true → s.lastErr = .illegalOperation
  pulseOom : s.hookOom = true → s.lastErr = .outOfMemory
  notHalted : s.fsm ≠ .halted

/-- The host keeps to the block's contract: every access to come is an aligned 32-bit one
(10_state.md R37). -/
def hostInContract (s : State) : Prop :=
  ∀ e ∈ s.host, match e with
    | .write addr size _ => alignedWord addr size = true
    | .read addr size => alignedWord addr size = true
    | .rst => True
    | .quiet => True

/-- A safe step: it answers a next state. -/
def safeStep (s : State) : Prop := ∃ t, step s = .next t

end Sys2Proof.Machine
end

