-- ==== Sys2Proof/Certificates/Slice0/Obligations.lean ====
section
/-! DEFINITION. The statements for the provers. Each names the rules of spec/ it formalises; what
rests on a choice of the model says so and names its log entry. -/

open Sys2Proof Sys2Proof.Machine

/-! ### Encoding -/

/-- Decoding the word of any encodable command gives the command back (30_encoding.md R102, R106,
R109). That the numbers are bounded is the model's `wellFormed` (log 18). -/
def Obligations.DecodeOfEncode : Prop :=
  ∀ i : Instr, i.wellFormed = true → decode (encode i) = .ok i

/-- A word that decodes has no second spelling: its command is encodable and encodes to that very
word, so no bit of a legal word is dropped (30_encoding.md R102, R108, R109). -/
def Obligations.EncodeOfDecode : Prop :=
  ∀ (w : Word) (i : Instr), decode w = .ok i → i.wellFormed = true ∧ encode i = w

/-- Words written out from the formats decode to the commands they stand for (30_encoding.md R102,
R106; 95_test_vectors.md 1 and 2.4). -/
def Obligations.SampleWordsDecode : Prop :=
  decode 0x10000000#32 = .ok .create ∧
  decode 0x20000005#32 = .ok (.destroy 5) ∧
  decode 0x300001FF#32 = .ok (.enq 255 1#8) ∧
  decode 0x30005A3F#32 = .ok (.enq 63 0x5A#8) ∧
  decode 0x40000001#32 = .ok (.deq 1) ∧
  decode 0x50060008#32 = .ok (.rdfield 8 24) ∧
  decode 0x5000BFFF#32 = .ok (.rdfield 16383 2)

/-- Lines of each form assemble to their words, and a line with an operand that does not fit its field
is refused (30_encoding.md R110, R111; 95_test_vectors.md P1, P3). The spacing accepted is the model's
choice (log 16). -/
def Obligations.AssemblerLinesEncode : Prop :=
  assemble "CREATE".toList = some 0x10000000#32 ∧
  assemble "destroy 0x3F".toList = some 0x2000003F#32 ∧
  assemble "ENQ NULL, 1".toList = some 0x300001FF#32 ∧
  assemble "Deq 255".toList = some 0x400000FF#32 ∧
  assemble "RDFIELD 16383, 31".toList = some 0x5007FFFF#32 ∧
  assemble "RDHDR 1".toList = some 0x50060020#32 ∧
  assemble "RDENT 4".toList = some 0x50028630#32 ∧
  assemble "DEQ 256".toList = none ∧ assemble "ENQ 0, 256".toList = none ∧
  assemble "RDFIELD 16384, 1".toList = none ∧ assemble "RDFIELD 0, 32".toList = none

/-- A word with OP 0x0 or 0x6 .. 0xF completes with IllegalOperation(RESERVED_OPCODE), cause 5, and
changes no arena bit (30_encoding.md R107). -/
def Obligations.ReservedOpcodeRaises : Prop :=
  Cause.reservedOpcode.code = 5 ∧
  ∀ s : State, s.fsm = .busy → s.nextEvent = .quiet →
    ((s.cmdbuf.extractLsb' 28 4).toNat = 0 ∨ 6 ≤ (s.cmdbuf.extractLsb' 28 4).toNat) →
    ∃ t, step s = .next t ∧ EndsInIllegal s.beginStep t .reservedOpcode

/-- A word with a legal OP and a 1 in a reserved bit of its format completes with
IllegalOperation(RESERVED_BITS), cause 6, and changes no arena bit (30_encoding.md R108; the reserved
bits of each format, R102). -/
def Obligations.ReservedBitsRaise : Prop :=
  Cause.reservedBits.code = 6 ∧
  ∀ s : State, s.fsm = .busy → s.nextEvent = .quiet →
    ∀ op, (s.cmdbuf.extractLsb' 28 4).toNat = op →
    (op = 1 ∧ s.cmdbuf.extractLsb' 0 28 ≠ 0#28 ∨
     op = 2 ∧ s.cmdbuf.extractLsb' 8 20 ≠ 0#20 ∨
     op = 3 ∧ s.cmdbuf.extractLsb' 16 12 ≠ 0#12 ∨
     op = 4 ∧ s.cmdbuf.extractLsb' 8 20 ≠ 0#20 ∨
     op = 5 ∧ s.cmdbuf.extractLsb' 19 9 ≠ 0#9) →
    ∃ t, step s = .next t ∧ EndsInIllegal s.beginStep t .reservedBits

/-- Each pseudo-command is one RDFIELD and leaves in RESULT the fields its row names
(30_encoding.md R111). -/
def Obligations.PseudoCommandsRead : Prop :=
  ∀ s : State,
  (∃ t, exec Pseudo.rdcount.expand s = .next t ∧ t.arena = s.arena ∧ t.result.toNat = countOf s.arena) ∧
  (∀ q < 64,
    (∃ t, exec (Pseudo.rdhdr q).expand s = .next t ∧ t.arena = s.arena ∧
      t.result.getLsbD 23 = hValid s.arena q ∧ (t.result.extractLsb' 12 11).toNat = hBase s.arena q ∧
      (t.result.extractLsb' 1 11).toNat = hLength s.arena q ∧ t.result.getLsbD 0 = hPad s.arena q) ∧
    (∃ t, exec (Pseudo.rdhvalid q).expand s = .next t ∧ t.arena = s.arena ∧
      t.result.toNat = (hValid s.arena q).toNat) ∧
    (∃ t, exec (Pseudo.rdhbase q).expand s = .next t ∧ t.arena = s.arena ∧
      t.result.toNat = hBase s.arena q) ∧
    (∃ t, exec (Pseudo.rdhlen q).expand s = .next t ∧ t.arena = s.arena ∧
      t.result.toNat = hLength s.arena q)) ∧
  (∀ x < 1484,
    (∃ t, exec (Pseudo.rdent x).expand s = .next t ∧ t.arena = s.arena ∧
      t.result.getLsbD 9 = eQb s.arena x ∧ t.result.getLsbD 8 = eValid s.arena x ∧
      t.result.extractLsb' 0 8 = eValue s.arena x) ∧
    (∃ t, exec (Pseudo.rdeqb x).expand s = .next t ∧ t.arena = s.arena ∧
      t.result.toNat = (eQb s.arena x).toNat) ∧
    (∃ t, exec (Pseudo.rdevalid x).expand s = .next t ∧ t.arena = s.arena ∧
      t.result.toNat = (eValid s.arena x).toNat) ∧
    (∃ t, exec (Pseudo.rdeval x).expand s = .next t ∧ t.arena = s.arena ∧
      t.result.toNat = (eValue s.arena x).toNat))

/-! ### The codec -/

/-- A field of the codec's domain reads as the sum of its bits, the most significant at the lowest
offset, where bit `k` is bit `7 - k mod 8` of byte `k div 8`; with the example (20_memory.md R65). -/
def Obligations.FieldReadIsBitSum : Prop :=
  (∀ (m : Memory) (o w : Nat), 1 ≤ w → w ≤ 24 → o + w ≤ 16384 →
    fieldRead m o w = .ok (∑ i ∈ Finset.range w,
      (m.read ((o + i) / 8)).toNat / 2 ^ (7 - (o + i) % 8) % 2 * 2 ^ (w - 1 - i))) ∧
  ∀ m : Memory, m.read 193 = 0xE9#8 → m.read 194 = 0x40#8 →
    fieldRead m 1544 10 = .ok 0x3A5 ∧ fieldRead m 1544 8 = .ok 0xE9 ∧ fieldRead m 1552 2 = .ok 1

/-- A codec write in the domain sets exactly the addressed bits, to those of `v mod 2^w`, the most
significant at the lowest offset, and stores no byte outside the field (40_codec.md R131, R133). -/
def Obligations.FieldWriteSetsExactlyItsBits : Prop :=
  ∀ (m : Memory) (o w v : Nat), 1 ≤ w → w ≤ 24 → o + w ≤ 16384 →
    ∃ m', fieldWrite m o w v = .ok m' ∧
      (∀ k, o ≤ k → k < o + w → m'.bit k = (v % 2 ^ w).testBit (o + w - 1 - k)) ∧
      sameOutside m m' (fun k => o ≤ k ∧ k < o + w)

/-- The read-after-write laws (a) to (e) of the codec, on every field of its domain; two arenas in
canonical form that agree on every bit are one arena (40_codec.md R135). -/
def Obligations.CodecReadAfterWriteLaws : Prop :=
  ∀ (m : Memory) (o w v : Nat), 1 ≤ w → w ≤ 24 → o + w ≤ 16384 →
    (∀ m', fieldWrite m o w v = .ok m' → fieldRead m' o w = .ok (v % 2 ^ w)) ∧
    (∀ o' w' v' m', 1 ≤ w' → w' ≤ 24 → o' + w' ≤ 16384 → o' + w' ≤ o ∨ o + w ≤ o' →
      fieldWrite m o w v = .ok m' →
      fieldRead m' o' w' = fieldRead m o' w' ∧
      (m.wf → ∀ m1 m2 m3, fieldWrite m' o' w' v' = .ok m1 → fieldWrite m o' w' v' = .ok m2 →
        fieldWrite m2 o w v = .ok m3 → m1 = m3)) ∧
    (∀ u m', fieldRead m o w = .ok u → fieldWrite m o w u = .ok m' →
      (∀ k, m'.bit k = m.bit k) ∧ (m.wf → m' = m)) ∧
    (∀ a x y, 0 < a → a < w → fieldRead m o a = .ok x → fieldRead m (o + a) (w - a) = .ok y →
      fieldRead m o w = .ok (x * 2 ^ (w - a) + y))

/-- An engine access outside the arena, to a slot from 1484 on, or to a qid from 64 on is INTERNAL, and
a command that reaches one is refused (40_codec.md R132, 42_entry_store.md R178, 60_exceptions.md R312;
93_implementation_defined.md K3; that INTERNAL is a refusal of its own name is log 2). -/
def Obligations.OutOfRangeAccessesAreInternal : Prop :=
  (∀ (m : Memory) (o w v : Nat), w = 0 ∨ 24 < w ∨ 16384 < o + w →
    fieldRead m o w = .error .internal ∧ fieldWrite m o w v = .error .internal) ∧
  (∀ (m : Memory) (s x : Nat) (e : Entry) (b : Bool), 1484 ≤ s →
    readEntry m s = .error .internal ∧ writeEntry m s e = .error .internal ∧
    setEntryValid m s b = .error .internal ∧ setEntryBase m s b = .error .internal ∧
    copyEntry m s x = .error .internal ∧ copyEntry m x s = .error .internal) ∧
  (∀ (m : Memory) (q n : Nat) (b : Bool), 64 ≤ q →
    getHeader m q = .error .internal ∧ setValid m q b = .error .internal ∧
    setBase m q n = .error .internal ∧ setLength m q n = .error .internal) ∧
  ∀ s : State, s.finish (.error .internal) = .refused .internal

/-- RDFIELD of a legal field answers the field, zero-extended, and writes no arena bit
(40_codec.md R137). -/
def Obligations.RdfieldReturnsField : Prop :=
  ∀ (s : State) (o w : Nat), 1 ≤ w → w ≤ 24 → o + w ≤ 16384 →
    ∃ t, exec (.rdfield o w) s = .next t ∧ t.arena = s.arena ∧
      EndsInSuccess s t (∑ i ∈ Finset.range w, (s.arena.bit (o + i)).toNat * 2 ^ (w - 1 - i))

/-- RDFIELD of width 0, of a width over 24, or of a field that leaves the arena ends in
IllegalOperation(BAD_FIELD) (40_codec.md R137). -/
def Obligations.RdfieldBadField : Prop :=
  ∀ (s : State) (o w : Nat), w = 0 ∨ 24 < w ∨ 16384 < o + w →
    ∃ t, exec (.rdfield o w) s = .next t ∧ EndsInIllegal s t .badField

/-! ### CREATE and DESTROY -/

/-- CREATE takes the lowest free qid, counts it, records the first free slot or INVALID as its base
with length 0, answers the qid, and writes nothing else (43_engine.md R201; COUNT is stored mod 256,
00_scope.md R12). -/
def Obligations.CreateAllocatesLowestQid : Prop :=
  ∀ (s : State) (q : Nat), q < 64 → hValid s.arena q = false → (∀ p < q, hValid s.arena p = true) →
    ∃ t, exec .create s = .next t ∧ EndsInSuccess s t q ∧
      hValid t.arena q = true ∧ hLength t.arena q = 0 ∧
      (∀ f < 1484, eValid s.arena f = false → (∀ x < f, eValid s.arena x = true) →
        hBase t.arena q = f) ∧
      ((∀ x < 1484, eValid s.arena x = true) → hBase t.arena q = 1484) ∧
      countOf t.arena = (countOf s.arena + 1) % 256 ∧
      sameOutside s.arena t.arena (fun k => k < 8 ∨ headerBit q k)

/-- CREATE with all 64 headers valid ends in IllegalOperation(NO_FREE_HEADER) (43_engine.md R201). -/
def Obligations.CreateWithoutFreeHeader : Prop :=
  ∀ s : State, (∀ p < 64, hValid s.arena p = true) →
    ∃ t, exec .create s = .next t ∧ EndsInIllegal s t .noFreeHeader

/-- DESTROY of a valid queue whose run is in range, an empty one too, frees its slots and keeps their
value bits, clears the base's marker, makes the header invalid with base INVALID and length 0, counts
down, and writes nothing else (43_engine.md R202; one less than a count of 0 is 255, 00_scope.md R12
and log 10). -/
def Obligations.DestroyFreesTheRun : Prop :=
  ∀ (s : State) (q b n : Nat), q < 64 → hValid s.arena q = true → hBase s.arena q = b →
    hLength s.arena q = n → n = 0 ∨ b + n ≤ 1484 →
    ∃ t, exec (.destroy q) s = .next t ∧ EndsInSuccess s t 0 ∧
      hValid t.arena q = false ∧ hBase t.arena q = 1484 ∧ hLength t.arena q = 0 ∧
      countOf t.arena = (countOf s.arena + 255) % 256 ∧
      (∀ x, b ≤ x → x < b + n → eValid t.arena x = false ∧ eValue t.arena x = eValue s.arena x ∧
        eQb t.arena x = (eQb s.arena x && !decide (x = b))) ∧
      sameOutside s.arena t.arena
        (fun k => k < 8 ∨ headerBit q k ∨ ∃ x, b ≤ x ∧ x < b + n ∧ entryFlagBit x k)

/-- After DESTROY every slot of the former run is free, so the free-slot scan from it finds it
(43_engine.md R235). -/
def Obligations.DestroyedSlotsAreFound : Prop :=
  ∀ (s t : State) (q x : Nat), WF s.arena → q < 64 → inRun s.arena q x →
    exec (.destroy q) s = .next t →
    eValid t.arena x = false ∧ findFreeSlotUp t.arena x = .ok (some x) ∧
      findFreeSlotBelow t.arena (x + 1) = .ok (some x)

/-- DESTROY, ENQ and DEQ on a null handle end in IllegalOperation(NULL_HANDLE), on a header that is
not valid in IllegalOperation(INVALID_HANDLE), whatever else the state holds (43_engine.md R200). -/
def Obligations.BadHandlesAreRejected : Prop :=
  ∀ (s : State) (q : Nat) (d : Byte) (i : Instr), i = .destroy q ∨ i = .enq q d ∨ i = .deq q →
    (64 ≤ q → ∃ t, exec i s = .next t ∧ EndsInIllegal s t .nullHandle) ∧
    (q < 64 → hValid s.arena q = false → ∃ t, exec i s = .next t ∧ EndsInIllegal s t .invalidHandle)

/-! ### ENQ -/

/-- ENQ on an empty queue whose base is a free slot writes the byte there, marked, and sets the
length to 1; the base is not written (43_engine.md R204). -/
def Obligations.EnqFastPath : Prop :=
  ∀ (s : State) (q b : Nat) (d : Byte), q < 64 → hValid s.arena q = true → hLength s.arena q = 0 →
    hBase s.arena q = b → b < 1484 → eValid s.arena b = false →
    ∃ t, exec (.enq q d) s = .next t ∧ EndsInSuccess s t 0 ∧
      entryAt t.arena b = ⟨true, true, d⟩ ∧ hLength t.arena q = 1 ∧
      sameOutside s.arena t.arena (fun k => entryBit b k ∨ lengthBit q k)

/-- ENQ on a queue with bytes whose tail is a free slot writes the byte there, unmarked, and adds one
to the length (43_engine.md R206). -/
def Obligations.EnqAppendDirect : Prop :=
  ∀ (s : State) (q b n : Nat) (d : Byte), q < 64 → hValid s.arena q = true → hBase s.arena q = b →
    hLength s.arena q = n → 0 < n → b + n < 1484 → eValid s.arena (b + n) = false →
    ∃ t, exec (.enq q d) s = .next t ∧ EndsInSuccess s t 0 ∧
      entryAt t.arena (b + n) = ⟨false, true, d⟩ ∧ hLength t.arena q = n + 1 ∧
      sameOutside s.arena t.arena (fun k => entryBit (b + n) k ∨ lengthBit q k)

/-- ENQ on an empty queue whose base slot is occupied takes the nearest free slot to the right, marks
it and makes it the base; no other marker is cleared (43_engine.md R207, R213). -/
def Obligations.EnqRelocateRight : Prop :=
  ∀ (s : State) (q b i : Nat) (d : Byte), q < 64 → hValid s.arena q = true → hBase s.arena q = b →
    hLength s.arena q = 0 → b < i → i < 1484 → eValid s.arena i = false →
    (∀ x, b ≤ x → x < i → eValid s.arena x = true) →
    ∃ t, exec (.enq q d) s = .next t ∧ EndsInSuccess s t 0 ∧
      entryAt t.arena i = ⟨true, true, d⟩ ∧ hBase t.arena q = i ∧ hLength t.arena q = 1 ∧
      sameOutside s.arena t.arena (fun k => entryBit i k ∨ baseBit q k ∨ lengthBit q k)

/-- ENQ on a queue with bytes whose nearest free slot `i` at or above the tail is not the tail moves
the slots `tail .. i-1` right by one, adds one to the base of every other queue whose run starts
there, and writes the byte at the tail; stale bases do not move (43_engine.md R208). -/
def Obligations.EnqShiftRight : Prop :=
  ∀ (s : State) (q b n i : Nat) (d : Byte), WF s.arena → q < 64 → hValid s.arena q = true →
    hBase s.arena q = b → hLength s.arena q = n → 0 < n → b + n < i → i < 1484 →
    eValid s.arena i = false → (∀ x, b + n ≤ x → x < i → eValid s.arena x = true) →
    ∃ t, exec (.enq q d) s = .next t ∧ EndsInSuccess s t 0 ∧
      (∀ x, b + n < x → x ≤ i → entryAt t.arena x = entryAt s.arena (x - 1)) ∧
      entryAt t.arena (b + n) = ⟨false, true, d⟩ ∧ hLength t.arena q = n + 1 ∧
      (∀ p < 64, ∀ c, startsAt s.arena p c → b + n ≤ c → c < i → hBase t.arena p = c + 1) ∧
      sameOutside s.arena t.arena (fun k => lengthBit q k ∨
        (∃ x, b + n ≤ x ∧ x ≤ i ∧ entryBit x k) ∨
        ∃ p < 64, ∃ c, startsAt s.arena p c ∧ b + n ≤ c ∧ c < i ∧ baseBit p k)

/-- ENQ on an empty queue with no free slot at or above its base, INVALID among them, takes the
nearest free slot below, marks it and makes it the base (43_engine.md R209, R210, R213). -/
def Obligations.EnqRelocateLeft : Prop :=
  ∀ (s : State) (q b i : Nat) (d : Byte), q < 64 → hValid s.arena q = true → hBase s.arena q = b →
    hLength s.arena q = 0 → b ≤ 1484 → (∀ x, b ≤ x → x < 1484 → eValid s.arena x = true) →
    i < b → eValid s.arena i = false → (∀ x, i < x → x < b → eValid s.arena x = true) →
    ∃ t, exec (.enq q d) s = .next t ∧ EndsInSuccess s t 0 ∧
      entryAt t.arena i = ⟨true, true, d⟩ ∧ hBase t.arena q = i ∧ hLength t.arena q = 1 ∧
      sameOutside s.arena t.arena (fun k => entryBit i k ∨ baseBit q k ∨ lengthBit q k)

/-- ENQ on a queue with bytes and no free slot at or above its tail takes the nearest free slot `i`
below its base: the slots `i+1 .. tail-1` move left by one, every queue whose run starts there has
its base reduced by one, the queue itself among them, and the byte is written at `tail - 1`
(43_engine.md R211). -/
def Obligations.EnqShiftLeft : Prop :=
  ∀ (s : State) (q b n i : Nat) (d : Byte), WF s.arena → q < 64 → hValid s.arena q = true →
    hBase s.arena q = b → hLength s.arena q = n → 0 < n →
    (∀ x, b + n ≤ x → x < 1484 → eValid s.arena x = true) →
    i < b → eValid s.arena i = false → (∀ x, i < x → x < b → eValid s.arena x = true) →
    ∃ t, exec (.enq q d) s = .next t ∧ EndsInSuccess s t 0 ∧
      (∀ x, i ≤ x → x < b + n - 1 → entryAt t.arena x = entryAt s.arena (x + 1)) ∧
      entryAt t.arena (b + n - 1) = ⟨false, true, d⟩ ∧ hLength t.arena q = n + 1 ∧
      (∀ p < 64, ∀ c, startsAt s.arena p c → i < c → c < b + n → hBase t.arena p = c - 1) ∧
      sameOutside s.arena t.arena (fun k => lengthBit q k ∨
        (∃ x, i ≤ x ∧ x < b + n ∧ entryBit x k) ∨
        ∃ p < 64, ∃ c, startsAt s.arena p c ∧ i < c ∧ c < b + n ∧ baseBit p k)

/-- ENQ with no free slot outside the queue's own run ends in OutOfMemory(NO_FREE_SLOT), the arena
unchanged (43_engine.md R212). -/
def Obligations.EnqOutOfMemory : Prop :=
  ∀ (s : State) (q b n : Nat) (d : Byte), q < 64 → hValid s.arena q = true → hBase s.arena q = b →
    hLength s.arena q = n → b ≤ 1484 → (∀ x, b + n ≤ x → x < 1484 → eValid s.arena x = true) →
    (∀ x < b, eValid s.arena x = true) →
    ∃ t, exec (.enq q d) s = .next t ∧ EndsInOutOfMemory s t

/-- In a well-formed state ENQ on a valid handle fails with OutOfMemory exactly when all 1484 slots
are valid, and succeeds otherwise; the lengths of the queues never add up to more than 1484
(43_engine.md R234). -/
def Obligations.CapacityIsEverySlot : Prop :=
  ∀ s : State, WF s.arena →
    (∀ q < 64, hValid s.arena q = true → ∀ d, ∃ t, exec (.enq q d) s = .next t ∧
      ((∀ x < 1484, eValid s.arena x = true) → EndsInOutOfMemory s t) ∧
      ((∃ x < 1484, eValid s.arena x = false) → EndsInSuccess s t 0)) ∧
    ((List.range 64).map (fun q => if hValid s.arena q then hLength s.arena q else 0)).sum ≤ 1484

/-! ### DEQ -/

/-- DEQ on a queue of two bytes or more answers the byte at the base, frees that slot and keeps its
value bits, moves the base and the marker to the next slot, and takes one from the length
(43_engine.md R214). -/
def Obligations.DeqAdvancesBase : Prop :=
  ∀ (s : State) (q b n : Nat), q < 64 → hValid s.arena q = true → hBase s.arena q = b →
    hLength s.arena q = n → 1 < n → b + 1 < 1484 →
    ∃ t, exec (.deq q) s = .next t ∧ EndsInSuccess s t (eValue s.arena b).toNat ∧
      eValid t.arena b = false ∧ eQb t.arena b = false ∧ eQb t.arena (b + 1) = true ∧
      hBase t.arena q = b + 1 ∧ hLength t.arena q = n - 1 ∧
      sameOutside s.arena t.arena
        (fun k => entryFlagBit b k ∨ k = 1544 + 10 * (b + 1) ∨ baseBit q k ∨ lengthBit q k)

/-- DEQ on a queue of one byte answers it, frees its slot and keeps its value bits, and leaves the
queue empty with base INVALID (43_engine.md R214). -/
def Obligations.DeqEmptiesQueue : Prop :=
  ∀ (s : State) (q b : Nat), q < 64 → hValid s.arena q = true → hBase s.arena q = b →
    hLength s.arena q = 1 → b < 1484 →
    ∃ t, exec (.deq q) s = .next t ∧ EndsInSuccess s t (eValue s.arena b).toNat ∧
      eValid t.arena b = false ∧ eQb t.arena b = false ∧
      hBase t.arena q = 1484 ∧ hLength t.arena q = 0 ∧
      sameOutside s.arena t.arena (fun k => entryFlagBit b k ∨ baseBit q k ∨ lengthBit q k)

/-- DEQ on an empty queue ends in IllegalOperation(EMPTY_QUEUE) (43_engine.md R214). -/
def Obligations.DeqOnEmptyQueue : Prop :=
  ∀ (s : State) (q : Nat), q < 64 → hValid s.arena q = true → hLength s.arena q = 0 →
    ∃ t, exec (.deq q) s = .next t ∧ EndsInIllegal s t .emptyQueue

/-! ### The queues as byte sequences -/

/-- In a well-formed state a successful ENQ appends its byte to its queue's bytes, and every other
valid queue keeps its own, in order (43_engine.md R232). -/
def Obligations.EnqAppendsToContents : Prop :=
  ∀ (s t : State) (q : Nat) (d : Byte), WF s.arena → exec (.enq q d) s = .next t →
    t.lastErr = .success →
    contents t.arena q = contents s.arena q ++ [d] ∧
    ∀ p < 64, hValid t.arena p = hValid s.arena p ∧
      (p ≠ q → hValid s.arena p = true → contents t.arena p = contents s.arena p)

/-- In a well-formed state a successful DEQ answers the oldest byte of its queue and leaves the rest
in order, and every other valid queue keeps its own (43_engine.md R232). -/
def Obligations.DeqRemovesOldest : Prop :=
  ∀ (s t : State) (q : Nat), WF s.arena → exec (.deq q) s = .next t → t.lastErr = .success →
    (∃ v, contents s.arena q = v :: contents t.arena q ∧ t.result.toNat = v.toNat) ∧
    ∀ p < 64, hValid t.arena p = hValid s.arena p ∧
      (p ≠ q → hValid s.arena p = true → contents t.arena p = contents s.arena p)

/-- In a well-formed state a successful CREATE makes one queue, which is empty, a successful DESTROY
removes one, and every other queue keeps its bytes (43_engine.md R201, R202, R232). -/
def Obligations.LifecycleKeepsOtherQueues : Prop :=
  ∀ s t : State, WF s.arena → t.lastErr = .success →
    (exec .create s = .next t →
      ∃ q < 64, t.result.toNat = q ∧ hValid s.arena q = false ∧ hValid t.arena q = true ∧
        contents t.arena q = [] ∧ ∀ p < 64, p ≠ q →
          hValid t.arena p = hValid s.arena p ∧ contents t.arena p = contents s.arena p) ∧
    (∀ q, exec (.destroy q) s = .next t →
      hValid s.arena q = true ∧ hValid t.arena q = false ∧ ∀ p < 64, p ≠ q →
        hValid t.arena p = hValid s.arena p ∧
        (hValid s.arena p = true → contents t.arena p = contents s.arena p))

/-! ### Errors -/

/-- A command that ends in an error, from any state and for an illegal word too, changes no arena bit
and no RESULT bit; the state after it is the state before it, apart from STATUS (LAST_ERR, LAST_CAUSE,
the sticky bits of the two errors, the FSM) and the hook event (60_exceptions.md R303). -/
def Obligations.ErrorsArePrecise : Prop :=
  ∀ s t : State, s.fsm = .busy → s.nextEvent = .quiet → step s = .next t → t.lastErr ≠ .success →
    t.arena = s.arena ∧ t.result = s.result ∧ t.cmdbuf = s.cmdbuf ∧
    t.stickyOverrun = s.stickyOverrun ∧ t.busRdata = s.busRdata ∧ t.draws = s.draws ∧
    t.host = s.host.tail

/-- At the completion of a command exactly one hook event occurs when it ends in an error, on the
output of its kind and with its cause in the history, and none when it succeeds; the outputs are
never high together (60_exceptions.md R304). That a pulse lasts one step is the model's reading of
"one clock cycle" (log 5). -/
def Obligations.OneHookEventPerError : Prop :=
  ∀ s t : State, s.fsm = .busy → s.nextEvent = .quiet → step s = .next t →
    (t.lastErr = .success ∧ t.hookIllop = false ∧ t.hookOom = false ∧ t.hookLog = s.hookLog) ∨
    (t.lastErr = .illegalOperation ∧ t.hookIllop = true ∧ t.hookOom = false ∧
      t.hookLog = ⟨.illop, t.lastCause⟩ :: s.hookLog) ∨
    (t.lastErr = .outOfMemory ∧ t.hookIllop = false ∧ t.hookOom = true ∧
      t.hookLog = ⟨.oom, t.lastCause⟩ :: s.hookLog)

/-- No hook event occurs in a step that completes no command: both outputs are low and the history
stays (60_exceptions.md R304; that a pulse is over at the next step is log 5). -/
def Obligations.NoHookEventElsewhere : Prop :=
  ∀ s t : State, s.fsm ≠ .busy ∨ s.nextEvent ≠ .quiet → step s = .next t →
    t.hookIllop = false ∧ t.hookOom = false ∧ t.hookLog = s.hookLog

/-- A command's outcome is a function of the arena and the command word alone: two machines that agree
on both, whatever else they hold, are left with one arena, one error, one cause, one RESULT on success
and the same hook outputs, or are refused together; no value is drawn (43_engine.md R238). -/
def Obligations.OutcomeDependsOnArenaAndWord : Prop :=
  ∀ s s' : State, s.fsm = .busy → s'.fsm = .busy → s.nextEvent = .quiet → s'.nextEvent = .quiet →
    s.arena = s'.arena → s.cmdbuf = s'.cmdbuf →
    (∃ t t', step s = .next t ∧ step s' = .next t' ∧ t.arena = t'.arena ∧ t.lastErr = t'.lastErr ∧
      t.lastCause = t'.lastCause ∧ (t.lastErr = .success → t.result = t'.result) ∧
      t.hookIllop = t'.hookIllop ∧ t.hookOom = t'.hookOom ∧ t.draws = s.draws ∧
      t'.draws = s'.draws) ∨
    (step s = .refused .internal ∧ step s' = .refused .internal)

/-- STATUS at completion: success writes 0 and 0 and no sticky bit; IllegalOperation writes 1, its
cause and STICKY_ILLOP; OutOfMemory writes 2, its cause and STICKY_OOM; and no step but a reset
clears a sticky bit (60_exceptions.md R305). -/
def Obligations.StatusAtCompletion : Prop :=
  (∀ s t : State, s.fsm = .busy → s.nextEvent = .quiet → step s = .next t →
    (t.lastErr.code = 0 ∧ t.lastCause.code = 0 ∧ t.stickyIllop = s.stickyIllop ∧
      t.stickyOom = s.stickyOom) ∨
    (t.lastErr.code = 1 ∧ 1 ≤ t.lastCause.code ∧ t.lastCause.code ≤ 7 ∧ t.stickyIllop = true ∧
      t.stickyOom = s.stickyOom) ∨
    (t.lastErr.code = 2 ∧ t.lastCause.code = 8 ∧ t.stickyIllop = s.stickyIllop ∧
      t.stickyOom = true)) ∧
  ∀ s t : State, s.nextEvent ≠ .rst → step s = .next t →
    (s.stickyIllop = true → t.stickyIllop = true) ∧ (s.stickyOom = true → t.stickyOom = true) ∧
    (s.stickyOverrun = true → t.stickyOverrun = true)

/-- After an error, as after a success, this hardware's FSM is IDLE, so the next command is accepted;
the policies RESUME and HALT lead to IDLE and HALTED (60_exceptions.md R307; ON_ERROR = RESUME is
00_scope.md R8, log 21). -/
def Obligations.EngineResumesAfterError : Prop :=
  Fsm.afterError .resume = .idle ∧ Fsm.afterError .halt = .halted ∧
  (∀ s t : State, s.fsm = .busy → s.nextEvent = .quiet → step s = .next t → t.fsm = .idle) ∧
  ∀ (s : State) (w : Word) (rest : List HostEvent), s.fsm = .halted →
    s.host = .write 0#14 4 w :: rest →
    ∃ t, step s = .next t ∧ t.fsm = .halted ∧ t.cmdbuf = s.cmdbuf ∧ t.stickyOverrun = true

/-! ### Reset -/

/-- The state after reset: every arena byte 0x00, no queue, no entry, IDLE, every register and output
0, the constants readable (10_state.md R41). No host event to come, `busRdata` 0 and `draws` 0 are the
model's choices and are not stated here (logs 3, 4, 7). -/
def Obligations.ResetValues : Prop :=
  (∀ a, State.reset.arena.read a = 0#8) ∧ countOf State.reset.arena = 0 ∧
  (∀ q < 64, hValid State.reset.arena q = false ∧ hBase State.reset.arena q = 0 ∧
    hLength State.reset.arena q = 0 ∧ hPad State.reset.arena q = false) ∧
  (∀ x < 1484, entryAt State.reset.arena x = ⟨false, false, 0#8⟩) ∧
  State.reset.fsm = .idle ∧ State.reset.cmdbuf = 0#32 ∧ State.reset.status = 0#32 ∧
  State.reset.result = 0#32 ∧ State.reset.hookIllop = false ∧ State.reset.hookOom = false ∧
  readRegister State.reset 0x000C#14 = 0x0A400800#32 ∧
  readRegister State.reset 0x0010#14 = 0x00C105CC#32 ∧
  readRegister State.reset 0x0014#14 = 0x42510001#32

/-- The state after reset is well formed: COUNT is 0, no header is valid, no entry is valid or marked
(70_reset_and_hazards.md R403). -/
def Obligations.ResetIsWellFormed : Prop :=
  WF State.reset.arena ∧ countOf State.reset.arena = 0 ∧
  (∀ q < 64, hValid State.reset.arena q = false) ∧
  ∀ x < 1484, eValid State.reset.arena x = false ∧ eQb State.reset.arena x = false

/-- `rst`, in any state and also during a command, gives every piece of the block's state its reset
value and produces no hook event; and no other step clears a sticky bit or leaves HALTED
(70_reset_and_hazards.md R400, R401). -/
def Obligations.RstResetsEverything : Prop :=
  (∀ (s : State) (rest : List HostEvent), s.host = .rst :: rest →
    ∃ t, step s = .next t ∧ t.arena = State.reset.arena ∧ t.fsm = State.reset.fsm ∧
      t.cmdbuf = State.reset.cmdbuf ∧ t.status = State.reset.status ∧
      t.result = State.reset.result ∧ t.hookIllop = false ∧ t.hookOom = false ∧
      t.hookLog = s.hookLog ∧ t.host = rest) ∧
  ∀ s t : State, s.nextEvent ≠ .rst → step s = .next t →
    (s.stickyIllop = true → t.stickyIllop = true) ∧ (s.stickyOom = true → t.stickyOom = true) ∧
    (s.stickyOverrun = true → t.stickyOverrun = true) ∧ (s.fsm = .halted → t.fsm = .halted)

/-! ### The host's side -/

/-- A write of CMD while IDLE fills CMDBUF and makes the FSM BUSY; while BUSY or HALTED it is ignored
and sets STICKY_OVERRUN; a read of CMD gives 0 (10_state.md R29). -/
def Obligations.CmdWriteStartsCommand : Prop :=
  ∀ (s : State) (w : Word) (rest : List HostEvent),
    (s.host = .write 0#14 4 w :: rest →
      (s.fsm = .idle → step s = .next { s.beginStep with cmdbuf := w, fsm := .busy }) ∧
      (s.fsm ≠ .idle → step s = .next { s.beginStep with stickyOverrun := true })) ∧
    (s.host = .read 0#14 4 :: rest → step s = .next { s.beginStep with busRdata := 0#32 })

/-- A read of ID, CONFIG0, CONFIG1, STATUS, RESULT or an unmapped offset answers the constant, the
word, or 0, at any time and with no effect on the block (10_state.md R30, R32, R33, R34, R36;
70_reset_and_hazards.md R412). -/
def Obligations.RegisterReadsAnswer : Prop :=
  ∀ (s : State) (a : BitVec 14) (rest : List HostEvent), s.host = .read a 4 :: rest →
    (a = 0x0014#14 → step s = .next { s.beginStep with busRdata := 0x42510001#32 }) ∧
    (a = 0x000C#14 → step s = .next { s.beginStep with busRdata := 0x0A400800#32 }) ∧
    (a = 0x0010#14 → step s = .next { s.beginStep with busRdata := 0x00C105CC#32 }) ∧
    (a = 0x0004#14 → step s = .next { s.beginStep with busRdata := s.status }) ∧
    (a = 0x0008#14 → step s = .next { s.beginStep with busRdata := s.result }) ∧
    (a.toNat % 4 = 0 → 0x0018 ≤ a.toNat ∧ a.toNat ≤ 0x0FFC ∨ 0x3000 ≤ a.toNat →
      step s = .next { s.beginStep with busRdata := 0#32 })

/-- The fields of the STATUS word, its reserved bits 0, LAST_ERR never 3 (10_state.md R31). -/
def Obligations.StatusWordLayout : Prop :=
  ∀ s : State,
    s.status.getLsbD 0 = decide (s.fsm = .busy) ∧ s.status.getLsbD 1 = decide (s.fsm = .halted) ∧
    (s.status.extractLsb' 2 2).toNat = s.lastErr.code ∧
    (s.status.extractLsb' 4 4).toNat = s.lastCause.code ∧
    s.status.getLsbD 8 = s.stickyIllop ∧ s.status.getLsbD 9 = s.stickyOom ∧
    s.status.getLsbD 10 = s.stickyOverrun ∧ s.status.extractLsb' 11 21 = 0#21 ∧
    s.status.extractLsb' 2 2 ≠ 3#2

/-- A read of ARENA[k] while IDLE or HALTED answers the byte, zero-extended; while BUSY it answers a
draw, a fresh one for each read; a write is ignored (10_state.md R35; 70_reset_and_hazards.md R412;
the draw is a free value, log 3). -/
def Obligations.ArenaWindowReads : Prop :=
  ∀ (s : State) (k : Nat) (rest : List HostEvent), k < 2048 →
    (s.host = .read (BitVec.ofNat 14 (0x1000 + 4 * k)) 4 :: rest →
      (s.fsm ≠ .busy → step s = .next { s.beginStep with busRdata := (s.arena.read k).setWidth 32 }) ∧
      (s.fsm = .busy → step s = .next
        { s.beginStep with busRdata := Config.arenaDraw s.draws, draws := s.draws + 1 })) ∧
    ∀ w, s.host = .write (BitVec.ofNat 14 (0x1000 + 4 * k)) 4 w :: rest →
      step s = .next s.beginStep

/-- A write to any offset but CMD changes nothing: the read-only registers, the ARENA window and the
unmapped offsets ignore it (10_state.md R36). -/
def Obligations.OtherWritesAreIgnored : Prop :=
  ∀ (s : State) (a : BitVec 14) (w : Word) (rest : List HostEvent), a.toNat % 4 = 0 → a ≠ 0#14 →
    s.host = .write a 4 w :: rest → step s = .next s.beginStep

/-- A narrower, wider or misaligned access is refused (10_state.md R37). -/
def Obligations.OddAccessesAreRefused : Prop :=
  ∀ (s : State) (a : BitVec 14) (n : Nat) (w : Word) (rest : List HostEvent),
    n ≠ 4 ∨ a.toNat % 4 ≠ 0 → s.host = .write a n w :: rest ∨ s.host = .read a n :: rest →
    step s = .refused .busAccess

/-- A host access while BUSY leaves the running command alone: the FSM, CMDBUF, the arena, RESULT,
LAST_ERR and LAST_CAUSE keep their values, so they still describe the last completed command
(70_reset_and_hazards.md R410, R411). -/
def Obligations.AccessesWhileBusyKeepCommand : Prop :=
  ∀ s t : State, s.fsm = .busy → s.nextEvent ≠ .quiet → s.nextEvent ≠ .rst → step s = .next t →
    t.fsm = .busy ∧ t.cmdbuf = s.cmdbuf ∧ t.arena = s.arena ∧ t.result = s.result ∧
    t.lastErr = s.lastErr ∧ t.lastCause = s.lastCause ∧ t.hookLog = s.hookLog ∧
    t.stickyIllop = s.stickyIllop ∧ t.stickyOom = s.stickyOom

/-- The issue sequence from IDLE: the write is accepted, the command completes, STATUS is read with
BUSY 0, then RESULT is read (30_encoding.md R112; 20_memory.md R73). -/
def Obligations.IssueSequenceReadsOutcome : Prop :=
  ∀ (s : State) (w : Word) (rest : List HostEvent), s.fsm = .idle → s.host = issue w ++ rest →
    ∃ a, step s = .next a ∧ a.fsm = .busy ∧ a.cmdbuf = w ∧ a.arena = s.arena ∧
      ∀ b, step a = .next b → ∃ c d, step b = .next c ∧ step c = .next d ∧
        c.busRdata = b.status ∧ c.busRdata.getLsbD 0 = false ∧ d.busRdata = b.result ∧
        d.arena = b.arena ∧ d.fsm = .idle ∧ d.host = rest

/-! ### Steps and runs -/

/-- A BUSY machine with no host access runs the command that CMDBUF decodes to, on the state at the
start of the step; so does the state `withFetchWord` makes (10_state.md R38, 30_encoding.md R109; the
host's list of events is log 1). -/
def Obligations.StepRunsDecodedCommand : Prop :=
  (∀ (s : State) (i : Instr), s.fsm = .busy → s.nextEvent = .quiet → decode s.cmdbuf = .ok i →
    step s = exec i s.beginStep) ∧
  ∀ (s : State) (w : Nat) (i : Instr), w < 2 ^ 32 → decode (BitVec.ofNat 32 w) = .ok i →
    step (s.withFetchWord 32 w) = exec i { s with
      cmdbuf := BitVec.ofNat 32 w, fsm := .busy, hookIllop := false, hookOom := false }

/-- In a well-formed state every command answers a next state with the FSM IDLE: INTERNAL is
unreachable (43_engine.md R231; 70_reset_and_hazards.md R415). -/
def Obligations.WellFormedStatesComplete : Prop :=
  ∀ (s : State) (i : Instr), WF s.arena → ∃ t, exec i s = .next t ∧ t.fsm = .idle

/-- From a well-formed state whose host keeps to the block's contract every step is safe, and the
next state is again such a state (43_engine.md R231; 10_state.md R37). -/
def Obligations.ContractStepsAreSafe : Prop :=
  ∀ s : State, WF s.arena → hostInContract s →
    ∃ t, step s = .next t ∧ WF t.arena ∧ hostInContract t

/-! ### Invariants of every step -/

/-- Every step keeps WF (43_engine.md R231). -/
def Obligations.StepKeepsWellFormed : Prop :=
  ∀ s t : State, WF s.arena → step s = .next t → WF t.arena

/-- Every step keeps the canonical form of the arena, its addresses 0 .. 2047, and the pad bits at 0,
from any state (10_state.md R20, R25; 20_memory.md R62; the form is the model's, log 8). -/
def Obligations.StepKeepsArenaForm : Prop :=
  ∀ s t : State, s.arena.wf ∧ s.arena.inArena ∧ padsClear s.arena → step s = .next t →
    t.arena.wf ∧ t.arena.inArena ∧ padsClear t.arena

/-- Every step keeps STATUS consistent with itself and with the hook history, the hook outputs not
both high, and HALTED not entered (10_state.md R31, R38; 60_exceptions.md R301, R304, R305). -/
def Obligations.StepKeepsStatusConsistent : Prop :=
  ∀ s t : State, StatusConsistent s → step s = .next t → StatusConsistent t

/-- The reset state has the three invariants (70_reset_and_hazards.md R403; logs 1 and 7 for the
empty list of events). -/
def Obligations.ResetHasInvariants : Prop :=
  State.reset.arena.wf ∧ State.reset.arena.inArena ∧ padsClear State.reset.arena ∧
  StatusConsistent State.reset ∧ hostInContract State.reset

/-- The reference parameters give the derived ones and hold the constraints (00_scope.md R8, R9,
R10). -/
def Obligations.ReferenceParametersAreLegal : Prop :=
  Config.reference.legal ∧ Config.reference.monitorSegmentBytes = 193 ∧
  Config.reference.maxEntries = Config.maxEntries ∧ Config.reference.arenaBytes = Config.arenaBytes ∧
  Config.reference.maxQueues = Config.maxQueues ∧ 8 * Config.arenaBytes = Config.arenaBits ∧
  (Config.reference.arenaBytes - Config.reference.monitorSegmentBytes) * 8 % 10 = 0
end

