-- ==== Sys2Proof/Laws/Memory.lean ====
section
/-! SUPPORT. The laws of the arena's bytes: reading after writing, the canonical form, and equal
memories are equal data. -/

namespace Sys2Proof.Machine

@[simp] theorem Memory.read_nil (a : Nat) : Memory.read [] a = 0#8 := rfl

theorem Memory.read_cons (b : Nat) (x : Byte) (m : Memory) (a : Nat) :
    Memory.read ((b, x) :: m) a = if b = a then x else m.read a := rfl

/-- An address that no entry lists reads as 0x00. -/
theorem Memory.read_unlisted {m : Memory} {a : Nat} (h : ∀ c ∈ m, c.1 ≠ a) : m.read a = 0#8 := by
  induction m with
  | nil => rfl
  | cons c m ih =>
    obtain ⟨k, x⟩ := c
    have hc : k ≠ a := h (k, x) (by simp)
    have : Memory.read m a = 0#8 := ih (fun d hd => h d (by simp [hd]))
    simpa [Memory.read_cons, hc] using this

theorem Memory.erase_unlisted (m : Memory) (a : Nat) : ∀ c ∈ m.erase a, c.1 ≠ a := by
  intro c hc
  simpa using (List.mem_filter.mp hc).2

theorem Memory.read_erase (m : Memory) (a b : Nat) :
    (m.erase a).read b = if b = a then 0#8 else m.read b := by
  by_cases hba : b = a
  · subst hba
    simpa using Memory.read_unlisted (Memory.erase_unlisted m b)
  · simp only [hba, if_false]
    induction m with
    | nil => rfl
    | cons c m ih =>
      obtain ⟨k, x⟩ := c
      by_cases hk : k = a
      · have hkb : k ≠ b := fun h => hba (h.symm.trans hk)
        simpa [Memory.erase, hk, Memory.read_cons, Ne.symm hba] using ih
      · by_cases hkb : k = b
        · subst hkb; simp [Memory.erase, hk, Memory.read_cons]
        · simpa [Memory.erase, hk, Memory.read_cons, hkb] using ih

theorem Memory.read_insertSorted {m : Memory} {a : Nat} (h : ∀ c ∈ m, c.1 ≠ a) (v : Byte) (b : Nat) :
    (m.insertSorted a v).read b = if b = a then v else m.read b := by
  induction m with
  | nil => simp [Memory.insertSorted, Memory.read_cons, eq_comm]
  | cons c m ih =>
    obtain ⟨k, x⟩ := c
    have hk : k ≠ a := h (k, x) (by simp)
    have ih := ih (fun d hd => h d (by simp [hd]))
    by_cases hak : a < k
    · simp [Memory.insertSorted, hak, Memory.read_cons, eq_comm]
    · by_cases hkb : k = b
      · subst hkb; simp [Memory.insertSorted, hak, Memory.read_cons, hk]
      · simp [Memory.insertSorted, hak, Memory.read_cons, hkb, ih]

/-- Reading after a write: the written byte there, every other byte as before. -/
theorem Memory.read_write (m : Memory) (a : Nat) (v : Byte) (b : Nat) :
    (m.write a v).read b = if b = a then v else m.read b := by
  unfold Memory.write
  split
  · next h => subst h; exact Memory.read_erase m a b
  · rw [Memory.read_insertSorted (Memory.erase_unlisted m a), Memory.read_erase]
    split <;> rfl

@[simp] theorem Memory.read_write_same (m : Memory) (a : Nat) (v : Byte) :
    (m.write a v).read a = v := by simp [Memory.read_write]

@[simp] theorem Memory.read_write_ne (m : Memory) {a b : Nat} (v : Byte) (h : b ≠ a) :
    (m.write a v).read b = m.read b := by simp [Memory.read_write, h]

theorem Memory.mem_insertSorted {m : Memory} {a : Nat} {v : Byte} {c : Host.Cell}
    (h : c ∈ m.insertSorted a v) : c = (a, v) ∨ c ∈ m := by
  induction m with
  | nil => simpa [Memory.insertSorted] using h
  | cons d m ih =>
    obtain ⟨k, x⟩ := d
    by_cases hak : a < k
    · simpa [Memory.insertSorted, hak] using h
    · simp only [Memory.insertSorted, hak, if_false, List.mem_cons] at h
      rcases h with h | h
      · exact .inr (by simp [h])
      · rcases ih h with h | h <;> simp [h]

theorem Memory.wf_erase {m : Memory} (h : m.wf) (a : Nat) : (m.erase a).wf :=
  ⟨h.1.filter _, fun c hc => h.2 c (List.mem_of_mem_filter hc)⟩

theorem Memory.wf_insertSorted {m : Memory} {a : Nat} {v : Byte} (h : m.wf)
    (hne : ∀ c ∈ m, c.1 ≠ a) (hv : v ≠ 0#8) : (m.insertSorted a v).wf := by
  refine ⟨?_, ?_⟩
  · have hp := h.1
    clear h
    induction m with
    | nil => simp [Memory.insertSorted]
    | cons c m ih =>
      obtain ⟨k, x⟩ := c
      have hk : k ≠ a := hne (k, x) (by simp)
      obtain ⟨hkm, hm⟩ := List.pairwise_cons.mp hp
      by_cases hak : a < k
      · simp only [Memory.insertSorted, hak, if_true]
        refine List.pairwise_cons.mpr ⟨?_, hp⟩
        intro d hd
        rcases List.mem_cons.mp hd with rfl | hd
        · exact hak
        · exact lt_trans hak (hkm d hd)
      · simp only [Memory.insertSorted, hak, if_false]
        refine List.pairwise_cons.mpr ⟨?_, ih (fun d hd => hne d (by simp [hd])) hm⟩
        intro d hd
        rcases Memory.mem_insertSorted hd with rfl | hd
        · show k < a; omega
        · exact hkm d hd
  · intro c hc
    rcases Memory.mem_insertSorted hc with rfl | hc
    · exact hv
    · exact h.2 c hc

/-- A write keeps the canonical form. -/
theorem Memory.wf_write {m : Memory} (h : m.wf) (a : Nat) (v : Byte) : (m.write a v).wf := by
  unfold Memory.write
  split
  · exact Memory.wf_erase h a
  · next hv => exact Memory.wf_insertSorted (Memory.wf_erase h a) (Memory.erase_unlisted m a) hv

/-- A write of a byte of the arena keeps every listed address in the arena. -/
theorem Memory.inArena_write {m : Memory} (h : m.inArena) {a : Nat} (ha : a < 2048) (v : Byte) :
    (m.write a v).inArena := by
  have he : (m.erase a).inArena := fun c hc => h c (List.mem_of_mem_filter hc)
  unfold Memory.write
  split
  · exact he
  · intro c hc
    rcases Memory.mem_insertSorted hc with rfl | hc
    · exact ha
    · exact he c hc

theorem Memory.read_head {k : Nat} {x : Byte} {m : Memory} : Memory.read ((k, x) :: m) k = x := by
  simp [Memory.read_cons]

/-- Two memories in canonical form that read the same are the same data. -/
theorem Memory.eq_of_read_eq : ∀ {m n : Memory}, m.wf → n.wf → (∀ a, m.read a = n.read a) → m = n
  | [], [], _, _, _ => rfl
  | [], (k, x) :: n, _, hn, h => by
    have := h k
    rw [Memory.read_head] at this
    exact absurd this.symm (hn.2 (k, x) (by simp))
  | (k, x) :: m, [], hm, _, h => by
    have := h k
    rw [Memory.read_head] at this
    exact absurd this (hm.2 (k, x) (by simp))
  | (k, x) :: m, (l, y) :: n, hm, hn, h => by
    obtain ⟨hkm, hm1⟩ := List.pairwise_cons.mp hm.1
    obtain ⟨hln, hn1⟩ := List.pairwise_cons.mp hn.1
    have hmu : ∀ a ≤ k, Memory.read m a = 0#8 := fun a ha =>
      Memory.read_unlisted (fun c hc => (lt_of_le_of_lt ha (hkm c hc)).ne')
    have hnu : ∀ a ≤ l, Memory.read n a = 0#8 := fun a ha =>
      Memory.read_unlisted (fun c hc => (lt_of_le_of_lt ha (hln c hc)).ne')
    have hx : x ≠ 0#8 := hm.2 (k, x) (by simp)
    have hy : y ≠ 0#8 := hn.2 (l, y) (by simp)
    have hkl : k = l := by
      rcases lt_trichotomy k l with hlt | heq | hgt
      · have := h k
        rw [Memory.read_head, Memory.read_cons, if_neg (by omega), hnu k (by omega)] at this
        exact absurd this hx
      · exact heq
      · have := h l
        rw [Memory.read_head, Memory.read_cons, if_neg (by omega), hmu l (by omega)] at this
        exact absurd this.symm hy
    subst hkl
    have hxy : x = y := by simpa [Memory.read_cons] using h k
    subst hxy
    have hmn : m = n := by
      refine Memory.eq_of_read_eq ⟨hm1, fun c hc => hm.2 c (by simp [hc])⟩
        ⟨hn1, fun c hc => hn.2 c (by simp [hc])⟩ (fun a => ?_)
      by_cases hka : k = a
      · subst hka; rw [hmu k le_rfl, hnu k le_rfl]
      · simpa [Memory.read_cons, hka] using h a
    rw [hmn]

end Sys2Proof.Machine
end

