-- ==== Sys2Proof/Laws/Codec.lean ====
section
/-! SUPPORT. The laws of the Bit Field Codec: bits after a write, a field's value by its bits, and
the two codec operations said once (40_codec.md R130 to R135). -/

namespace Sys2Proof.Machine

/-! ### Single bits -/

theorem byteWithBit_getLsbD (x : Byte) {p : Nat} (hp : p < 8) (b : Bool) (i : Nat) :
    (byteWithBit x p b).getLsbD i = if i = p then b else x.getLsbD i := by
  unfold byteWithBit
  by_cases hi : i < 8
  · by_cases hip : i = p
    · subst hip; cases b <;> simp [hi]
    · have h1 : ¬ (i - p = 0 ∧ p ≤ i) := by omega
      cases b
      · simp only [Bool.false_eq_true, if_false, hip, BitVec.getLsbD_and, BitVec.getLsbD_not, hi,
          decide_true, Bool.true_and, BitVec.getLsbD_shiftLeft, BitVec.getLsbD_one]
        by_cases hlt : i < p
        · simp [hlt]
        · have : i - p ≠ 0 := by omega
          simp [this]
      · simp only [if_true, hip, if_false, BitVec.getLsbD_or, BitVec.getLsbD_shiftLeft, hi,
          BitVec.getLsbD_one]
        by_cases hlt : i < p
        · simp [hlt]
        · have : i - p ≠ 0 := by omega
          simp [this]
  · have h2 : i ≠ p := by omega
    rw [if_neg h2, BitVec.getLsbD_of_ge _ _ (by omega), BitVec.getLsbD_of_ge _ _ (by omega)]

/-- The bits of an arena after one bit is set. -/
theorem bit_setBit (m : Memory) (k : Nat) (b : Bool) (j : Nat) :
    (m.setBit k b).bit j = if j = k then b else m.bit j := by
  unfold Memory.setBit Memory.bit
  by_cases hb : j / 8 = k / 8
  · rw [hb, Memory.read_write_same, byteWithBit_getLsbD _ (by omega)]
    by_cases hj : j = k
    · simp [hj]
    · have : 7 - j % 8 ≠ 7 - k % 8 := by omega
      simp [hj, this]
  · have hj : j ≠ k := fun h => hb (by rw [h])
    rw [Memory.read_write_ne _ _ hb, if_neg hj]

theorem read_setBit_ne (m : Memory) {k a : Nat} (b : Bool) (h : a ≠ k / 8) :
    (m.setBit k b).read a = m.read a := Memory.read_write_ne m _ h

theorem wf_setBit {m : Memory} (h : m.wf) (k : Nat) (b : Bool) : (m.setBit k b).wf :=
  Memory.wf_write h _ _

theorem inArena_setBit {m : Memory} (h : m.inArena) {k : Nat} (hk : k < 16384) (b : Bool) :
    (m.setBit k b).inArena := Memory.inArena_write h (by omega) _

/-- Two arenas with the same bits have the same bytes. -/
theorem read_eq_of_bit_eq {m n : Memory} {a : Nat} (h : ∀ j < 8, m.bit (8 * a + j) = n.bit (8 * a + j)) :
    m.read a = n.read a := by
  apply BitVec.eq_of_getLsbD_eq
  intro i hi
  have := h (7 - i) (by omega)
  simpa [Memory.bit, Nat.mul_add_div, show (7 - i) / 8 = 0 by omega, Nat.mul_add_mod,
    show (7 - i) % 8 = 7 - i by omega, show 7 - (7 - i) = i by omega] using this

/-! ### Fields -/

@[simp] theorem bits_zero (m : Memory) (o : Nat) : m.bits o 0 = 0 := rfl

theorem bits_succ (m : Memory) (o w : Nat) :
    m.bits o (w + 1) = 2 * m.bits o w + (m.bit (o + w)).toNat := rfl

theorem bits_lt (m : Memory) (o w : Nat) : m.bits o w < 2 ^ w := by
  induction w with
  | zero => simp
  | succ w ih =>
    have : (m.bit (o + w)).toNat ≤ 1 := Bool.toNat_le _
    rw [bits_succ, pow_succ]; omega

/-- A one-bit field is its bit. -/
theorem bits_one (m : Memory) (o : Nat) : m.bits o 1 = (m.bit o).toNat := by
  simp [bits_succ]

theorem bits_one_eq_one (m : Memory) (o : Nat) : (m.bits o 1 = 1) ↔ m.bit o = true := by
  rw [bits_one]; cases m.bit o <;> simp

theorem bits_congr {m n : Memory} {o w : Nat} (h : ∀ k, o ≤ k → k < o + w → m.bit k = n.bit k) :
    m.bits o w = n.bits o w := by
  induction w with
  | zero => rfl
  | succ w ih =>
    rw [bits_succ, bits_succ, ih (fun k h1 h2 => h k h1 (by omega)), h (o + w) (by omega) (by omega)]

/-- A field of `a + b` bits is the concatenation of its two parts (40_codec.md R135 (e)). -/
theorem bits_add (m : Memory) (o a b : Nat) :
    m.bits o (a + b) = m.bits o a * 2 ^ b + m.bits (o + a) b := by
  induction b with
  | zero => simp
  | succ b ih =>
    rw [← Nat.add_assoc, bits_succ, bits_succ, ih, pow_succ, Nat.add_assoc o a b]; ring

/-- The bits of a field's value (20_memory.md R65). -/
theorem testBit_bits (m : Memory) (o : Nat) :
    ∀ w i, (m.bits o w).testBit i = (decide (i < w) && m.bit (o + w - 1 - i))
  | 0, i => by simp
  | w + 1, 0 => by
    have : (2 * m.bits o w + (m.bit (o + w)).toNat) % 2 = (m.bit (o + w)).toNat := by
      have : (m.bit (o + w)).toNat ≤ 1 := Bool.toNat_le _
      omega
    rw [Nat.testBit_zero, bits_succ, this]
    cases h : m.bit (o + w) <;> simp [h]
  | w + 1, i + 1 => by
    have hd : (2 * m.bits o w + (m.bit (o + w)).toNat) / 2 = m.bits o w := by
      have : (m.bit (o + w)).toNat ≤ 1 := Bool.toNat_le _
      omega
    rw [Nat.testBit_succ, bits_succ, hd, testBit_bits m o w i]
    congr 1
    · simp
    · congr 1; omega

/-- The bits of an arena after a field is written (40_codec.md R131, R133). -/
theorem bit_putBits (m : Memory) (o : Nat) :
    ∀ w v k, (m.putBits o w v).bit k =
      if o ≤ k ∧ k < o + w then v.testBit (o + w - 1 - k) else m.bit k
  | 0, v, k => by
    have : ¬ (o ≤ k ∧ k < o + 0) := by omega
    rw [if_neg this]; rfl
  | w + 1, v, k => by
    show ((m.putBits o w (v / 2)).setBit (o + w) (decide (v % 2 = 1))).bit k = _
    rw [bit_setBit, bit_putBits m o w (v / 2) k]
    by_cases hk : k = o + w
    · have h0 : o + (w + 1) - 1 - k = 0 := by omega
      have h1 : o ≤ k ∧ k < o + (w + 1) := by omega
      rw [if_pos hk, if_pos h1, h0, Nat.testBit_zero]
    · rw [if_neg hk]
      by_cases hin : o ≤ k ∧ k < o + w
      · have h1 : o ≤ k ∧ k < o + (w + 1) := by omega
        have h2 : o + (w + 1) - 1 - k = o + w - 1 - k + 1 := by omega
        rw [if_pos hin, if_pos h1, h2, Nat.testBit_succ]
      · have h1 : ¬ (o ≤ k ∧ k < o + (w + 1)) := by omega
        rw [if_neg hin, if_neg h1]

theorem bit_putBits_outside (m : Memory) {o w : Nat} (v : Nat) {k : Nat} (h : k < o ∨ o + w ≤ k) :
    (m.putBits o w v).bit k = m.bit k := by
  rw [bit_putBits, if_neg (by omega)]

theorem bit_putBits_one (m : Memory) (o : Nat) (b : Bool) (k : Nat) :
    (m.putBits o 1 b.toNat).bit k = if k = o then b else m.bit k := by
  rw [bit_putBits]
  by_cases h : k = o
  · subst h
    have : k + 1 - 1 - k = 0 := by omega
    cases b <;> simp 
  · rw [if_neg (by omega), if_neg h]

/-- A field read after it is written (40_codec.md R135 (a)). -/
theorem bits_putBits_same (m : Memory) (o w v : Nat) : (m.putBits o w v).bits o w = v % 2 ^ w := by
  apply Nat.eq_of_testBit_eq
  intro i
  rw [testBit_bits, Nat.testBit_mod_two_pow]
  by_cases hi : i < w
  · have h1 : o ≤ o + w - 1 - i ∧ o + w - 1 - i < o + w := by omega
    have h2 : o + w - 1 - (o + w - 1 - i) = i := by omega
    rw [bit_putBits, if_pos h1, h2]
  · simp [hi]

/-- A field that is disjoint from the written one (40_codec.md R135 (b)). -/
theorem bits_putBits_disjoint (m : Memory) {o w o' w' : Nat} (v : Nat)
    (h : o' + w' ≤ o ∨ o + w ≤ o') : (m.putBits o w v).bits o' w' = m.bits o' w' :=
  bits_congr (fun k h1 h2 => bit_putBits_outside m v (by omega))

/-- A field inside the written one. -/
theorem bits_putBits_inside (m : Memory) {o w a b : Nat} (v : Nat) (h : a + b ≤ w) :
    (m.putBits o w v).bits (o + a) b = v / 2 ^ (w - a - b) % 2 ^ b := by
  apply Nat.eq_of_testBit_eq
  intro i
  rw [testBit_bits, Nat.testBit_mod_two_pow, Nat.testBit_div_two_pow]
  by_cases hi : i < b
  · have h1 : o ≤ o + a + b - 1 - i ∧ o + a + b - 1 - i < o + w := by omega
    have h2 : o + w - 1 - (o + a + b - 1 - i) = i + (w - a - b) := by omega
    rw [bit_putBits, if_pos h1, h2]
  · simp [hi]

theorem read_putBits_outside (m : Memory) (o : Nat) :
    ∀ w v a, (∀ k, o ≤ k → k < o + w → k / 8 ≠ a) → (m.putBits o w v).read a = m.read a
  | 0, _, _, _ => rfl
  | w + 1, v, a, h => by
    show ((m.putBits o w (v / 2)).setBit (o + w) (decide (v % 2 = 1))).read a = _
    rw [read_setBit_ne _ _ (Ne.symm (h (o + w) (by omega) (by omega))),
      read_putBits_outside m o w (v / 2) a (fun k h1 h2 => h k h1 (by omega))]

theorem wf_putBits {m : Memory} (h : m.wf) (o : Nat) : ∀ w v, (m.putBits o w v).wf
  | 0, _ => h
  | w + 1, v => wf_setBit (wf_putBits h o w (v / 2)) _ _

theorem inArena_putBits {m : Memory} (h : m.inArena) {o : Nat} :
    ∀ w v, o + w ≤ 16384 → (m.putBits o w v).inArena
  | 0, _, _ => h
  | w + 1, v, hw => inArena_setBit (inArena_putBits h w (v / 2) (by omega)) (by omega) _

/-! ### The two codec operations, said once -/

theorem inDomain_iff (o w : Nat) : inDomain o w = true ↔ 1 ≤ w ∧ w ≤ 24 ∧ o + w ≤ 16384 := by
  simp [inDomain, and_assoc]

theorem fieldRead_in {m : Memory} {o w : Nat} (h1 : 1 ≤ w) (h2 : w ≤ 24) (h3 : o + w ≤ 16384) :
    fieldRead m o w = .ok (m.bits o w) := by
  simp [fieldRead, (inDomain_iff o w).mpr ⟨h1, h2, h3⟩]

theorem fieldWrite_in {m : Memory} {o w : Nat} (v : Nat) (h1 : 1 ≤ w) (h2 : w ≤ 24)
    (h3 : o + w ≤ 16384) : fieldWrite m o w v = .ok (m.putBits o w v) := by
  simp [fieldWrite, (inDomain_iff o w).mpr ⟨h1, h2, h3⟩]

/-- All a codec read can do. -/
theorem fieldRead_cases (m : Memory) (o w : Nat) :
    (inDomain o w = true ∧ fieldRead m o w = .ok (m.bits o w)) ∨
    (inDomain o w = false ∧ fieldRead m o w = .error .internal) := by
  unfold fieldRead; split <;> simp_all

/-- All a codec write can do. -/
theorem fieldWrite_cases (m : Memory) (o w v : Nat) :
    (inDomain o w = true ∧ fieldWrite m o w v = .ok (m.putBits o w v)) ∨
    (inDomain o w = false ∧ fieldWrite m o w v = .error .internal) := by
  unfold fieldWrite; split <;> simp_all

/-! ### Engine computations -/

@[simp] theorem Engine_ok_bind {α β : Type} (a : α) (f : α → Engine β) :
    ((.ok a : Engine α) >>= f) = f a := rfl

@[simp] theorem Engine_error_bind {α β : Type} (e : Stop) (f : α → Engine β) :
    ((.error e : Engine α) >>= f) = .error e := rfl

@[simp] theorem Engine_pure {α : Type} (a : α) : (pure a : Engine α) = .ok a := rfl

/-- A sequence that answers: its first part answered, and so did the rest. -/
theorem Engine_bind_ok {α β : Type} {x : Engine α} {f : α → Engine β} {b : β}
    (h : (x >>= f) = .ok b) : ∃ a, x = .ok a ∧ f a = .ok b := by
  match x with
  | .ok a => exact ⟨a, rfl, h⟩
  | .error e => simp at h

end Sys2Proof.Machine
end

