-- ==== Sys2Proof/Laws/Records.lean ====
section
/-! SUPPORT. The records: the seven field writes as total functions on an arena, every record field
after each of them, and each header and entry operation said once (41_header_table.md,
42_entry_store.md). -/

namespace Sys2Proof.Machine

/-! ### The field writes -/

/-- The arena with COUNT written. -/
def Memory.withCount (m : Memory) (n : Nat) : Memory := m.putBits 0 8 n
/-- The arena with `H(q).valid` written. -/
def Memory.withValid (m : Memory) (q : Nat) (b : Bool) : Memory := m.putBits (8 + 24 * q) 1 b.toNat
/-- The arena with `H(q).base` written. -/
def Memory.withBase (m : Memory) (q b : Nat) : Memory := m.putBits (9 + 24 * q) 11 b
/-- The arena with `H(q).length` written. -/
def Memory.withLength (m : Memory) (q n : Nat) : Memory := m.putBits (20 + 24 * q) 11 n
/-- The arena with the whole entry `s` written. -/
def Memory.withEntry (m : Memory) (s : Nat) (e : Entry) : Memory := m.putBits (1544 + 10 * s) 10 e.pack
/-- The arena with `E(s).valid` written. -/
def Memory.withEntryValid (m : Memory) (s : Nat) (b : Bool) : Memory := m.putBits (1545 + 10 * s) 1 b.toNat
/-- The arena with `E(s).qb` written. -/
def Memory.withEntryBase (m : Memory) (s : Nat) (b : Bool) : Memory := m.putBits (1544 + 10 * s) 1 b.toNat

/-! ### Entries as ten bits -/

theorem Entry.pack_lt (e : Entry) : e.pack < 1024 := by
  have h1 : e.qb.toNat ≤ 1 := Bool.toNat_le _
  have h2 : e.valid.toNat ≤ 1 := Bool.toNat_le _
  have h3 := e.value.isLt
  unfold Entry.pack; omega

theorem Entry.pack_testBit_9 (e : Entry) : e.pack.testBit 9 = e.qb := by
  have h3 := e.value.isLt
  rw [Nat.testBit_eq_decide_div_mod_eq]
  obtain ⟨a, b, v⟩ := e
  cases a <;> cases b <;> simp [Entry.pack] at * <;> omega

theorem Entry.pack_testBit_8 (e : Entry) : e.pack.testBit 8 = e.valid := by
  have h3 := e.value.isLt
  rw [Nat.testBit_eq_decide_div_mod_eq]
  obtain ⟨a, b, v⟩ := e
  cases a <;> cases b <;> simp [Entry.pack] at * <;> omega

theorem Entry.pack_mod (e : Entry) : e.pack % 256 = e.value.toNat := by
  have h3 := e.value.isLt
  unfold Entry.pack; omega

@[simp] theorem Entry.unpack_pack (e : Entry) : Entry.unpack e.pack = e := by
  obtain ⟨a, b, v⟩ := e
  simp only [Entry.unpack, Entry.mk.injEq]
  refine ⟨Entry.pack_testBit_9 _, Entry.pack_testBit_8 _, ?_⟩
  apply BitVec.eq_of_toNat_eq
  simpa using Entry.pack_mod ⟨a, b, v⟩

/-- The whole entry read as ten bits is its three fields (42_entry_store.md R172). -/
theorem unpack_bits (m : Memory) (s : Nat) : Entry.unpack (m.bits (1544 + 10 * s) 10) = entryAt m s := by
  simp only [Entry.unpack, entryAt, Entry.mk.injEq]
  refine ⟨?_, ?_, ?_⟩
  · simp [testBit_bits, eQb]
  · simp [testBit_bits, eValid, show 1544 + 10 * s + 1 = 1545 + 10 * s by omega]
  · have h := bits_add m (1544 + 10 * s) 2 8
    simp only [show 2 + 8 = 10 from rfl, show 1544 + 10 * s + 2 = 1546 + 10 * s by omega] at h
    apply BitVec.eq_of_toNat_eq
    have hl := bits_lt m (1546 + 10 * s) 8
    simp only [eValue, BitVec.toNat_ofNat]
    omega

@[simp] theorem entryAt_qb (m : Memory) (s : Nat) : (entryAt m s).qb = eQb m s := rfl
@[simp] theorem entryAt_valid (m : Memory) (s : Nat) : (entryAt m s).valid = eValid m s := rfl
@[simp] theorem entryAt_value (m : Memory) (s : Nat) : (entryAt m s).value = eValue m s := rfl

theorem hBase_lt (m : Memory) (q : Nat) : hBase m q < 2048 := bits_lt m _ 11
theorem hLength_lt (m : Memory) (q : Nat) : hLength m q < 2048 := bits_lt m _ 11
theorem countOf_lt (m : Memory) : countOf m < 256 := bits_lt m _ 8

/-! ### Every field after each write -/

/-! `withCount` -/

@[simp] theorem countOf_withCount (m : Memory) (n : Nat) : countOf (m.withCount n) = n % 256 := bits_putBits_same m 0 8 n
@[simp] theorem hValid_withCount (m : Memory) (n : Nat) (p : Nat) :
    hValid (m.withCount n) p = hValid m p := bit_putBits_outside m _ (by omega)
@[simp] theorem hBase_withCount (m : Memory) (n : Nat) (p : Nat) :
    hBase (m.withCount n) p = hBase m p := bits_putBits_disjoint m _ (by omega)
@[simp] theorem hLength_withCount (m : Memory) (n : Nat) (p : Nat) :
    hLength (m.withCount n) p = hLength m p := bits_putBits_disjoint m _ (by omega)
@[simp] theorem hPad_withCount (m : Memory) (n : Nat) (p : Nat) :
    hPad (m.withCount n) p = hPad m p := bit_putBits_outside m _ (by omega)
@[simp] theorem eQb_withCount (m : Memory) (n : Nat) (x : Nat) :
    eQb (m.withCount n) x = eQb m x := bit_putBits_outside m _ (by omega)
@[simp] theorem eValid_withCount (m : Memory) (n : Nat) (x : Nat) :
    eValid (m.withCount n) x = eValid m x := bit_putBits_outside m _ (by omega)
@[simp] theorem eValue_withCount (m : Memory) (n : Nat) (x : Nat) :
    eValue (m.withCount n) x = eValue m x := congrArg (BitVec.ofNat 8) (bits_putBits_disjoint m _ (by omega))
@[simp] theorem entryAt_withCount (m : Memory) (n : Nat) (x : Nat) :
    entryAt (m.withCount n) x = entryAt m x := by simp [entryAt]

/-! `withValid` -/

@[simp] theorem countOf_withValid (m : Memory) (q : Nat) (b : Bool) :
    countOf (m.withValid q b) = countOf m := bits_putBits_disjoint m _ (by omega)
theorem hValid_withValid (m : Memory) (q : Nat) (b : Bool) (p : Nat) :
    hValid (m.withValid q b) p = if p = q then b else hValid m p := by
  rw [hValid, Memory.withValid, bit_putBits_one]
  exact if_congr (by omega) rfl rfl
@[simp] theorem hBase_withValid (m : Memory) (q : Nat) (b : Bool) (p : Nat) :
    hBase (m.withValid q b) p = hBase m p := bits_putBits_disjoint m _ (by omega)
@[simp] theorem hLength_withValid (m : Memory) (q : Nat) (b : Bool) (p : Nat) :
    hLength (m.withValid q b) p = hLength m p := bits_putBits_disjoint m _ (by omega)
@[simp] theorem hPad_withValid (m : Memory) (q : Nat) (b : Bool) (p : Nat) :
    hPad (m.withValid q b) p = hPad m p := bit_putBits_outside m _ (by omega)
@[simp] theorem eQb_withValid (m : Memory) {q : Nat} (b : Bool) (hq : q < 64) (x : Nat) :
    eQb (m.withValid q b) x = eQb m x := bit_putBits_outside m _ (by omega)
@[simp] theorem eValid_withValid (m : Memory) (q : Nat) (b : Bool) (x : Nat) :
    eValid (m.withValid q b) x = eValid m x := bit_putBits_outside m _ (by omega)
@[simp] theorem eValue_withValid (m : Memory) {q : Nat} (b : Bool) (hq : q < 64) (x : Nat) :
    eValue (m.withValid q b) x = eValue m x := congrArg (BitVec.ofNat 8) (bits_putBits_disjoint m _ (by omega))
@[simp] theorem entryAt_withValid (m : Memory) {q : Nat} (b : Bool) (hq : q < 64) (x : Nat) :
    entryAt (m.withValid q b) x = entryAt m x := by simp [entryAt, hq]

/-! `withBase` -/

@[simp] theorem countOf_withBase (m : Memory) (q : Nat) (b : Nat) :
    countOf (m.withBase q b) = countOf m := bits_putBits_disjoint m _ (by omega)
@[simp] theorem hValid_withBase (m : Memory) (q : Nat) (b : Nat) (p : Nat) :
    hValid (m.withBase q b) p = hValid m p := bit_putBits_outside m _ (by omega)
theorem hBase_withBase (m : Memory) (q : Nat) (b : Nat) (p : Nat) :
    hBase (m.withBase q b) p = if p = q then b % 2048 else hBase m p := by
  by_cases h : p = q
  · subst h; rw [if_pos rfl]; exact bits_putBits_same m _ 11 _
  · rw [if_neg h]; exact bits_putBits_disjoint m _ (by omega)
@[simp] theorem hLength_withBase (m : Memory) (q : Nat) (b : Nat) (p : Nat) :
    hLength (m.withBase q b) p = hLength m p := bits_putBits_disjoint m _ (by omega)
@[simp] theorem hPad_withBase (m : Memory) (q : Nat) (b : Nat) (p : Nat) :
    hPad (m.withBase q b) p = hPad m p := bit_putBits_outside m _ (by omega)
@[simp] theorem eQb_withBase (m : Memory) {q : Nat} (b : Nat) (hq : q < 64) (x : Nat) :
    eQb (m.withBase q b) x = eQb m x := bit_putBits_outside m _ (by omega)
@[simp] theorem eValid_withBase (m : Memory) {q : Nat} (b : Nat) (hq : q < 64) (x : Nat) :
    eValid (m.withBase q b) x = eValid m x := bit_putBits_outside m _ (by omega)
@[simp] theorem eValue_withBase (m : Memory) {q : Nat} (b : Nat) (hq : q < 64) (x : Nat) :
    eValue (m.withBase q b) x = eValue m x := congrArg (BitVec.ofNat 8) (bits_putBits_disjoint m _ (by omega))
@[simp] theorem entryAt_withBase (m : Memory) {q : Nat} (b : Nat) (hq : q < 64) (x : Nat) :
    entryAt (m.withBase q b) x = entryAt m x := by simp [entryAt, hq]

/-! `withLength` -/

@[simp] theorem countOf_withLength (m : Memory) (q : Nat) (n : Nat) :
    countOf (m.withLength q n) = countOf m := bits_putBits_disjoint m _ (by omega)
@[simp] theorem hValid_withLength (m : Memory) (q : Nat) (n : Nat) (p : Nat) :
    hValid (m.withLength q n) p = hValid m p := bit_putBits_outside m _ (by omega)
@[simp] theorem hBase_withLength (m : Memory) (q : Nat) (n : Nat) (p : Nat) :
    hBase (m.withLength q n) p = hBase m p := bits_putBits_disjoint m _ (by omega)
theorem hLength_withLength (m : Memory) (q : Nat) (n : Nat) (p : Nat) :
    hLength (m.withLength q n) p = if p = q then n % 2048 else hLength m p := by
  by_cases h : p = q
  · subst h; rw [if_pos rfl]; exact bits_putBits_same m _ 11 _
  · rw [if_neg h]; exact bits_putBits_disjoint m _ (by omega)
@[simp] theorem hPad_withLength (m : Memory) (q : Nat) (n : Nat) (p : Nat) :
    hPad (m.withLength q n) p = hPad m p := bit_putBits_outside m _ (by omega)
@[simp] theorem eQb_withLength (m : Memory) {q : Nat} (n : Nat) (hq : q < 64) (x : Nat) :
    eQb (m.withLength q n) x = eQb m x := bit_putBits_outside m _ (by omega)
@[simp] theorem eValid_withLength (m : Memory) {q : Nat} (n : Nat) (hq : q < 64) (x : Nat) :
    eValid (m.withLength q n) x = eValid m x := bit_putBits_outside m _ (by omega)
@[simp] theorem eValue_withLength (m : Memory) {q : Nat} (n : Nat) (hq : q < 64) (x : Nat) :
    eValue (m.withLength q n) x = eValue m x := congrArg (BitVec.ofNat 8) (bits_putBits_disjoint m _ (by omega))
@[simp] theorem entryAt_withLength (m : Memory) {q : Nat} (n : Nat) (hq : q < 64) (x : Nat) :
    entryAt (m.withLength q n) x = entryAt m x := by simp [entryAt, hq]

/-! `withEntry` -/

@[simp] theorem countOf_withEntry (m : Memory) (s : Nat) (e : Entry) :
    countOf (m.withEntry s e) = countOf m := bits_putBits_disjoint m _ (by omega)
@[simp] theorem hValid_withEntry (m : Memory) (s : Nat) (e : Entry) {p : Nat} (hp : p < 64) :
    hValid (m.withEntry s e) p = hValid m p := bit_putBits_outside m _ (by omega)
@[simp] theorem hBase_withEntry (m : Memory) (s : Nat) (e : Entry) {p : Nat} (hp : p < 64) :
    hBase (m.withEntry s e) p = hBase m p := bits_putBits_disjoint m _ (by omega)
@[simp] theorem hLength_withEntry (m : Memory) (s : Nat) (e : Entry) {p : Nat} (hp : p < 64) :
    hLength (m.withEntry s e) p = hLength m p := bits_putBits_disjoint m _ (by omega)
@[simp] theorem hPad_withEntry (m : Memory) (s : Nat) (e : Entry) {p : Nat} (hp : p < 64) :
    hPad (m.withEntry s e) p = hPad m p := bit_putBits_outside m _ (by omega)
theorem eQb_withEntry (m : Memory) (s : Nat) (e : Entry) (x : Nat) :
    eQb (m.withEntry s e) x = if x = s then e.qb else eQb m x := by
  by_cases h : x = s
  · subst h
    rw [if_pos rfl, eQb, Memory.withEntry, bit_putBits, if_pos (by omega),
      show 1544 + 10 * x + 10 - 1 - (1544 + 10 * x) = 9 by omega]
    exact Entry.pack_testBit_9 e
  · rw [if_neg h]; exact bit_putBits_outside m _ (by omega)
theorem eValid_withEntry (m : Memory) (s : Nat) (e : Entry) (x : Nat) :
    eValid (m.withEntry s e) x = if x = s then e.valid else eValid m x := by
  by_cases h : x = s
  · subst h
    rw [if_pos rfl, eValid, Memory.withEntry, bit_putBits, if_pos (by omega),
      show 1544 + 10 * x + 10 - 1 - (1545 + 10 * x) = 8 by omega]
    exact Entry.pack_testBit_8 e
  · rw [if_neg h]; exact bit_putBits_outside m _ (by omega)
theorem eValue_withEntry (m : Memory) (s : Nat) (e : Entry) (x : Nat) :
    eValue (m.withEntry s e) x = if x = s then e.value else eValue m x := by
  by_cases h : x = s
  · subst h
    rw [if_pos rfl]
    apply BitVec.eq_of_toNat_eq
    have h1 := bits_putBits_inside m (o := 1544 + 10 * x) (w := 10) (a := 2) (b := 8) e.pack (by omega)
    rw [show 1544 + 10 * x + 2 = 1546 + 10 * x by omega] at h1
    have h2 := Entry.pack_mod e
    simp only [eValue, Memory.withEntry, h1, BitVec.toNat_ofNat]
    omega
  · rw [if_neg h]; exact congrArg (BitVec.ofNat 8) (bits_putBits_disjoint m _ (by omega))
theorem entryAt_withEntry (m : Memory) (s : Nat) (e : Entry) (x : Nat) :
    entryAt (m.withEntry s e) x = if x = s then e else entryAt m x := by
  by_cases h : x = s <;> simp [entryAt, h, eQb_withEntry, eValid_withEntry, eValue_withEntry]

/-! `withEntryValid` -/

@[simp] theorem countOf_withEntryValid (m : Memory) (s : Nat) (b : Bool) :
    countOf (m.withEntryValid s b) = countOf m := bits_putBits_disjoint m _ (by omega)
@[simp] theorem hValid_withEntryValid (m : Memory) (s : Nat) (b : Bool) (p : Nat) :
    hValid (m.withEntryValid s b) p = hValid m p := bit_putBits_outside m _ (by omega)
@[simp] theorem hBase_withEntryValid (m : Memory) (s : Nat) (b : Bool) {p : Nat} (hp : p < 64) :
    hBase (m.withEntryValid s b) p = hBase m p := bits_putBits_disjoint m _ (by omega)
@[simp] theorem hLength_withEntryValid (m : Memory) (s : Nat) (b : Bool) {p : Nat} (hp : p < 64) :
    hLength (m.withEntryValid s b) p = hLength m p := bits_putBits_disjoint m _ (by omega)
@[simp] theorem hPad_withEntryValid (m : Memory) (s : Nat) (b : Bool) {p : Nat} (hp : p < 64) :
    hPad (m.withEntryValid s b) p = hPad m p := bit_putBits_outside m _ (by omega)
@[simp] theorem eQb_withEntryValid (m : Memory) (s : Nat) (b : Bool) (x : Nat) :
    eQb (m.withEntryValid s b) x = eQb m x := bit_putBits_outside m _ (by omega)
theorem eValid_withEntryValid (m : Memory) (s : Nat) (b : Bool) (x : Nat) :
    eValid (m.withEntryValid s b) x = if x = s then b else eValid m x := by
  rw [eValid, Memory.withEntryValid, bit_putBits_one]
  exact if_congr (by omega) rfl rfl
@[simp] theorem eValue_withEntryValid (m : Memory) (s : Nat) (b : Bool) (x : Nat) :
    eValue (m.withEntryValid s b) x = eValue m x := congrArg (BitVec.ofNat 8) (bits_putBits_disjoint m _ (by omega))

/-! `withEntryBase` -/

@[simp] theorem countOf_withEntryBase (m : Memory) (s : Nat) (b : Bool) :
    countOf (m.withEntryBase s b) = countOf m := bits_putBits_disjoint m _ (by omega)
@[simp] theorem hValid_withEntryBase (m : Memory) (s : Nat) (b : Bool) {p : Nat} (hp : p < 64) :
    hValid (m.withEntryBase s b) p = hValid m p := bit_putBits_outside m _ (by omega)
@[simp] theorem hBase_withEntryBase (m : Memory) (s : Nat) (b : Bool) {p : Nat} (hp : p < 64) :
    hBase (m.withEntryBase s b) p = hBase m p := bits_putBits_disjoint m _ (by omega)
@[simp] theorem hLength_withEntryBase (m : Memory) (s : Nat) (b : Bool) {p : Nat} (hp : p < 64) :
    hLength (m.withEntryBase s b) p = hLength m p := bits_putBits_disjoint m _ (by omega)
@[simp] theorem hPad_withEntryBase (m : Memory) (s : Nat) (b : Bool) (p : Nat) :
    hPad (m.withEntryBase s b) p = hPad m p := bit_putBits_outside m _ (by omega)
theorem eQb_withEntryBase (m : Memory) (s : Nat) (b : Bool) (x : Nat) :
    eQb (m.withEntryBase s b) x = if x = s then b else eQb m x := by
  rw [eQb, Memory.withEntryBase, bit_putBits_one]
  exact if_congr (by omega) rfl rfl
@[simp] theorem eValid_withEntryBase (m : Memory) (s : Nat) (b : Bool) (x : Nat) :
    eValid (m.withEntryBase s b) x = eValid m x := bit_putBits_outside m _ (by omega)
@[simp] theorem eValue_withEntryBase (m : Memory) (s : Nat) (b : Bool) (x : Nat) :
    eValue (m.withEntryBase s b) x = eValue m x := congrArg (BitVec.ofNat 8) (bits_putBits_disjoint m _ (by omega))

/-! ### The writes keep the canonical form and the arena's addresses -/

theorem wf_withCount {m : Memory} (h : m.wf) (n : Nat) : (m.withCount n).wf := wf_putBits h _ _ _
theorem inArena_withCount {m : Memory} (h : m.inArena) (n : Nat) :
    (m.withCount n).inArena := inArena_putBits h _ _ (by omega)
theorem wf_withValid {m : Memory} (h : m.wf) (q : Nat) (b : Bool) : (m.withValid q b).wf := wf_putBits h _ _ _
theorem inArena_withValid {m : Memory} (h : m.inArena) {q : Nat} (hq : q < 64) (b : Bool) :
    (m.withValid q b).inArena := inArena_putBits h _ _ (by omega)
theorem wf_withBase {m : Memory} (h : m.wf) (q : Nat) (b : Nat) : (m.withBase q b).wf := wf_putBits h _ _ _
theorem inArena_withBase {m : Memory} (h : m.inArena) {q : Nat} (hq : q < 64) (b : Nat) :
    (m.withBase q b).inArena := inArena_putBits h _ _ (by omega)
theorem wf_withLength {m : Memory} (h : m.wf) (q : Nat) (n : Nat) : (m.withLength q n).wf := wf_putBits h _ _ _
theorem inArena_withLength {m : Memory} (h : m.inArena) {q : Nat} (hq : q < 64) (n : Nat) :
    (m.withLength q n).inArena := inArena_putBits h _ _ (by omega)
theorem wf_withEntry {m : Memory} (h : m.wf) (s : Nat) (e : Entry) : (m.withEntry s e).wf := wf_putBits h _ _ _
theorem inArena_withEntry {m : Memory} (h : m.inArena) {s : Nat} (hs : s < 1484) (e : Entry) :
    (m.withEntry s e).inArena := inArena_putBits h _ _ (by omega)
theorem wf_withEntryValid {m : Memory} (h : m.wf) (s : Nat) (b : Bool) : (m.withEntryValid s b).wf := wf_putBits h _ _ _
theorem inArena_withEntryValid {m : Memory} (h : m.inArena) {s : Nat} (hs : s < 1484) (b : Bool) :
    (m.withEntryValid s b).inArena := inArena_putBits h _ _ (by omega)
theorem wf_withEntryBase {m : Memory} (h : m.wf) (s : Nat) (b : Bool) : (m.withEntryBase s b).wf := wf_putBits h _ _ _
theorem inArena_withEntryBase {m : Memory} (h : m.inArena) {s : Nat} (hs : s < 1484) (b : Bool) :
    (m.withEntryBase s b).inArena := inArena_putBits h _ _ (by omega)

/-! ### The operations, said once -/

theorem checkQid_lt {q : Nat} (h : q < 64) : checkQid q = .ok () := if_pos h
theorem checkQid_ge {q : Nat} (h : 64 ≤ q) : checkQid q = .error .internal := if_neg (Nat.not_lt.mpr h)
theorem checkSlot_lt {s : Nat} (h : s < 1484) : checkSlot s = .ok () := if_pos h
theorem checkSlot_ge {s : Nat} (h : 1484 ≤ s) : checkSlot s = .error .internal := if_neg (Nat.not_lt.mpr h)

theorem getValid_eq (m : Memory) {q : Nat} (h : q < 64) : getValid m q = .ok (hValid m q) := by
  have h1 : fieldRead m (8 + 24 * q) 1 = .ok (m.bits (8 + 24 * q) 1) := fieldRead_in (by omega) (by omega) (by omega)
  simp only [getValid, checkQid_lt h, Engine_ok_bind, h1, Engine_pure, bits_one_eq_one]
  simp [hValid]
theorem getBase_eq (m : Memory) {q : Nat} (h : q < 64) : getBase m q = .ok (hBase m q) := by
  simp only [getBase, checkQid_lt h, Engine_ok_bind]
  exact fieldRead_in (by omega) (by omega) (by omega)
theorem getLength_eq (m : Memory) {q : Nat} (h : q < 64) : getLength m q = .ok (hLength m q) := by
  simp only [getLength, checkQid_lt h, Engine_ok_bind]
  exact fieldRead_in (by omega) (by omega) (by omega)
theorem getHeader_eq (m : Memory) {q : Nat} (h : q < 64) :
    getHeader m q = .ok ⟨hValid m q, hBase m q, hLength m q⟩ := by
  simp only [getHeader, getValid_eq m h, getBase_eq m h, getLength_eq m h, Engine_ok_bind, Engine_pure]
theorem setValid_eq (m : Memory) {q : Nat} (h : q < 64) (b : Bool) :
    setValid m q b = .ok (m.withValid q b) := by
  simp only [setValid, checkQid_lt h, Engine_ok_bind]
  exact fieldWrite_in _ (by omega) (by omega) (by omega)
theorem setBase_eq (m : Memory) {q : Nat} (h : q < 64) (b : Nat) :
    setBase m q b = .ok (m.withBase q b) := by
  simp only [setBase, checkQid_lt h, Engine_ok_bind]
  exact fieldWrite_in _ (by omega) (by omega) (by omega)
theorem setLength_eq (m : Memory) {q : Nat} (h : q < 64) (n : Nat) :
    setLength m q n = .ok (m.withLength q n) := by
  simp only [setLength, checkQid_lt h, Engine_ok_bind]
  exact fieldWrite_in _ (by omega) (by omega) (by omega)
theorem getCount_eq (m : Memory) : getCount m = .ok (countOf m) :=
  fieldRead_in (by omega) (by omega) (by omega)
theorem setCount_eq (m : Memory) (n : Nat) : setCount m n = .ok (m.withCount n) :=
  fieldWrite_in _ (by omega) (by omega) (by omega)
theorem incrementCount_eq (m : Memory) : incrementCount m = .ok (m.withCount (countOf m + 1)) := by
  simp only [incrementCount, getCount_eq, Engine_ok_bind, setCount_eq]
theorem decrementCount_eq (m : Memory) : decrementCount m = .ok (m.withCount (countOf m + 255)) := by
  simp only [decrementCount, getCount_eq, Engine_ok_bind, setCount_eq]

theorem readEntry_eq (m : Memory) {s : Nat} (h : s < 1484) : readEntry m s = .ok (entryAt m s) := by
  have h1 : fieldRead m (1544 + 10 * s) 10 = .ok (m.bits (1544 + 10 * s) 10) :=
    fieldRead_in (by omega) (by omega) (by omega)
  simp only [readEntry, checkSlot_lt h, Engine_ok_bind, h1, Engine_pure, unpack_bits]
theorem readEntry_ge (m : Memory) {s : Nat} (h : 1484 ≤ s) : readEntry m s = .error .internal := by
  simp only [readEntry, checkSlot_ge h, Engine_error_bind]
theorem writeEntry_eq (m : Memory) {s : Nat} (h : s < 1484) (e : Entry) :
    writeEntry m s e = .ok (m.withEntry s e) := by
  simp only [writeEntry, checkSlot_lt h, Engine_ok_bind]
  exact fieldWrite_in _ (by omega) (by omega) (by omega)
theorem setEntryValid_eq (m : Memory) {s : Nat} (h : s < 1484) (b : Bool) :
    setEntryValid m s b = .ok (m.withEntryValid s b) := by
  simp only [setEntryValid, checkSlot_lt h, Engine_ok_bind]
  exact fieldWrite_in _ (by omega) (by omega) (by omega)
theorem setEntryBase_eq (m : Memory) {s : Nat} (h : s < 1484) (b : Bool) :
    setEntryBase m s b = .ok (m.withEntryBase s b) := by
  simp only [setEntryBase, checkSlot_lt h, Engine_ok_bind]
  exact fieldWrite_in _ (by omega) (by omega) (by omega)
theorem copyEntry_eq (m : Memory) {a b : Nat} (ha : a < 1484) (hb : b < 1484) :
    copyEntry m a b = .ok (m.withEntry b (entryAt m a)) := by
  simp only [copyEntry, readEntry_eq m ha, Engine_ok_bind, writeEntry_eq m hb]

end Sys2Proof.Machine
end

