-- ==== Sys2Proof/Laws/Scans.lean ====
section
/-! SUPPORT. The scans, the moves and the loops, each said once: what the handle check, the lookups,
one shift iteration, the two shift loops and the freeing loop answer (41_header_table.md R158, R160;
42_entry_store.md R177; 43_engine.md R200, R202, R208, R211). -/

namespace Sys2Proof.Machine

/-! ### The handle check -/

theorem checkHandle_null (m : Memory) {q : Nat} (h : 64 ≤ q) :
    checkHandle m q = .error (.raise .nullHandle) := by
  simp [checkHandle, nullHandle, Config.maxQueues, h]

theorem checkHandle_lt (m : Memory) {q : Nat} (h : q < 64) :
    checkHandle m q = if hValid m q then .ok () else .error (.raise .invalidHandle) := by
  have hn : nullHandle q = false := by simp [nullHandle, Config.maxQueues]; omega
  simp [checkHandle, hn, getValid_eq m h]

/-- All the handle check can do. -/
theorem checkHandle_cases (m : Memory) (q : Nat) :
    (64 ≤ q ∧ checkHandle m q = .error (.raise .nullHandle)) ∨
    (q < 64 ∧ hValid m q = false ∧ checkHandle m q = .error (.raise .invalidHandle)) ∨
    (q < 64 ∧ hValid m q = true ∧ checkHandle m q = .ok ()) := by
  rcases Nat.lt_or_ge q 64 with h | h
  · rw [checkHandle_lt m h]
    cases hv : hValid m q <;> simp [h]
  · exact .inl ⟨h, checkHandle_null m h⟩

/-! ### The lookups -/

theorem findFreeHeaderFrom_spec (m : Memory) :
    ∀ k q, k + q = 64 → ∃ o, findFreeHeaderFrom m k q = .ok o ∧
      match o with
      | none => ∀ p, q ≤ p → p < 64 → hValid m p = true
      | some r => q ≤ r ∧ r < 64 ∧ hValid m r = false ∧ ∀ p, q ≤ p → p < r → hValid m p = true
  | 0, q, h => ⟨none, rfl, fun p h1 h2 => by omega⟩
  | k + 1, q, h => by
    obtain ⟨o, ho, hs⟩ := findFreeHeaderFrom_spec m k (q + 1) (by omega)
    simp only [findFreeHeaderFrom, getValid_eq m (show q < 64 by omega), Engine_ok_bind]
    cases hv : hValid m q with
    | false => exact ⟨some q, rfl, le_rfl, by omega, hv, fun p h1 h2 => by omega⟩
    | true =>
      refine ⟨o, by simpa using ho, ?_⟩
      have hq : ∀ p, q ≤ p → q + 1 ≤ p ∨ p = q := fun p hp => by omega
      cases o with
      | none =>
        intro p h1 h2
        rcases hq p h1 with h3 | rfl
        · exact hs p h3 h2
        · exact hv
      | some r =>
        obtain ⟨h1, h2, h3, h4⟩ := hs
        refine ⟨by omega, h2, h3, fun p h5 h6 => ?_⟩
        rcases hq p h5 with h7 | rfl
        · exact h4 p h7 h6
        · exact hv

/-- All `find_free_header` can do: the lowest free qid, or none (41_header_table.md R158). -/
theorem findFreeHeader_spec (m : Memory) : ∃ o, findFreeHeader m = .ok o ∧
    match o with
    | none => ∀ p < 64, hValid m p = true
    | some r => r < 64 ∧ hValid m r = false ∧ ∀ p < r, hValid m p = true := by
  obtain ⟨o, ho, hs⟩ := findFreeHeaderFrom_spec m 64 0 rfl
  refine ⟨o, ho, ?_⟩
  cases o with
  | none => exact fun p hp => hs p (Nat.zero_le p) hp
  | some r => exact ⟨hs.2.1, hs.2.2.1, fun p hp => hs.2.2.2 p (Nat.zero_le p) hp⟩

theorem findFreeHeader_eq_some {m : Memory} {r : Nat} (hr : r < 64) (hf : hValid m r = false)
    (hp : ∀ p < r, hValid m p = true) : findFreeHeader m = .ok (some r) := by
  obtain ⟨o, ho, hs⟩ := findFreeHeader_spec m
  cases o with
  | none => simp [hs r hr] at hf
  | some t =>
    obtain ⟨h1, h2, h3⟩ := hs
    rcases lt_trichotomy t r with h | h | h
    · simp [hp t h] at h2
    · rw [ho, h]
    · simp [h3 r h] at hf

theorem findFreeHeader_eq_none {m : Memory} (h : ∀ p < 64, hValid m p = true) :
    findFreeHeader m = .ok none := by
  obtain ⟨o, ho, hs⟩ := findFreeHeader_spec m
  cases o with
  | none => exact ho
  | some t => obtain ⟨h1, h2, -⟩ := hs; simp [h t h1] at h2

theorem findFreeSlotUpFrom_spec (m : Memory) :
    ∀ k s, k + s = 1484 → ∃ o, findFreeSlotUpFrom m k s = .ok o ∧
      match o with
      | none => ∀ x, s ≤ x → x < 1484 → eValid m x = true
      | some i => s ≤ i ∧ i < 1484 ∧ eValid m i = false ∧ ∀ x, s ≤ x → x < i → eValid m x = true
  | 0, s, h => ⟨none, rfl, fun p h1 h2 => by omega⟩
  | k + 1, s, h => by
    obtain ⟨o, ho, hs⟩ := findFreeSlotUpFrom_spec m k (s + 1) (by omega)
    simp only [findFreeSlotUpFrom, readEntry_eq m (show s < 1484 by omega), Engine_ok_bind, entryAt_valid]
    by_cases hv : eValid m s = true
    swap
    · have hv : eValid m s = false := by simpa using hv
      exact ⟨some s, by simp [hv], le_rfl, by omega, hv, fun p h1 h2 => by omega⟩
    · refine ⟨o, by simpa [hv] using ho, ?_⟩
      have hq : ∀ x, s ≤ x → s + 1 ≤ x ∨ x = s := fun x hx => by omega
      cases o with
      | none =>
        intro x h1 h2
        rcases hq x h1 with h3 | rfl
        · exact hs x h3 h2
        · exact hv
      | some i =>
        obtain ⟨h1, h2, h3, h4⟩ := hs
        refine ⟨by omega, h2, h3, fun x h5 h6 => ?_⟩
        rcases hq x h5 with h7 | rfl
        · exact h4 x h7 h6
        · exact hv

/-- All the upward scan can do, from any start: the nearest free slot, or none
(42_entry_store.md R177). -/
theorem findFreeSlotUp_spec (m : Memory) (start : Nat) : ∃ o, findFreeSlotUp m start = .ok o ∧
    match o with
    | none => ∀ x, start ≤ x → x < 1484 → eValid m x = true
    | some i => start ≤ i ∧ i < 1484 ∧ eValid m i = false ∧
        ∀ x, start ≤ x → x < i → eValid m x = true := by
  rcases Nat.lt_or_ge start 1484 with h | h
  · exact findFreeSlotUpFrom_spec m (1484 - start) start (by omega)
  · refine ⟨none, ?_, fun x h1 h2 => by omega⟩
    simp [findFreeSlotUp, Config.maxEntries, Nat.sub_eq_zero_of_le h, findFreeSlotUpFrom]

theorem findFreeSlotUp_eq_some {m : Memory} {start i : Nat} (h1 : start ≤ i) (h2 : i < 1484)
    (h3 : eValid m i = false) (h4 : ∀ x, start ≤ x → x < i → eValid m x = true) :
    findFreeSlotUp m start = .ok (some i) := by
  obtain ⟨o, ho, hs⟩ := findFreeSlotUp_spec m start
  cases o with
  | none => simp [hs i h1 h2] at h3
  | some t =>
    obtain ⟨g1, g2, g3, g4⟩ := hs
    rcases lt_trichotomy t i with h | h | h
    · simp [h4 t g1 h] at g3
    · rw [ho, h]
    · simp [g4 i h1 h] at h3

theorem findFreeSlotUp_eq_none {m : Memory} {start : Nat}
    (h : ∀ x, start ≤ x → x < 1484 → eValid m x = true) : findFreeSlotUp m start = .ok none := by
  obtain ⟨o, ho, hs⟩ := findFreeSlotUp_spec m start
  cases o with
  | none => exact ho
  | some t => obtain ⟨h1, h2, h3, -⟩ := hs; simp [h t h1 h2] at h3

/-- All the downward scan below a bound in the entry segment can do: the nearest free slot, or none
(42_entry_store.md R177). -/
theorem findFreeSlotBelow_spec (m : Memory) : ∀ b ≤ 1484, ∃ o, findFreeSlotBelow m b = .ok o ∧
    match o with
    | none => ∀ x < b, eValid m x = true
    | some i => i < b ∧ eValid m i = false ∧ ∀ x, i < x → x < b → eValid m x = true
  | 0, _ => ⟨none, rfl, fun x h => by omega⟩
  | s + 1, h => by
    obtain ⟨o, ho, hs⟩ := findFreeSlotBelow_spec m s (by omega)
    simp only [findFreeSlotBelow, readEntry_eq m (show s < 1484 by omega), Engine_ok_bind, entryAt_valid]
    by_cases hv : eValid m s = true
    swap
    · have hv : eValid m s = false := by simpa using hv
      exact ⟨some s, by simp [hv], by omega, hv, fun x h1 h2 => by omega⟩
    · refine ⟨o, by simpa [hv] using ho, ?_⟩
      have hq : ∀ x, x < s + 1 → x < s ∨ x = s := fun x hx => by omega
      cases o with
      | none =>
        intro x h1
        rcases hq x h1 with h3 | rfl
        · exact hs x h3
        · exact hv
      | some i =>
        obtain ⟨h1, h2, h3⟩ := hs
        refine ⟨by omega, h2, fun x h5 h6 => ?_⟩
        rcases hq x h6 with h7 | rfl
        · exact h3 x h5 h7
        · exact hv

theorem findFreeSlotBelow_eq_some {m : Memory} {b i : Nat} (hb : b ≤ 1484) (h1 : i < b)
    (h3 : eValid m i = false) (h4 : ∀ x, i < x → x < b → eValid m x = true) :
    findFreeSlotBelow m b = .ok (some i) := by
  obtain ⟨o, ho, hs⟩ := findFreeSlotBelow_spec m b hb
  cases o with
  | none => simp [hs i h1] at h3
  | some t =>
    obtain ⟨g1, g3, g4⟩ := hs
    rcases lt_trichotomy t i with h | h | h
    · simp [g4 i h h1] at h3
    · rw [ho, h]
    · simp [h4 t h g1] at g3

theorem findFreeSlotBelow_eq_none {m : Memory} {b : Nat} (hb : b ≤ 1484)
    (h : ∀ x < b, eValid m x = true) : findFreeSlotBelow m b = .ok none := by
  obtain ⟨o, ho, hs⟩ := findFreeSlotBelow_spec m b hb
  cases o with
  | none => exact ho
  | some t => obtain ⟨h1, h3, -⟩ := hs; simp [h t h1] at h3

/-- A downward scan from a slot that does not exist is INTERNAL (42_entry_store.md R178). -/
theorem findFreeSlotBelow_internal (m : Memory) {b : Nat} (hb : 1484 < b) :
    findFreeSlotBelow m b = .error .internal := by
  obtain ⟨s, rfl⟩ : ∃ s, b = s + 1 := ⟨b - 1, by omega⟩
  simp only [findFreeSlotBelow, readEntry_ge m (show 1484 ≤ s by omega), Engine_error_bind]

/-- `p` is a queue that `find_owner(s, exclude)` may answer (41_header_table.md R160). -/
def isOwner (m : Memory) (s : Nat) (exclude : Option Nat) (p : Nat) : Prop :=
  some p ≠ exclude ∧ startsAt m p s

theorem findOwnerFrom_spec (m : Memory) (s : Nat) (ex : Option Nat) :
    ∀ k q, k + q = 64 → ∃ o, findOwnerFrom m s ex k q = .ok o ∧
      match o with
      | none => ∀ p, q ≤ p → p < 64 → ¬ isOwner m s ex p
      | some r => q ≤ r ∧ r < 64 ∧ isOwner m s ex r ∧ ∀ p, q ≤ p → p < r → ¬ isOwner m s ex p
  | 0, q, h => ⟨none, rfl, fun p h1 h2 => by omega⟩
  | k + 1, q, h => by
    have hq : q < 64 := by omega
    obtain ⟨o, ho, hs⟩ := findOwnerFrom_spec m s ex k (q + 1) (by omega)
    have hown : ownsBase m q s =
        .ok (hValid m q && decide (0 < hLength m q) && decide (hBase m q = s)) := by
      simp only [ownsBase, getHeader_eq m hq, Engine_ok_bind, Engine_pure]
    have hstep : ∀ x, q ≤ x → q + 1 ≤ x ∨ x = q := fun x hx => by omega
    have skip : ¬ isOwner m s ex q → findOwnerFrom m s ex (k + 1) q = .ok o →
        ∃ o, findOwnerFrom m s ex (k + 1) q = .ok o ∧
        match o with
        | none => ∀ p, q ≤ p → p < 64 → ¬ isOwner m s ex p
        | some r => q ≤ r ∧ r < 64 ∧ isOwner m s ex r ∧
            ∀ p, q ≤ p → p < r → ¬ isOwner m s ex p := by
      intro hn he
      refine ⟨o, he, ?_⟩
      cases o with
      | none =>
        intro p h1 h2
        rcases hstep p h1 with h3 | rfl
        · exact hs p h3 h2
        · exact hn
      | some r =>
        obtain ⟨h1, h2, h3, h4⟩ := hs
        refine ⟨by omega, h2, h3, fun p h5 h6 => ?_⟩
        rcases hstep p h5 with h7 | rfl
        · exact h4 p h7 h6
        · exact hn
    by_cases hex : some q = ex
    · exact skip (fun hi => hi.1 hex) (by simp only [findOwnerFrom, hex, if_true]; exact ho)
    · by_cases hst : startsAt m q s
      · refine ⟨some q, ?_, le_rfl, hq, ⟨hex, hst⟩, fun p h1 h2 => by omega⟩
        obtain ⟨h1, h2, h3⟩ := hst
        simp [findOwnerFrom, hex, hown, h1, h2, h3]
      · refine skip (fun hi => hst hi.2) ?_
        have hf : (hValid m q && decide (0 < hLength m q) && decide (hBase m q = s)) = false := by
          simpa [startsAt, and_assoc, Bool.and_eq_false_iff, imp_iff_not_or, or_assoc] using hst
        simp only [findOwnerFrom, hex, if_false, hown, Engine_ok_bind, hf, Bool.false_eq_true]
        exact ho

/-- All `find_owner` can do: the lowest owner of the base `s`, or none (41_header_table.md R160). -/
theorem findOwner_spec (m : Memory) (s : Nat) (ex : Option Nat) : ∃ o, findOwner m s ex = .ok o ∧
    match o with
    | none => ∀ p < 64, ¬ isOwner m s ex p
    | some r => r < 64 ∧ isOwner m s ex r ∧ ∀ p < r, ¬ isOwner m s ex p := by
  obtain ⟨o, ho, hs⟩ := findOwnerFrom_spec m s ex 64 0 rfl
  refine ⟨o, ho, ?_⟩
  cases o with
  | none => exact fun p hp => hs p (Nat.zero_le p) hp
  | some r => exact ⟨hs.2.1, hs.2.2.1, fun p hp => hs.2.2.2 p (Nat.zero_le p) hp⟩

end Sys2Proof.Machine
end

