-- ==== Sys2Proof/Laws/Moves.lean ====
section
/-! SUPPORT. One shift iteration, the two shift loops and the freeing loop, each said once: where
every entry and every base goes, and what stays (43_engine.md R202, R208, R211). -/

namespace Sys2Proof.Machine

/-- What every engine write leaves: the canonical form, the arena's addresses, the pad bits, and
every bit beyond the arena. -/
structure KeepsForm (m m' : Memory) : Prop where
  wf : m.wf → m'.wf
  inArena : m.inArena → m'.inArena
  pad : ∀ p < 64, hPad m' p = hPad m p
  beyond : ∀ k, 16384 ≤ k → m'.bit k = m.bit k

theorem KeepsForm.refl (m : Memory) : KeepsForm m m := ⟨id, id, fun _ _ => rfl, fun _ _ => rfl⟩

theorem KeepsForm.trans {a b c : Memory} (h : KeepsForm a b) (g : KeepsForm b c) : KeepsForm a c :=
  ⟨fun x => g.wf (h.wf x), fun x => g.inArena (h.inArena x),
    fun p hp => (g.pad p hp).trans (h.pad p hp), fun k hk => (g.beyond k hk).trans (h.beyond k hk)⟩

/-- What a shift leaves of the monitor segment: all but the bases. -/
structure KeepsHeaders (m m' : Memory) : Prop extends KeepsForm m m' where
  count : countOf m' = countOf m
  valid : ∀ p < 64, hValid m' p = hValid m p
  length : ∀ p < 64, hLength m' p = hLength m p

theorem KeepsHeaders.refl (m : Memory) : KeepsHeaders m m :=
  ⟨KeepsForm.refl m, rfl, fun _ _ => rfl, fun _ _ => rfl⟩

theorem KeepsHeaders.trans {a b c : Memory} (h : KeepsHeaders a b) (g : KeepsHeaders b c) :
    KeepsHeaders a c :=
  ⟨h.toKeepsForm.trans g.toKeepsForm, g.count.trans h.count,
    fun p hp => (g.valid p hp).trans (h.valid p hp), fun p hp => (g.length p hp).trans (h.length p hp)⟩

/-! ### Every write keeps the form -/

theorem keepsForm_withCount (m : Memory) (n : Nat) : KeepsForm m (m.withCount n) :=
  ⟨fun h => wf_withCount h n, fun h => inArena_withCount h n, fun _ _ => by simp,
    fun k hk => bit_putBits_outside m n (by omega)⟩
theorem keepsForm_withValid (m : Memory) {q : Nat} (hq : q < 64) (b : Bool) : KeepsForm m (m.withValid q b) :=
  ⟨fun h => wf_withValid h q b, fun h => inArena_withValid h hq b, fun _ _ => by simp,
    fun k hk => bit_putBits_outside m _ (by omega)⟩
theorem keepsForm_withBase (m : Memory) {q : Nat} (hq : q < 64) (b : Nat) : KeepsForm m (m.withBase q b) :=
  ⟨fun h => wf_withBase h q b, fun h => inArena_withBase h hq b, fun _ _ => by simp,
    fun k hk => bit_putBits_outside m _ (by omega)⟩
theorem keepsForm_withLength (m : Memory) {q : Nat} (hq : q < 64) (n : Nat) : KeepsForm m (m.withLength q n) :=
  ⟨fun h => wf_withLength h q n, fun h => inArena_withLength h hq n, fun _ _ => by simp,
    fun k hk => bit_putBits_outside m _ (by omega)⟩
theorem keepsForm_withEntry (m : Memory) {s : Nat} (hs : s < 1484) (e : Entry) : KeepsForm m (m.withEntry s e) :=
  ⟨fun h => wf_withEntry h s e, fun h => inArena_withEntry h hs e, fun _ hp => by simp [hp],
    fun k hk => bit_putBits_outside m _ (by omega)⟩
theorem keepsForm_withEntryValid (m : Memory) {s : Nat} (hs : s < 1484) (b : Bool) :
    KeepsForm m (m.withEntryValid s b) :=
  ⟨fun h => wf_withEntryValid h s b, fun h => inArena_withEntryValid h hs b, fun _ hp => by simp [hp],
    fun k hk => bit_putBits_outside m _ (by omega)⟩
theorem keepsForm_withEntryBase (m : Memory) {s : Nat} (hs : s < 1484) (b : Bool) :
    KeepsForm m (m.withEntryBase s b) :=
  ⟨fun h => wf_withEntryBase h s b, fun h => inArena_withEntryBase h hs b, fun _ _ => by simp,
    fun k hk => bit_putBits_outside m _ (by omega)⟩

/-! ### An operation that answers was in range -/

theorem checkQid_ok {q : Nat} {u : Unit} (h : checkQid q = .ok u) : q < 64 := by
  by_contra hq; simp [checkQid_ge (Nat.le_of_not_lt hq)] at h
theorem checkSlot_ok {s : Nat} {u : Unit} (h : checkSlot s = .ok u) : s < 1484 := by
  by_contra hs; simp [checkSlot_ge (Nat.le_of_not_lt hs)] at h

theorem setValid_ok {m m' : Memory} {q : Nat} {b : Bool} (h : setValid m q b = .ok m') :
    q < 64 ∧ m' = m.withValid q b := by
  obtain ⟨u, hu, -⟩ := Engine_bind_ok h
  have hq := checkQid_ok hu
  rw [setValid_eq m hq] at h
  exact ⟨hq, by simpa using h.symm⟩
theorem setBase_ok {m m' : Memory} {q b : Nat} (h : setBase m q b = .ok m') :
    q < 64 ∧ m' = m.withBase q b := by
  obtain ⟨u, hu, -⟩ := Engine_bind_ok h
  have hq := checkQid_ok hu
  rw [setBase_eq m hq] at h
  exact ⟨hq, by simpa using h.symm⟩
theorem setLength_ok {m m' : Memory} {q n : Nat} (h : setLength m q n = .ok m') :
    q < 64 ∧ m' = m.withLength q n := by
  obtain ⟨u, hu, -⟩ := Engine_bind_ok h
  have hq := checkQid_ok hu
  rw [setLength_eq m hq] at h
  exact ⟨hq, by simpa using h.symm⟩
theorem readEntry_ok {m : Memory} {s : Nat} {e : Entry} (h : readEntry m s = .ok e) :
    s < 1484 ∧ e = entryAt m s := by
  obtain ⟨u, hu, -⟩ := Engine_bind_ok h
  have hs := checkSlot_ok hu
  rw [readEntry_eq m hs] at h
  exact ⟨hs, by simpa using h.symm⟩
theorem writeEntry_ok {m m' : Memory} {s : Nat} {e : Entry} (h : writeEntry m s e = .ok m') :
    s < 1484 ∧ m' = m.withEntry s e := by
  obtain ⟨u, hu, -⟩ := Engine_bind_ok h
  have hs := checkSlot_ok hu
  rw [writeEntry_eq m hs] at h
  exact ⟨hs, by simpa using h.symm⟩
theorem setEntryValid_ok {m m' : Memory} {s : Nat} {b : Bool} (h : setEntryValid m s b = .ok m') :
    s < 1484 ∧ m' = m.withEntryValid s b := by
  obtain ⟨u, hu, -⟩ := Engine_bind_ok h
  have hs := checkSlot_ok hu
  rw [setEntryValid_eq m hs] at h
  exact ⟨hs, by simpa using h.symm⟩
theorem setEntryBase_ok {m m' : Memory} {s : Nat} {b : Bool} (h : setEntryBase m s b = .ok m') :
    s < 1484 ∧ m' = m.withEntryBase s b := by
  obtain ⟨u, hu, -⟩ := Engine_bind_ok h
  have hs := checkSlot_ok hu
  rw [setEntryBase_eq m hs] at h
  exact ⟨hs, by simpa using h.symm⟩
theorem copyEntry_ok {m m' : Memory} {a b : Nat} (h : copyEntry m a b = .ok m') :
    a < 1484 ∧ b < 1484 ∧ m' = m.withEntry b (entryAt m a) := by
  obtain ⟨e, he, hw⟩ := Engine_bind_ok h
  obtain ⟨ha, rfl⟩ := readEntry_ok he
  obtain ⟨hb, hm⟩ := writeEntry_ok hw
  exact ⟨ha, hb, hm⟩

/-! ### One iteration of a shift -/

/-- `p` is the queue that `find_owner(s, exclude)` answers (41_header_table.md R160). -/
def isFirstOwner (m : Memory) (s : Nat) (exclude : Option Nat) (p : Nat) : Prop :=
  isOwner m s exclude p ∧ ∀ r < p, ¬ isOwner m s exclude r

theorem startsAt_congr {m m' : Memory} {s p : Nat} (hv : hValid m' p = hValid m p)
    (hl : hLength m' p = hLength m p) (hb : hBase m' p = s ↔ hBase m p = s) :
    startsAt m' p s ↔ startsAt m p s := by
  simp only [startsAt, hv, hl, hb]

theorem isFirstOwner_congr {m m' : Memory} {s p : Nat} {ex : Option Nat} (hp : p < 64)
    (hk : KeepsHeaders m m') (hb : ∀ r < 64, (hBase m' r = s ↔ hBase m r = s)) :
    isFirstOwner m' s ex p ↔ isFirstOwner m s ex p := by
  have h : ∀ r < 64, (isOwner m' s ex r ↔ isOwner m s ex r) := fun r hr =>
    and_congr_right fun _ => startsAt_congr (hk.valid r hr) (hk.length r hr) (hb r hr)
  refine and_congr (h p hp) (forall_congr' fun r => forall_congr' fun hr => ?_)
  exact not_congr (h r (by omega))

/-- All one iteration of a shift can do, in range (43_engine.md R208, R211). -/
theorem moveEntry_spec (m : Memory) {src dst : Nat} (hs : src < 1484) (hd : dst < 1484)
    (ex : Option Nat) : ∃ m', moveEntry m src dst ex = .ok m' ∧ KeepsHeaders m m' ∧
      (∀ x, entryAt m' x = if x = dst then entryAt m src else entryAt m x) ∧
      ∀ p < 64, (eQb m src = true ∧ isFirstOwner m src ex p → hBase m' p = dst) ∧
        (¬ (eQb m src = true ∧ isFirstOwner m src ex p) → hBase m' p = hBase m p) := by
  have hk1 : KeepsHeaders m (m.withEntry dst (entryAt m src)) :=
    ⟨keepsForm_withEntry m hd _, by simp, fun p hp => by simp [hp], fun p hp => by simp [hp]⟩
  have hb1 : ∀ p < 64, hBase (m.withEntry dst (entryAt m src)) p = hBase m p :=
    fun p hp => by simp [hp]
  have he1 : ∀ x, entryAt (m.withEntry dst (entryAt m src)) x =
      if x = dst then entryAt m src else entryAt m x := entryAt_withEntry m dst _
  generalize hm1 : m.withEntry dst (entryAt m src) = m1 at hk1 hb1 he1
  have hq1 : entryAt m1 dst = entryAt m src := by rw [he1, if_pos rfl]
  have hfo : ∀ p < 64, (isFirstOwner m1 src ex p ↔ isFirstOwner m src ex p) := fun p hp =>
    isFirstOwner_congr hp hk1 (fun r hr => by rw [hb1 r hr])
  unfold moveEntry
  rw [copyEntry_eq m hs hd, Engine_ok_bind, hm1, readEntry_eq m1 hd, Engine_ok_bind, hq1, entryAt_qb]
  by_cases hqb : eQb m src = true
  · obtain ⟨o, ho, hspec⟩ := findOwner_spec m1 src ex
    rw [if_pos hqb, ho, Engine_ok_bind]
    cases o with
    | none =>
      refine ⟨m1, rfl, hk1, he1, fun p hp => ⟨fun h => ?_, fun _ => hb1 p hp⟩⟩
      exact absurd ((hfo p hp).mpr h.2).1 (hspec p hp)
    | some r =>
      obtain ⟨hr, hro, hrf⟩ := hspec
      refine ⟨m1.withBase r dst, setBase_eq m1 hr dst, ?_, ?_, ?_⟩
      · exact hk1.trans ⟨keepsForm_withBase m1 hr dst, by simp, fun p _ => by simp, fun p _ => by simp⟩
      · intro x; rw [entryAt_withBase m1 dst hr, he1]
      · intro p hp
        rw [hBase_withBase]
        refine ⟨fun h => ?_, fun h => ?_⟩
        · have hpo := (hfo p hp).mpr h.2
          have hpr : p = r := by
            rcases lt_trichotomy p r with h1 | h1 | h1
            · exact absurd hpo.1 (hrf p h1)
            · exact h1
            · exact absurd hro (hpo.2 r h1)
          rw [if_pos hpr, Nat.mod_eq_of_lt (by omega)]
        · have hpr : p ≠ r := by
            rintro rfl
            exact h ⟨hqb, (hfo p hp).mp ⟨hro, hrf⟩⟩
          rw [if_neg hpr, hb1 p hp]
  · rw [if_neg hqb]
    exact ⟨m1, rfl, hk1, he1, fun p hp => ⟨fun h => absurd h.1 hqb, fun _ => hb1 p hp⟩⟩

/-- The queue whose base is `hBase m p` moves with that slot when the window contains it. -/
def movesWith (m : Memory) (exclude : Option Nat) (lo hi p : Nat) : Prop :=
  lo ≤ hBase m p ∧ hBase m p < hi ∧ eQb m (hBase m p) = true ∧ isFirstOwner m (hBase m p) exclude p

/-- All the loop of ShiftRight can do, in range: the window `[tail, tail + k)` moves right by one
(43_engine.md R208). -/
theorem shiftRightLoop_spec (q tail : Nat) : ∀ (k : Nat) (m : Memory), tail + k < 1484 →
    ∃ m', shiftRightLoop m q tail k = .ok m' ∧ KeepsHeaders m m' ∧
      (∀ x, entryAt m' x = if tail < x ∧ x ≤ tail + k then entryAt m (x - 1) else entryAt m x) ∧
      ∀ p < 64, (movesWith m (some q) tail (tail + k) p → hBase m' p = hBase m p + 1) ∧
        (¬ movesWith m (some q) tail (tail + k) p → hBase m' p = hBase m p)
  | 0, m, _ => by
    refine ⟨m, rfl, KeepsHeaders.refl m, fun x => ?_, fun p _ => ⟨fun h => ?_, fun _ => rfl⟩⟩
    · rw [if_neg (by omega)]
    · have h1 := h.1; have h2 := h.2.1; omega
  | k + 1, m, h => by
    obtain ⟨m1, hm1, hk1, he1, hb1⟩ :=
      moveEntry_spec m (src := tail + k) (dst := tail + k + 1) (by omega) (by omega) (some q)
    obtain ⟨m2, hm2, hk2, he2, hb2⟩ := shiftRightLoop_spec q tail k m1 (by omega)
    refine ⟨m2, ?_, hk1.trans hk2, ?_, ?_⟩
    · simp only [shiftRightLoop, hm1, Engine_ok_bind, hm2]
    · intro x
      rw [he2, he1, he1]
      by_cases hx : tail < x ∧ x ≤ tail + k
      · rw [if_pos hx, if_neg (by omega), if_pos (by omega)]
      · rw [if_neg hx]
        by_cases hx1 : x = tail + k + 1
        · rw [if_pos hx1, if_pos (by omega), hx1]; rfl
        · rw [if_neg hx1, if_neg (by omega)]
    · intro p hp
      obtain ⟨hb1a, hb1b⟩ := hb1 p hp
      obtain ⟨hb2a, hb2b⟩ := hb2 p hp
      by_cases hbase : hBase m p = tail + k
      · by_cases hmv : eQb m (tail + k) = true ∧ isFirstOwner m (tail + k) (some q) p
        · have h1 := hb1a hmv
          have h2 := hb2b (fun hw => by have := hw.2.1; omega)
          have : movesWith m (some q) tail (tail + (k + 1)) p :=
            ⟨by omega, by omega, by rw [hbase]; exact hmv.1, by rw [hbase]; exact hmv.2⟩
          exact ⟨fun _ => by omega, fun hn => absurd this hn⟩
        · have h1 := hb1b hmv
          have h2 := hb2b (fun hw => by have := hw.2.1; omega)
          refine ⟨fun hw => absurd ?_ hmv, fun _ => by omega⟩
          have h3 := hw.2.2
          rwa [hbase] at h3
      · have hnot : ¬ (eQb m (tail + k) = true ∧ isFirstOwner m (tail + k) (some q) p) :=
          fun hw => hbase hw.2.1.2.2.2
        have h1 := hb1b hnot
        have hiff : movesWith m1 (some q) tail (tail + k) p ↔ movesWith m (some q) tail (tail + (k + 1)) p := by
          unfold movesWith
          rw [h1]
          by_cases hr : tail ≤ hBase m p ∧ hBase m p < tail + k
          · have hq1 : eQb m1 (hBase m p) = eQb m (hBase m p) := by
              have := congrArg Entry.qb (he1 (hBase m p))
              rwa [if_neg (by omega)] at this
            rw [hq1, isFirstOwner_congr hp hk1 (fun r hr' => ?_)]
            · constructor <;> rintro ⟨h1, h2, h3⟩ <;> exact ⟨h1, by omega, h3⟩
            · obtain ⟨ha, hb⟩ := hb1 r hr'
              by_cases hmv : eQb m (tail + k) = true ∧ isFirstOwner m (tail + k) (some q) r
              · have h5 := ha hmv
                have h6 : hBase m r = tail + k := hmv.2.1.2.2.2
                omega
              · rw [hb hmv]
          · constructor <;> rintro ⟨h1, h2, -⟩ <;> omega
        rw [hiff, h1] at hb2a
        rw [hiff, h1] at hb2b
        exact ⟨hb2a, hb2b⟩

/-- All the loop of ShiftLeft can do, in range: the window `[j + 1, j + k]` moves left by one
(43_engine.md R211). -/
theorem shiftLeftLoop_spec : ∀ (k j : Nat) (m : Memory), j + k < 1484 →
    ∃ m', shiftLeftLoop m k j = .ok m' ∧ KeepsHeaders m m' ∧
      (∀ x, entryAt m' x = if j ≤ x ∧ x < j + k then entryAt m (x + 1) else entryAt m x) ∧
      ∀ p < 64, (movesWith m none (j + 1) (j + k + 1) p → hBase m' p = hBase m p - 1) ∧
        (¬ movesWith m none (j + 1) (j + k + 1) p → hBase m' p = hBase m p)
  | 0, j, m, _ => by
    refine ⟨m, rfl, KeepsHeaders.refl m, fun x => ?_, fun p _ => ⟨fun h => ?_, fun _ => rfl⟩⟩
    · rw [if_neg (by omega)]
    · have h1 := h.1; have h2 := h.2.1; omega
  | k + 1, j, m, h => by
    obtain ⟨m1, hm1, hk1, he1, hb1⟩ :=
      moveEntry_spec m (src := j + 1) (dst := j) (by omega) (by omega) none
    obtain ⟨m2, hm2, hk2, he2, hb2⟩ := shiftLeftLoop_spec k (j + 1) m1 (by omega)
    refine ⟨m2, ?_, hk1.trans hk2, ?_, ?_⟩
    · simp only [shiftLeftLoop, hm1, Engine_ok_bind, hm2]
    · intro x
      rw [he2, he1, he1]
      by_cases hx : j + 1 ≤ x ∧ x < j + 1 + k
      · rw [if_pos hx, if_neg (by omega), if_pos (by omega)]
      · rw [if_neg hx]
        by_cases hx1 : x = j
        · rw [if_pos hx1, if_pos (by omega), hx1]
        · rw [if_neg hx1, if_neg (by omega)]
    · intro p hp
      obtain ⟨hb1a, hb1b⟩ := hb1 p hp
      obtain ⟨hb2a, hb2b⟩ := hb2 p hp
      by_cases hbase : hBase m p = j + 1
      · by_cases hmv : eQb m (j + 1) = true ∧ isFirstOwner m (j + 1) none p
        · have h1 := hb1a hmv
          have h2 := hb2b (fun hw => by have := hw.1; omega)
          have : movesWith m none (j + 1) (j + (k + 1) + 1) p :=
            ⟨by omega, by omega, by rw [hbase]; exact hmv.1, by rw [hbase]; exact hmv.2⟩
          exact ⟨fun _ => by omega, fun hn => absurd this hn⟩
        · have h1 := hb1b hmv
          have h2 := hb2b (fun hw => by have := hw.1; omega)
          refine ⟨fun hw => absurd ?_ hmv, fun _ => by omega⟩
          have h3 := hw.2.2
          rwa [hbase] at h3
      · have hnot : ¬ (eQb m (j + 1) = true ∧ isFirstOwner m (j + 1) none p) :=
          fun hw => hbase hw.2.1.2.2.2
        have h1 := hb1b hnot
        have hiff : movesWith m1 none (j + 1 + 1) (j + 1 + k + 1) p ↔
            movesWith m none (j + 1) (j + (k + 1) + 1) p := by
          unfold movesWith
          rw [h1]
          by_cases hr : j + 2 ≤ hBase m p ∧ hBase m p < j + k + 2
          · have hq1 : eQb m1 (hBase m p) = eQb m (hBase m p) := by
              have := congrArg Entry.qb (he1 (hBase m p))
              rwa [if_neg (by omega)] at this
            rw [hq1, isFirstOwner_congr hp hk1 (fun r hr' => ?_)]
            · constructor <;> rintro ⟨h1, h2, h3⟩ <;> exact ⟨by omega, by omega, h3⟩
            · obtain ⟨ha, hb⟩ := hb1 r hr'
              by_cases hmv : eQb m (j + 1) = true ∧ isFirstOwner m (j + 1) none r
              · have h5 := ha hmv
                have h6 : hBase m r = j + 1 := hmv.2.1.2.2.2
                omega
              · rw [hb hmv]
          · constructor <;> rintro ⟨h1, h2, -⟩ <;> omega
        rw [hiff, h1] at hb2a
        rw [hiff, h1] at hb2b
        exact ⟨hb2a, hb2b⟩

/-! ### The freeing loop -/

/-- All the loop of DESTROY can do, in range: the valid bits of the slots `[s, s + k)` and the marker
of the base are cleared, nothing else changes (43_engine.md R202). -/
theorem freeRun_spec (b : Nat) : ∀ (k s : Nat) (m : Memory), s + k ≤ 1484 →
    ∃ m', freeRun m b k s = .ok m' ∧ KeepsHeaders m m' ∧
      (∀ p < 64, hBase m' p = hBase m p) ∧
      ∀ x, entryAt m' x = if s ≤ x ∧ x < s + k
        then ⟨eQb m x && !decide (x = b), false, eValue m x⟩ else entryAt m x
  | 0, s, m, _ => ⟨m, rfl, KeepsHeaders.refl m, fun _ _ => rfl, fun x => by rw [if_neg (by omega)]⟩
  | k + 1, s, m, h => by
    have hs : s < 1484 := by omega
    have hstep : ∃ m1, (do
          let m1 ← setEntryValid m s false
          clearBaseMarker m1 b s) = .ok m1 ∧
        KeepsHeaders m m1 ∧ (∀ p < 64, hBase m1 p = hBase m p) ∧
        ∀ x, entryAt m1 x = if x = s then ⟨eQb m x && !decide (x = b), false, eValue m x⟩
          else entryAt m x := by
      have hk1 : KeepsHeaders m (m.withEntryValid s false) :=
        ⟨keepsForm_withEntryValid m hs _, by simp, fun p hp => by simp, fun p hp => by simp [hp]⟩
      rw [setEntryValid_eq m hs, Engine_ok_bind]
      unfold clearBaseMarker
      by_cases hb : s = b
      · rw [if_pos hb, setEntryBase_eq _ hs]
        refine ⟨_, rfl, hk1.trans ⟨keepsForm_withEntryBase _ hs _, by simp, fun p hp => by simp [hp],
          fun p hp => by simp [hp]⟩, fun p hp => by simp [hp], fun x => ?_⟩
        by_cases hx : x = s
        · subst hx
          simp [entryAt, eQb_withEntryBase, eValid_withEntryValid, hb]
        · simp [entryAt, eQb_withEntryBase, eValid_withEntryValid, hx]
      · rw [if_neg hb]
        refine ⟨_, rfl, hk1, fun p hp => by simp [hp], fun x => ?_⟩
        by_cases hx : x = s
        · subst hx
          simp [entryAt, eValid_withEntryValid, hb]
        · simp [entryAt, eValid_withEntryValid, hx]
    obtain ⟨m1, hm1, hk1, hb1, he1⟩ := hstep
    obtain ⟨m2, hm2, hk2, hb2, he2⟩ := freeRun_spec b k (s + 1) m1 (by omega)
    refine ⟨m2, ?_, hk1.trans hk2, fun p hp => (hb2 p hp).trans (hb1 p hp), fun x => ?_⟩
    · rw [setEntryValid_eq m hs, Engine_ok_bind] at hm1
      simp only [freeRun, setEntryValid_eq m hs, Engine_ok_bind, hm1, hm2]
    · have hq := congrArg Entry.qb (he1 x)
      have hv := congrArg Entry.value (he1 x)
      rw [he2]
      by_cases hx : x = s
      · rw [if_neg (by omega), if_pos (by omega), he1, if_pos hx]
      · rw [if_neg hx] at hq hv
        rw [entryAt_qb, entryAt_qb] at hq
        rw [entryAt_value, entryAt_value] at hv
        by_cases hr : s + 1 ≤ x ∧ x < s + 1 + k
        · rw [if_pos hr, if_pos (by omega), hq, hv]
        · rw [if_neg hr, if_neg (by omega), he1, if_neg hx]

/-! ### The loops keep the form wherever they answer -/

theorem moveEntry_keepsForm {m m' : Memory} {src dst : Nat} {ex : Option Nat}
    (h : moveEntry m src dst ex = .ok m') : KeepsForm m m' := by
  obtain ⟨m1, hc, -⟩ := Engine_bind_ok h
  obtain ⟨hs, hd, -⟩ := copyEntry_ok hc
  obtain ⟨m2, hm2, hk, -⟩ := moveEntry_spec m hs hd ex
  rw [hm2] at h
  cases h
  exact hk.toKeepsForm

theorem shiftRightLoop_keepsForm {q tail : Nat} :
    ∀ {k : Nat} {m m' : Memory}, shiftRightLoop m q tail k = .ok m' → KeepsForm m m'
  | 0, m, m', h => by cases h; exact KeepsForm.refl m
  | k + 1, m, m', h => by
    obtain ⟨m1, h1, h2⟩ := Engine_bind_ok h
    exact (moveEntry_keepsForm h1).trans (shiftRightLoop_keepsForm h2)

theorem shiftLeftLoop_keepsForm :
    ∀ {k j : Nat} {m m' : Memory}, shiftLeftLoop m k j = .ok m' → KeepsForm m m'
  | 0, _, m, m', h => by cases h; exact KeepsForm.refl m
  | k + 1, j, m, m', h => by
    obtain ⟨m1, h1, h2⟩ := Engine_bind_ok h
    exact (moveEntry_keepsForm h1).trans (shiftLeftLoop_keepsForm h2)

theorem freeRun_keepsForm {b : Nat} :
    ∀ {k s : Nat} {m m' : Memory}, freeRun m b k s = .ok m' → KeepsForm m m'
  | 0, _, m, m', h => by cases h; exact KeepsForm.refl m
  | k + 1, s, m, m', h => by
    obtain ⟨m1, h1, h2⟩ := Engine_bind_ok h
    obtain ⟨hs, rfl⟩ := setEntryValid_ok h1
    have k1 := keepsForm_withEntryValid m hs false
    obtain ⟨m2, h3, h4⟩ := Engine_bind_ok h2
    refine k1.trans (KeepsForm.trans ?_ (freeRun_keepsForm h4))
    unfold clearBaseMarker at h3
    split at h3
    · obtain ⟨hs2, rfl⟩ := setEntryBase_ok h3
      exact keepsForm_withEntryBase _ hs2 false
    · cases h3; exact KeepsForm.refl _

end Sys2Proof.Machine
end

