-- ==== Sys2Proof/Laws/State.lean ====
section
/-! SUPPORT. One lemma for each field after each update of State, and the values of the small finite
functions, so that no proof unfolds a record update. -/

namespace Sys2Proof.Machine

/-! ### `recordOutcome` -/

@[simp] theorem recordOutcome_arena (s : State) (c : Cause) : (s.recordOutcome c).arena = s.arena := rfl
@[simp] theorem recordOutcome_fsm (s : State) (c : Cause) : (s.recordOutcome c).fsm = s.fsm := rfl
@[simp] theorem recordOutcome_cmdbuf (s : State) (c : Cause) : (s.recordOutcome c).cmdbuf = s.cmdbuf := rfl
@[simp] theorem recordOutcome_lastErr (s : State) (c : Cause) : (s.recordOutcome c).lastErr = c.kind := rfl
@[simp] theorem recordOutcome_lastCause (s : State) (c : Cause) : (s.recordOutcome c).lastCause = c := rfl
@[simp] theorem recordOutcome_stickyIllop (s : State) (c : Cause) : (s.recordOutcome c).stickyIllop = (s.stickyIllop || decide (c.kind = .illegalOperation)) := rfl
@[simp] theorem recordOutcome_stickyOom (s : State) (c : Cause) : (s.recordOutcome c).stickyOom = (s.stickyOom || decide (c.kind = .outOfMemory)) := rfl
@[simp] theorem recordOutcome_stickyOverrun (s : State) (c : Cause) : (s.recordOutcome c).stickyOverrun = s.stickyOverrun := rfl
@[simp] theorem recordOutcome_result (s : State) (c : Cause) : (s.recordOutcome c).result = s.result := rfl
@[simp] theorem recordOutcome_hookIllop (s : State) (c : Cause) : (s.recordOutcome c).hookIllop = decide (c.kind = .illegalOperation) := rfl
@[simp] theorem recordOutcome_hookOom (s : State) (c : Cause) : (s.recordOutcome c).hookOom = decide (c.kind = .outOfMemory) := rfl
@[simp] theorem recordOutcome_hookLog (s : State) (c : Cause) : (s.recordOutcome c).hookLog = hookEvents c ++ s.hookLog := rfl
@[simp] theorem recordOutcome_busRdata (s : State) (c : Cause) : (s.recordOutcome c).busRdata = s.busRdata := rfl
@[simp] theorem recordOutcome_host (s : State) (c : Cause) : (s.recordOutcome c).host = s.host := rfl
@[simp] theorem recordOutcome_draws (s : State) (c : Cause) : (s.recordOutcome c).draws = s.draws := rfl

/-! ### `raiseError` -/

@[simp] theorem raiseError_arena (s : State) (c : Cause) : (s.raiseError c).arena = s.arena := rfl
@[simp] theorem raiseError_fsm (s : State) (c : Cause) : (s.raiseError c).fsm = .idle := rfl
@[simp] theorem raiseError_cmdbuf (s : State) (c : Cause) : (s.raiseError c).cmdbuf = s.cmdbuf := rfl
@[simp] theorem raiseError_lastErr (s : State) (c : Cause) : (s.raiseError c).lastErr = c.kind := rfl
@[simp] theorem raiseError_lastCause (s : State) (c : Cause) : (s.raiseError c).lastCause = c := rfl
@[simp] theorem raiseError_stickyIllop (s : State) (c : Cause) : (s.raiseError c).stickyIllop = (s.stickyIllop || decide (c.kind = .illegalOperation)) := rfl
@[simp] theorem raiseError_stickyOom (s : State) (c : Cause) : (s.raiseError c).stickyOom = (s.stickyOom || decide (c.kind = .outOfMemory)) := rfl
@[simp] theorem raiseError_stickyOverrun (s : State) (c : Cause) : (s.raiseError c).stickyOverrun = s.stickyOverrun := rfl
@[simp] theorem raiseError_result (s : State) (c : Cause) : (s.raiseError c).result = s.result := rfl
@[simp] theorem raiseError_hookIllop (s : State) (c : Cause) : (s.raiseError c).hookIllop = decide (c.kind = .illegalOperation) := rfl
@[simp] theorem raiseError_hookOom (s : State) (c : Cause) : (s.raiseError c).hookOom = decide (c.kind = .outOfMemory) := rfl
@[simp] theorem raiseError_hookLog (s : State) (c : Cause) : (s.raiseError c).hookLog = hookEvents c ++ s.hookLog := rfl
@[simp] theorem raiseError_busRdata (s : State) (c : Cause) : (s.raiseError c).busRdata = s.busRdata := rfl
@[simp] theorem raiseError_host (s : State) (c : Cause) : (s.raiseError c).host = s.host := rfl
@[simp] theorem raiseError_draws (s : State) (c : Cause) : (s.raiseError c).draws = s.draws := rfl

/-! ### `succeed` -/

@[simp] theorem succeed_arena (s : State) (m : Memory) (r : Nat) : (s.succeed m r).arena = m := rfl
@[simp] theorem succeed_fsm (s : State) (m : Memory) (r : Nat) : (s.succeed m r).fsm = .idle := rfl
@[simp] theorem succeed_cmdbuf (s : State) (m : Memory) (r : Nat) : (s.succeed m r).cmdbuf = s.cmdbuf := rfl
@[simp] theorem succeed_lastErr (s : State) (m : Memory) (r : Nat) : (s.succeed m r).lastErr = .success := rfl
@[simp] theorem succeed_lastCause (s : State) (m : Memory) (r : Nat) : (s.succeed m r).lastCause = .none := rfl
@[simp] theorem succeed_stickyIllop (s : State) (m : Memory) (r : Nat) : (s.succeed m r).stickyIllop = s.stickyIllop := by simp [State.succeed, State.recordOutcome, Cause.kind]
@[simp] theorem succeed_stickyOom (s : State) (m : Memory) (r : Nat) : (s.succeed m r).stickyOom = s.stickyOom := by simp [State.succeed, State.recordOutcome, Cause.kind]
@[simp] theorem succeed_stickyOverrun (s : State) (m : Memory) (r : Nat) : (s.succeed m r).stickyOverrun = s.stickyOverrun := rfl
@[simp] theorem succeed_result (s : State) (m : Memory) (r : Nat) : (s.succeed m r).result = BitVec.ofNat 32 r := rfl
@[simp] theorem succeed_hookIllop (s : State) (m : Memory) (r : Nat) : (s.succeed m r).hookIllop = false := rfl
@[simp] theorem succeed_hookOom (s : State) (m : Memory) (r : Nat) : (s.succeed m r).hookOom = false := rfl
@[simp] theorem succeed_hookLog (s : State) (m : Memory) (r : Nat) : (s.succeed m r).hookLog = s.hookLog := rfl
@[simp] theorem succeed_busRdata (s : State) (m : Memory) (r : Nat) : (s.succeed m r).busRdata = s.busRdata := rfl
@[simp] theorem succeed_host (s : State) (m : Memory) (r : Nat) : (s.succeed m r).host = s.host := rfl
@[simp] theorem succeed_draws (s : State) (m : Memory) (r : Nat) : (s.succeed m r).draws = s.draws := rfl

/-! ### `beginStep` -/

@[simp] theorem beginStep_arena (s : State) : (s.beginStep).arena = s.arena := rfl
@[simp] theorem beginStep_fsm (s : State) : (s.beginStep).fsm = s.fsm := rfl
@[simp] theorem beginStep_cmdbuf (s : State) : (s.beginStep).cmdbuf = s.cmdbuf := rfl
@[simp] theorem beginStep_lastErr (s : State) : (s.beginStep).lastErr = s.lastErr := rfl
@[simp] theorem beginStep_lastCause (s : State) : (s.beginStep).lastCause = s.lastCause := rfl
@[simp] theorem beginStep_stickyIllop (s : State) : (s.beginStep).stickyIllop = s.stickyIllop := rfl
@[simp] theorem beginStep_stickyOom (s : State) : (s.beginStep).stickyOom = s.stickyOom := rfl
@[simp] theorem beginStep_stickyOverrun (s : State) : (s.beginStep).stickyOverrun = s.stickyOverrun := rfl
@[simp] theorem beginStep_result (s : State) : (s.beginStep).result = s.result := rfl
@[simp] theorem beginStep_hookIllop (s : State) : (s.beginStep).hookIllop = false := rfl
@[simp] theorem beginStep_hookOom (s : State) : (s.beginStep).hookOom = false := rfl
@[simp] theorem beginStep_hookLog (s : State) : (s.beginStep).hookLog = s.hookLog := rfl
@[simp] theorem beginStep_busRdata (s : State) : (s.beginStep).busRdata = s.busRdata := rfl
@[simp] theorem beginStep_host (s : State) : (s.beginStep).host = s.host.tail := rfl
@[simp] theorem beginStep_draws (s : State) : (s.beginStep).draws = s.draws := rfl

/-! ### `applyReset` -/

@[simp] theorem applyReset_arena (s : State) : (s.applyReset).arena = [] := rfl
@[simp] theorem applyReset_fsm (s : State) : (s.applyReset).fsm = .idle := rfl
@[simp] theorem applyReset_cmdbuf (s : State) : (s.applyReset).cmdbuf = 0#32 := rfl
@[simp] theorem applyReset_lastErr (s : State) : (s.applyReset).lastErr = .success := rfl
@[simp] theorem applyReset_lastCause (s : State) : (s.applyReset).lastCause = .none := rfl
@[simp] theorem applyReset_stickyIllop (s : State) : (s.applyReset).stickyIllop = false := rfl
@[simp] theorem applyReset_stickyOom (s : State) : (s.applyReset).stickyOom = false := rfl
@[simp] theorem applyReset_stickyOverrun (s : State) : (s.applyReset).stickyOverrun = false := rfl
@[simp] theorem applyReset_result (s : State) : (s.applyReset).result = 0#32 := rfl
@[simp] theorem applyReset_hookIllop (s : State) : (s.applyReset).hookIllop = false := rfl
@[simp] theorem applyReset_hookOom (s : State) : (s.applyReset).hookOom = false := rfl
@[simp] theorem applyReset_hookLog (s : State) : (s.applyReset).hookLog = s.hookLog := rfl
@[simp] theorem applyReset_busRdata (s : State) : (s.applyReset).busRdata = 0#32 := rfl
@[simp] theorem applyReset_host (s : State) : (s.applyReset).host = s.host := rfl
@[simp] theorem applyReset_draws (s : State) : (s.applyReset).draws = s.draws := rfl

/-! ### `drawRead` -/

@[simp] theorem drawRead_arena (s : State) : (drawRead s).arena = s.arena := rfl
@[simp] theorem drawRead_fsm (s : State) : (drawRead s).fsm = s.fsm := rfl
@[simp] theorem drawRead_cmdbuf (s : State) : (drawRead s).cmdbuf = s.cmdbuf := rfl
@[simp] theorem drawRead_lastErr (s : State) : (drawRead s).lastErr = s.lastErr := rfl
@[simp] theorem drawRead_lastCause (s : State) : (drawRead s).lastCause = s.lastCause := rfl
@[simp] theorem drawRead_stickyIllop (s : State) : (drawRead s).stickyIllop = s.stickyIllop := rfl
@[simp] theorem drawRead_stickyOom (s : State) : (drawRead s).stickyOom = s.stickyOom := rfl
@[simp] theorem drawRead_stickyOverrun (s : State) : (drawRead s).stickyOverrun = s.stickyOverrun := rfl
@[simp] theorem drawRead_result (s : State) : (drawRead s).result = s.result := rfl
@[simp] theorem drawRead_hookIllop (s : State) : (drawRead s).hookIllop = s.hookIllop := rfl
@[simp] theorem drawRead_hookOom (s : State) : (drawRead s).hookOom = s.hookOom := rfl
@[simp] theorem drawRead_hookLog (s : State) : (drawRead s).hookLog = s.hookLog := rfl
@[simp] theorem drawRead_busRdata (s : State) : (drawRead s).busRdata = Config.arenaDraw s.draws := rfl
@[simp] theorem drawRead_host (s : State) : (drawRead s).host = s.host := rfl
@[simp] theorem drawRead_draws (s : State) : (drawRead s).draws = s.draws + 1 := rfl

/-! ### `withFetchWord` -/

@[simp] theorem withFetchWord_arena (s : State) (n w : Nat) : (s.withFetchWord n w).arena = s.arena := rfl
@[simp] theorem withFetchWord_fsm (s : State) (n w : Nat) : (s.withFetchWord n w).fsm = .busy := rfl
@[simp] theorem withFetchWord_cmdbuf (s : State) (n w : Nat) : (s.withFetchWord n w).cmdbuf = tableWord n w := rfl
@[simp] theorem withFetchWord_lastErr (s : State) (n w : Nat) : (s.withFetchWord n w).lastErr = s.lastErr := rfl
@[simp] theorem withFetchWord_lastCause (s : State) (n w : Nat) : (s.withFetchWord n w).lastCause = s.lastCause := rfl
@[simp] theorem withFetchWord_stickyIllop (s : State) (n w : Nat) : (s.withFetchWord n w).stickyIllop = s.stickyIllop := rfl
@[simp] theorem withFetchWord_stickyOom (s : State) (n w : Nat) : (s.withFetchWord n w).stickyOom = s.stickyOom := rfl
@[simp] theorem withFetchWord_stickyOverrun (s : State) (n w : Nat) : (s.withFetchWord n w).stickyOverrun = s.stickyOverrun := rfl
@[simp] theorem withFetchWord_result (s : State) (n w : Nat) : (s.withFetchWord n w).result = s.result := rfl
@[simp] theorem withFetchWord_hookIllop (s : State) (n w : Nat) : (s.withFetchWord n w).hookIllop = s.hookIllop := rfl
@[simp] theorem withFetchWord_hookOom (s : State) (n w : Nat) : (s.withFetchWord n w).hookOom = s.hookOom := rfl
@[simp] theorem withFetchWord_hookLog (s : State) (n w : Nat) : (s.withFetchWord n w).hookLog = s.hookLog := rfl
@[simp] theorem withFetchWord_busRdata (s : State) (n w : Nat) : (s.withFetchWord n w).busRdata = s.busRdata := rfl
@[simp] theorem withFetchWord_host (s : State) (n w : Nat) : (s.withFetchWord n w).host = .quiet :: s.host := rfl
@[simp] theorem withFetchWord_draws (s : State) (n w : Nat) : (s.withFetchWord n w).draws = s.draws := rfl

/-! ### The parameters -/

@[simp] theorem maxEntries_eq : Config.maxEntries = 1484 := rfl
@[simp] theorem maxQueues_eq : Config.maxQueues = 64 := rfl
@[simp] theorem invalidEntry_eq : Config.invalidEntry = 1484 := rfl
@[simp] theorem afterError_onError : Fsm.afterError Config.onError = .idle := rfl

/-! ### The three outcomes of a command -/

@[simp] theorem finish_ok (s : State) (m : Memory) (r : Nat) :
    s.finish (.ok (m, r)) = .next (s.succeed m r) := rfl
@[simp] theorem finish_raise (s : State) (c : Cause) :
    s.finish (.error (.raise c)) = .next (s.raiseError c) := rfl
@[simp] theorem finish_internal (s : State) :
    s.finish (.error .internal) = .refused .internal := rfl

/-- Everything a completion can do: succeed, raise, or refuse. -/
theorem finish_next {s t : State} {r : Engine (Memory × Nat)} (h : s.finish r = .next t) :
    (∃ m v, r = .ok (m, v) ∧ t = s.succeed m v) ∨ (∃ c, r = .error (.raise c) ∧ t = s.raiseError c) := by
  match r with
  | .ok (m, v) => exact .inl ⟨m, v, rfl, by simpa using h.symm⟩
  | .error (.raise c) => exact .inr ⟨c, rfl, by simpa using h.symm⟩
  | .error .internal => simp at h

/-! ### CMD writes -/

theorem writeCmd_idle {s : State} (h : s.fsm = .idle) (w : Word) :
    writeCmd s w = { s with cmdbuf := w, fsm := .busy } := by simp [writeCmd, h]
theorem writeCmd_not_idle {s : State} (h : s.fsm ≠ .idle) (w : Word) :
    writeCmd s w = { s with stickyOverrun := true } := by
  cases hf : s.fsm <;> simp_all [writeCmd]

/-! ### Codes and kinds -/

@[simp] theorem kind_none : Cause.none.kind = .success := rfl
@[simp] theorem kind_noFreeHeader : Cause.noFreeHeader.kind = .illegalOperation := rfl
@[simp] theorem kind_nullHandle : Cause.nullHandle.kind = .illegalOperation := rfl
@[simp] theorem kind_invalidHandle : Cause.invalidHandle.kind = .illegalOperation := rfl
@[simp] theorem kind_emptyQueue : Cause.emptyQueue.kind = .illegalOperation := rfl
@[simp] theorem kind_reservedOpcode : Cause.reservedOpcode.kind = .illegalOperation := rfl
@[simp] theorem kind_reservedBits : Cause.reservedBits.kind = .illegalOperation := rfl
@[simp] theorem kind_badField : Cause.badField.kind = .illegalOperation := rfl
@[simp] theorem kind_noFreeSlot : Cause.noFreeSlot.kind = .outOfMemory := rfl

theorem kind_success_iff (c : Cause) : c.kind = .success ↔ c = .none := by cases c <;> decide
theorem kind_oom_iff (c : Cause) : c.kind = .outOfMemory ↔ c = .noFreeSlot := by cases c <;> decide

/-! ### The kinds of step -/

theorem step_quiet {s : State} (h : s.nextEvent = .quiet) : step s = engineTurn s.beginStep := by
  simp [step, h]
theorem step_event {s : State} (h : s.nextEvent ≠ .quiet) :
    step s = hostTurn s.nextEvent s.beginStep := by
  unfold step; split <;> simp_all
theorem engineTurn_command {s : State} {i : Instr} (hb : s.fsm = .busy) (hd : decode s.cmdbuf = .ok i) :
    engineTurn s = exec i s := by simp [engineTurn, hb, hd]
theorem engineTurn_illegal {s : State} {e : Illegal} (hb : s.fsm = .busy)
    (hd : decode s.cmdbuf = .error e) : engineTurn s = .next (s.raiseError (illegalCause e)) := by
  simp [engineTurn, hb, hd]
theorem engineTurn_not_busy {s : State} (hb : s.fsm ≠ .busy) : engineTurn s = .next s := by
  cases hf : s.fsm <;> simp_all [engineTurn]

end Sys2Proof.Machine
end

