-- ==== Sys2Proof/Laws/Frames.lean ====
section
/-! SUPPORT. How a command ends, said once; what stays outside a set of bits; and that the records
tile the arena, so that equal records are equal bits (20_memory.md R61). -/

namespace Sys2Proof.Machine

/-! ### How a command ends -/

theorem endsInSuccess_succeed (s : State) (m : Memory) {r : Nat} (hr : r < 2 ^ 32) :
    EndsInSuccess s (s.succeed m r) r := by
  constructor <;> simp
  omega

theorem endsInIllegal_raise (s : State) {c : Cause} (hc : c.kind = .illegalOperation) :
    EndsInIllegal s (s.raiseError c) c := by
  constructor <;> simp [hc, hookEvents]

theorem endsInOutOfMemory_raise (s : State) : EndsInOutOfMemory s (s.raiseError .noFreeSlot) := by
  constructor <;> simp [hookEvents]

/-! ### Outside a set of bits -/

theorem sameOutside_of_bits {m m' : Memory} {P : Nat → Prop} (h : ∀ k, ¬ P k → m'.bit k = m.bit k) :
    sameOutside m m' P :=
  ⟨h, fun _ ha => read_eq_of_bit_eq (fun j hj => h _ (ha j hj))⟩

theorem sameOutside_refl (m : Memory) (P : Nat → Prop) : sameOutside m m P :=
  sameOutside_of_bits (fun _ _ => rfl)

theorem sameOutside_trans {a b c : Memory} {P : Nat → Prop} (h : sameOutside a b P)
    (g : sameOutside b c P) : sameOutside a c P :=
  sameOutside_of_bits (fun k hk => (g.1 k hk).trans (h.1 k hk))

theorem sameOutside_mono {m m' : Memory} {P Q : Nat → Prop} (h : sameOutside m m' P)
    (hpq : ∀ k, P k → Q k) : sameOutside m m' Q :=
  sameOutside_of_bits (fun k hk => h.1 k (fun hp => hk (hpq k hp)))

theorem sameOutside_putBits (m : Memory) {o w : Nat} (v : Nat) {P : Nat → Prop}
    (h : ∀ k, o ≤ k → k < o + w → P k) : sameOutside m (m.putBits o w v) P :=
  sameOutside_of_bits (fun k hk => bit_putBits_outside m v (by
    by_contra hc; exact hk (h k (by omega) (by omega))))

theorem sameOutside_withCount (m : Memory) (n : Nat) {P : Nat → Prop} (h : ∀ k < 8, P k) :
    sameOutside m (m.withCount n) P := sameOutside_putBits m _ (fun k _ h2 => h k (by omega))
theorem sameOutside_withValid (m : Memory) (q : Nat) (b : Bool) {P : Nat → Prop}
    (h : P (8 + 24 * q)) : sameOutside m (m.withValid q b) P :=
  sameOutside_putBits m _ (fun k h1 h2 => by rwa [show k = 8 + 24 * q by omega])
theorem sameOutside_withBase (m : Memory) (q b : Nat) {P : Nat → Prop} (h : ∀ k, baseBit q k → P k) :
    sameOutside m (m.withBase q b) P :=
  sameOutside_putBits m _ (fun k h1 h2 => h k ⟨h1, by omega⟩)
theorem sameOutside_withLength (m : Memory) (q n : Nat) {P : Nat → Prop}
    (h : ∀ k, lengthBit q k → P k) : sameOutside m (m.withLength q n) P :=
  sameOutside_putBits m _ (fun k h1 h2 => h k ⟨h1, by omega⟩)
theorem sameOutside_withEntry (m : Memory) (s : Nat) (e : Entry) {P : Nat → Prop}
    (h : ∀ k, entryBit s k → P k) : sameOutside m (m.withEntry s e) P :=
  sameOutside_putBits m _ (fun k h1 h2 => h k ⟨h1, by omega⟩)
theorem sameOutside_withEntryValid (m : Memory) (s : Nat) (b : Bool) {P : Nat → Prop}
    (h : P (1545 + 10 * s)) : sameOutside m (m.withEntryValid s b) P :=
  sameOutside_putBits m _ (fun k h1 h2 => by rwa [show k = 1545 + 10 * s by omega])
theorem sameOutside_withEntryBase (m : Memory) (s : Nat) (b : Bool) {P : Nat → Prop}
    (h : P (1544 + 10 * s)) : sameOutside m (m.withEntryBase s b) P :=
  sameOutside_putBits m _ (fun k h1 h2 => by rwa [show k = 1544 + 10 * s by omega])

/-! ### The records tile the arena -/

/-- Every bit is the counter's, a header field's, a pad bit, an entry's, or beyond the arena. -/
theorem bit_place (k : Nat) : k < 8 ∨
    (∃ q < 64, k = 8 + 24 * q ∨ baseBit q k ∨ lengthBit q k ∨ k = 31 + 24 * q) ∨
    (∃ s < 1484, entryBit s k) ∨ 16384 ≤ k := by
  rcases Nat.lt_or_ge k 8 with h | h
  · exact .inl h
  · rcases Nat.lt_or_ge k 1544 with h1 | h1
    · refine .inr (.inl ⟨(k - 8) / 24, by omega, ?_⟩)
      unfold baseBit lengthBit
      omega
    · rcases Nat.lt_or_ge k 16384 with h2 | h2
      · refine .inr (.inr (.inl ⟨(k - 1544) / 10, by omega, ?_⟩))
        unfold entryBit
        omega
      · exact .inr (.inr (.inr h2))

/-- Equal fields are equal bits. -/
theorem bit_eq_of_bits_eq {m m' : Memory} {o w k : Nat} (h : m'.bits o w = m.bits o w)
    (h1 : o ≤ k) (h2 : k < o + w) : m'.bit k = m.bit k := by
  have ht := congrArg (fun n => n.testBit (o + w - 1 - k)) h
  simp only [testBit_bits, show o + w - 1 - (o + w - 1 - k) = k by omega] at ht
  have hw : o + w - 1 - k < w := by omega
  simpa [hw] using ht

theorem bit_eq_of_countOf {m m' : Memory} (h : countOf m' = countOf m) {k : Nat} (hk : k < 8) :
    m'.bit k = m.bit k := bit_eq_of_bits_eq h (Nat.zero_le k) (by omega)
theorem bit_eq_of_hBase {m m' : Memory} {q : Nat} (h : hBase m' q = hBase m q) {k : Nat}
    (hk : baseBit q k) : m'.bit k = m.bit k :=
  bit_eq_of_bits_eq h hk.1 (by have := hk.2; omega)
theorem bit_eq_of_hLength {m m' : Memory} {q : Nat} (h : hLength m' q = hLength m q) {k : Nat}
    (hk : lengthBit q k) : m'.bit k = m.bit k :=
  bit_eq_of_bits_eq h hk.1 (by have := hk.2; omega)
theorem bit_eq_of_entryAt {m m' : Memory} {s : Nat} (h : entryAt m' s = entryAt m s) {k : Nat}
    (hk : entryBit s k) : m'.bit k = m.bit k := by
  obtain ⟨h1, h2⟩ := hk
  have hq := congrArg Entry.qb h
  have hv := congrArg Entry.valid h
  have hx := congrArg (fun e => e.value.toNat) h
  simp only [entryAt_qb, entryAt_valid, entryAt_value, eValue, BitVec.toNat_ofNat,
    Nat.mod_eq_of_lt (bits_lt _ _ 8)] at hq hv hx
  by_cases ha : k = 1544 + 10 * s
  · rw [ha]; exact hq
  · by_cases hb : k = 1545 + 10 * s
    · rw [hb]; exact hv
    · exact bit_eq_of_bits_eq hx (by omega) (by omega)

end Sys2Proof.Machine
end

