-- ==== Sys2Proof/Laws/Commands.lean ====
section
/-! SUPPORT. The commands as wholes: how each may end, with which causes, and that each keeps the
arena's form wherever it answers (43_engine.md, 60_exceptions.md R301, R303). -/

namespace Sys2Proof.Machine

/-! ### Every command ends in a completion -/

/-- The engine computation of a command. -/
def command : Instr → Memory → Engine (Memory × Nat)
  | .create, m => createQueue m
  | .destroy q, m => destroyQueue m q
  | .enq q d, m => enqueueByte m q d
  | .deq q, m => dequeueByte m q
  | .rdfield o w, m => rdfield m o w

/-- Each command is its engine computation and the completion. -/
theorem exec_eq_finish (i : Instr) (s : State) : exec i s = s.finish (command i s.arena) := by
  cases i <;> rfl

/-- A BUSY engine left alone runs its command or ends in the error of an illegal word. -/
theorem step_busy_quiet {s : State} (hb : s.fsm = .busy) (hq : s.nextEvent = .quiet) :
    (∃ i, decode s.cmdbuf = .ok i ∧ step s = exec i s.beginStep) ∨
    ∃ e, decode s.cmdbuf = .error e ∧ step s = .next (s.beginStep.raiseError (illegalCause e)) := by
  rw [step_quiet hq]
  have hb' : s.beginStep.fsm = .busy := hb
  cases hd : decode s.cmdbuf with
  | ok i => exact .inl ⟨i, rfl, engineTurn_command hb' hd⟩
  | error e => exact .inr ⟨e, rfl, engineTurn_illegal hb' hd⟩

/-! ### Which causes a command may raise -/

/-- `x` raises no cause but those of `P`. -/
def RaisesOnly {α : Type} (P : Cause → Prop) (x : Engine α) : Prop :=
  ∀ c, x = .error (.raise c) → P c

theorem raisesOnly_ok {α : Type} (P : Cause → Prop) (a : α) : RaisesOnly P (.ok a : Engine α) :=
  fun c h => by simp at h
theorem raisesOnly_internal {α : Type} (P : Cause → Prop) : RaisesOnly P (.error .internal : Engine α) :=
  fun c h => by simp at h
theorem raisesOnly_raise {α : Type} {P : Cause → Prop} {c : Cause} (h : P c) :
    RaisesOnly P (.error (.raise c) : Engine α) := fun d hd => by
  have : c = d := by simpa using hd
  exact this ▸ h
theorem raisesOnly_bind {α β : Type} {P : Cause → Prop} {x : Engine α} {f : α → Engine β}
    (hx : RaisesOnly P x) (hf : ∀ a, RaisesOnly P (f a)) : RaisesOnly P (x >>= f) := fun c h => by
  cases x with
  | ok a => exact hf a c (by simpa using h)
  | error e => exact hx c (by simpa using h)
theorem raisesOnly_mono {α : Type} {P Q : Cause → Prop} {x : Engine α} (h : RaisesOnly P x)
    (hPQ : ∀ c, P c → Q c) : RaisesOnly Q x := fun c hc => hPQ c (h c hc)
theorem raisesOnly_ite {α : Type} {P : Cause → Prop} {p : Prop} [Decidable p] {x y : Engine α}
    (hx : RaisesOnly P x) (hy : RaisesOnly P y) : RaisesOnly P (if p then x else y) := by
  split
  · exact hx
  · exact hy

theorem raisesOnly_checkQid (P : Cause → Prop) (q : Nat) : RaisesOnly P (checkQid q) :=
  raisesOnly_ite (raisesOnly_ok P _) (raisesOnly_internal P)
theorem raisesOnly_checkSlot (P : Cause → Prop) (s : Nat) : RaisesOnly P (checkSlot s) :=
  raisesOnly_ite (raisesOnly_ok P _) (raisesOnly_internal P)
theorem raisesOnly_fieldRead (P : Cause → Prop) (m : Memory) (o w : Nat) :
    RaisesOnly P (fieldRead m o w) := raisesOnly_ite (raisesOnly_ok P _) (raisesOnly_internal P)
theorem raisesOnly_fieldWrite (P : Cause → Prop) (m : Memory) (o w v : Nat) :
    RaisesOnly P (fieldWrite m o w v) := raisesOnly_ite (raisesOnly_ok P _) (raisesOnly_internal P)

theorem raisesOnly_getValid (P : Cause → Prop) (m : Memory) (q : Nat) : RaisesOnly P (getValid m q) :=
  raisesOnly_bind (raisesOnly_checkQid P q) fun _ =>
    raisesOnly_bind (raisesOnly_fieldRead P _ _ _) fun _ => raisesOnly_ok P _
theorem raisesOnly_getBase (P : Cause → Prop) (m : Memory) (q : Nat) : RaisesOnly P (getBase m q) :=
  raisesOnly_bind (raisesOnly_checkQid P q) fun _ => raisesOnly_fieldRead P _ _ _
theorem raisesOnly_getLength (P : Cause → Prop) (m : Memory) (q : Nat) : RaisesOnly P (getLength m q) :=
  raisesOnly_bind (raisesOnly_checkQid P q) fun _ => raisesOnly_fieldRead P _ _ _
theorem raisesOnly_setValid (P : Cause → Prop) (m : Memory) (q : Nat) (v : Bool) :
    RaisesOnly P (setValid m q v) :=
  raisesOnly_bind (raisesOnly_checkQid P q) fun _ => raisesOnly_fieldWrite P _ _ _ _
theorem raisesOnly_setBase (P : Cause → Prop) (m : Memory) (q b : Nat) : RaisesOnly P (setBase m q b) :=
  raisesOnly_bind (raisesOnly_checkQid P q) fun _ => raisesOnly_fieldWrite P _ _ _ _
theorem raisesOnly_setLength (P : Cause → Prop) (m : Memory) (q n : Nat) :
    RaisesOnly P (setLength m q n) :=
  raisesOnly_bind (raisesOnly_checkQid P q) fun _ => raisesOnly_fieldWrite P _ _ _ _
theorem raisesOnly_readEntry (P : Cause → Prop) (m : Memory) (s : Nat) : RaisesOnly P (readEntry m s) :=
  raisesOnly_bind (raisesOnly_checkSlot P s) fun _ =>
    raisesOnly_bind (raisesOnly_fieldRead P _ _ _) fun _ => raisesOnly_ok P _
theorem raisesOnly_writeEntry (P : Cause → Prop) (m : Memory) (s : Nat) (e : Entry) :
    RaisesOnly P (writeEntry m s e) :=
  raisesOnly_bind (raisesOnly_checkSlot P s) fun _ => raisesOnly_fieldWrite P _ _ _ _
theorem raisesOnly_setEntryValid (P : Cause → Prop) (m : Memory) (s : Nat) (b : Bool) :
    RaisesOnly P (setEntryValid m s b) :=
  raisesOnly_bind (raisesOnly_checkSlot P s) fun _ => raisesOnly_fieldWrite P _ _ _ _
theorem raisesOnly_setEntryBase (P : Cause → Prop) (m : Memory) (s : Nat) (b : Bool) :
    RaisesOnly P (setEntryBase m s b) :=
  raisesOnly_bind (raisesOnly_checkSlot P s) fun _ => raisesOnly_fieldWrite P _ _ _ _

theorem raisesOnly_moveEntry (P : Cause → Prop) (m : Memory) (a b : Nat) (ex : Option Nat) :
    RaisesOnly P (moveEntry m a b ex) := by
  refine raisesOnly_bind (raisesOnly_bind (raisesOnly_readEntry P _ _) fun _ =>
    raisesOnly_writeEntry P _ _ _) fun m1 => raisesOnly_bind (raisesOnly_readEntry P _ _) fun e => ?_
  split
  · obtain ⟨o, ho, -⟩ := findOwner_spec m1 a ex
    rw [ho, Engine_ok_bind]
    cases o with
    | some p => exact raisesOnly_setBase P _ _ _
    | none => exact raisesOnly_ok P _
  · exact raisesOnly_ok P _

theorem raisesOnly_shiftRightLoop (P : Cause → Prop) (q tail : Nat) : ∀ (k : Nat) (m : Memory),
    RaisesOnly P (shiftRightLoop m q tail k)
  | 0, _ => raisesOnly_ok P _
  | k + 1, _ => raisesOnly_bind (raisesOnly_moveEntry P _ _ _ _) fun m1 =>
      raisesOnly_shiftRightLoop P q tail k m1

theorem raisesOnly_shiftLeftLoop (P : Cause → Prop) : ∀ (k j : Nat) (m : Memory),
    RaisesOnly P (shiftLeftLoop m k j)
  | 0, _, _ => raisesOnly_ok P _
  | k + 1, j, _ => raisesOnly_bind (raisesOnly_moveEntry P _ _ _ _) fun m1 =>
      raisesOnly_shiftLeftLoop P k (j + 1) m1

theorem raisesOnly_freeRun (P : Cause → Prop) (b : Nat) : ∀ (k s : Nat) (m : Memory),
    RaisesOnly P (freeRun m b k s)
  | 0, _, _ => raisesOnly_ok P _
  | k + 1, s, _ => raisesOnly_bind (raisesOnly_setEntryValid P _ _ _) fun m1 =>
      raisesOnly_bind (raisesOnly_ite (raisesOnly_setEntryBase P m1 s false) (raisesOnly_ok P m1))
        fun m2 => raisesOnly_freeRun P b k (s + 1) m2

/-- The handle check raises NULL_HANDLE or INVALID_HANDLE (43_engine.md R200). -/
theorem raisesOnly_checkHandle (m : Memory) (q : Nat) :
    RaisesOnly (fun c => c = .nullHandle ∨ c = .invalidHandle) (checkHandle m q) := by
  rcases checkHandle_cases m q with ⟨-, h⟩ | ⟨-, -, h⟩ | ⟨-, -, h⟩ <;> rw [h]
  · exact raisesOnly_raise (.inl rfl)
  · exact raisesOnly_raise (.inr rfl)
  · exact raisesOnly_ok _ _

/-- CREATE raises NO_FREE_HEADER (43_engine.md R201). -/
theorem raisesOnly_createQueue (m : Memory) : RaisesOnly (· = .noFreeHeader) (createQueue m) := by
  unfold createQueue
  obtain ⟨o, ho, -⟩ := findFreeHeader_spec m
  rw [ho, Engine_ok_bind]
  cases o with
  | none => exact raisesOnly_raise rfl
  | some q =>
    refine raisesOnly_bind (raisesOnly_setValid _ _ _ _) fun m1 => ?_
    rw [incrementCount_eq, Engine_ok_bind]
    obtain ⟨x, hx, -⟩ := findFreeSlotUp_spec (m1.withCount (countOf m1 + 1)) 0
    rw [hx, Engine_ok_bind]
    exact raisesOnly_bind (raisesOnly_setBase _ _ _ _) fun _ =>
      raisesOnly_bind (raisesOnly_setLength _ _ _ _) fun _ => raisesOnly_ok _ _

/-- DESTROY raises the two handle causes (43_engine.md R202). -/
theorem raisesOnly_destroyQueue (m : Memory) (q : Nat) :
    RaisesOnly (fun c => c = .nullHandle ∨ c = .invalidHandle) (destroyQueue m q) := by
  refine raisesOnly_bind (raisesOnly_checkHandle m q) fun _ =>
    raisesOnly_bind (raisesOnly_getBase _ _ _) fun _ =>
    raisesOnly_bind (raisesOnly_getLength _ _ _) fun _ =>
    raisesOnly_bind (raisesOnly_freeRun _ _ _ _ _) fun _ =>
    raisesOnly_bind (raisesOnly_setLength _ _ _ _) fun _ =>
    raisesOnly_bind (raisesOnly_setBase _ _ _ _) fun _ =>
    raisesOnly_bind (raisesOnly_setValid _ _ _ _) fun m4 => ?_
  rw [decrementCount_eq, Engine_ok_bind]
  exact raisesOnly_ok _ _

/-- The case analysis of ENQ raises NO_FREE_SLOT (43_engine.md R212). -/
theorem raisesOnly_enqueueAt (m : Memory) (q : Nat) (d : Byte) (b n : Nat) :
    RaisesOnly (· = .noFreeSlot) (enqueueAt m q d b n) := by
  refine raisesOnly_bind (raisesOnly_ite (raisesOnly_bind (raisesOnly_readEntry _ _ _) fun _ =>
    raisesOnly_ok _ _) (raisesOnly_ok _ _)) fun fast => raisesOnly_ite
    (raisesOnly_bind (raisesOnly_writeEntry _ _ _ _) fun _ => raisesOnly_setLength _ _ _ _) ?_
  obtain ⟨o, ho, -⟩ := findFreeSlotUp_spec m (b + n)
  rw [ho, Engine_ok_bind]
  have two : ∀ i e, RaisesOnly (· = .noFreeSlot) (do
      let m1 ← writeEntry m i e
      let m2 ← setBase m1 q i
      setLength m2 q 1) := fun i e =>
    raisesOnly_bind (raisesOnly_writeEntry _ _ _ _) fun _ =>
      raisesOnly_bind (raisesOnly_setBase _ _ _ _) fun _ => raisesOnly_setLength _ _ _ _
  cases o with
  | some i =>
    refine raisesOnly_ite (raisesOnly_bind (raisesOnly_writeEntry _ _ _ _) fun _ =>
      raisesOnly_setLength _ _ _ _) (raisesOnly_ite (two i _) ?_)
    exact raisesOnly_bind (raisesOnly_shiftRightLoop _ _ _ _ _) fun _ =>
      raisesOnly_bind (raisesOnly_writeEntry _ _ _ _) fun _ => raisesOnly_setLength _ _ _ _
  | none =>
    rcases Nat.lt_or_ge 1484 b with hb | hb
    · rw [findFreeSlotBelow_internal m hb]; exact raisesOnly_internal _
    · obtain ⟨o, ho, -⟩ := findFreeSlotBelow_spec m b hb
      rw [ho, Engine_ok_bind]
      cases o with
      | some i =>
        refine raisesOnly_ite (two i _) ?_
        exact raisesOnly_bind (raisesOnly_shiftLeftLoop _ _ _ _) fun _ =>
          raisesOnly_bind (raisesOnly_writeEntry _ _ _ _) fun _ => raisesOnly_setLength _ _ _ _
      | none => exact raisesOnly_raise rfl

/-- ENQ raises the two handle causes and NO_FREE_SLOT (43_engine.md R203, R212). -/
theorem raisesOnly_enqueueByte (m : Memory) (q : Nat) (d : Byte) :
    RaisesOnly (fun c => c = .nullHandle ∨ c = .invalidHandle ∨ c = .noFreeSlot) (enqueueByte m q d) :=
  raisesOnly_bind (raisesOnly_mono (raisesOnly_checkHandle m q) (fun _ h => by tauto)) fun _ =>
    raisesOnly_bind (raisesOnly_getBase _ _ _) fun _ =>
    raisesOnly_bind (raisesOnly_getLength _ _ _) fun _ =>
    raisesOnly_bind (raisesOnly_mono (raisesOnly_enqueueAt _ _ _ _ _) (fun _ h => .inr (.inr h))) fun _ =>
    raisesOnly_ok _ _

/-- DEQ raises the two handle causes and EMPTY_QUEUE (43_engine.md R214). -/
theorem raisesOnly_dequeueByte (m : Memory) (q : Nat) :
    RaisesOnly (fun c => c = .nullHandle ∨ c = .invalidHandle ∨ c = .emptyQueue) (dequeueByte m q) :=
  raisesOnly_bind (raisesOnly_mono (raisesOnly_checkHandle m q) (fun _ h => by tauto)) fun _ =>
    raisesOnly_bind (raisesOnly_getBase _ _ _) fun b =>
    raisesOnly_bind (raisesOnly_getLength _ _ _) fun n =>
    raisesOnly_ite (raisesOnly_raise (.inr (.inr rfl)))
      (raisesOnly_bind (raisesOnly_readEntry _ _ _) fun _ =>
        raisesOnly_bind (raisesOnly_setEntryValid _ _ _ _) fun _ =>
        raisesOnly_bind (raisesOnly_setEntryBase _ _ _ _) fun m2 =>
        raisesOnly_bind (raisesOnly_ite (raisesOnly_bind (raisesOnly_setBase _ _ _ _) fun _ =>
          raisesOnly_setEntryBase _ _ _ _) (raisesOnly_setBase _ _ _ _)) fun _ =>
        raisesOnly_bind (raisesOnly_setLength _ _ _ _) fun _ => raisesOnly_ok _ _)

/-- RDFIELD raises BAD_FIELD (40_codec.md R137). -/
theorem raisesOnly_rdfield (m : Memory) (o w : Nat) : RaisesOnly (· = .badField) (rdfield m o w) :=
  raisesOnly_ite (raisesOnly_bind (raisesOnly_fieldRead _ _ _ _) fun _ => raisesOnly_ok _ _)
    (raisesOnly_raise rfl)

/-- No command raises the cause NONE. -/
theorem raisesOnly_command (i : Instr) (m : Memory) : RaisesOnly (· ≠ .none) (command i m) := by
  cases i with
  | create => exact raisesOnly_mono (raisesOnly_createQueue m) fun c h => by simp [h]
  | destroy q => exact raisesOnly_mono (raisesOnly_destroyQueue m q) fun c h => by rcases h with h | h <;> simp [h]
  | enq q d =>
    exact raisesOnly_mono (raisesOnly_enqueueByte m q d) fun c h => by rcases h with h | h | h <;> simp [h]
  | deq q =>
    exact raisesOnly_mono (raisesOnly_dequeueByte m q) fun c h => by rcases h with h | h | h <;> simp [h]
  | rdfield o w => exact raisesOnly_mono (raisesOnly_rdfield m o w) fun c h => by simp [h]

/-- All a command can do when it answers: it succeeds, or it raises a cause that is not NONE. -/
theorem exec_next {i : Instr} {s t : State} (h : exec i s = .next t) :
    (∃ m v, t = s.succeed m v) ∨ ∃ c, c ≠ .none ∧ t = s.raiseError c := by
  rw [exec_eq_finish] at h
  rcases finish_next h with ⟨m, v, -, h⟩ | ⟨c, hr, h⟩
  · exact .inl ⟨m, v, h⟩
  · exact .inr ⟨c, raisesOnly_command i s.arena c hr, h⟩

/-- All a BUSY engine left alone can do when the step answers. -/
theorem step_busy_quiet_next {s t : State} (hb : s.fsm = .busy) (hq : s.nextEvent = .quiet)
    (h : step s = .next t) :
    (∃ m v, t = s.beginStep.succeed m v) ∨ ∃ c, c ≠ .none ∧ t = s.beginStep.raiseError c := by
  rcases step_busy_quiet hb hq with ⟨i, -, he⟩ | ⟨e, -, he⟩
  · exact exec_next (he ▸ h)
  · rw [he] at h
    exact .inr ⟨illegalCause e, by cases e <;> decide, by cases h; rfl⟩

end Sys2Proof.Machine
end

