-- ==== Sys2Proof/Laws/PerInstr.lean ====
section
/-! SUPPORT. A family proved instruction by instruction: the word of an encodable instruction carries
the opcode of its row and no reserved bit of its format (30_encoding.md R102, R106). -/

namespace Sys2Proof.Laws.InFormat

/-- The OP value of an instruction's row (30_encoding.md R106). -/
def opcode : Instr → BitVec 4
  | .create => 0x1#4
  | .destroy _ => 0x2#4
  | .enq _ _ => 0x3#4
  | .deq _ => 0x4#4
  | .rdfield _ _ => 0x5#4

/-- The reserved bits of an instruction's format (30_encoding.md R102, R106). -/
def reserved : Instr → Word
  | .create => reservedN
  | .destroy _ => reservedQ
  | .enq _ _ => reservedQD
  | .deq _ => reservedQ
  | .rdfield _ _ => reservedF

/-- The word is in its instruction's format. -/
def Statement (i : Instr) : Prop :=
  i.wellFormed = true → opField (encode i) = opcode i ∧ encode i &&& reserved i = 0#32

/-- The word of a number below `2^k` has no bit from `k` up. -/
theorem ofNat_high {n k j : Nat} (h : n < 2 ^ k) (hj : k ≤ j) (hj' : j < 32) :
    (BitVec.ofNat 32 n)[j] = false := by
  have : n.testBit j = false :=
    Nat.testBit_lt_two_pow (lt_of_lt_of_le h (Nat.pow_le_pow_right (by decide) hj))
  simp [← BitVec.getLsbD_eq_getElem, BitVec.getLsbD_ofNat, this]

theorem qid_high {q : Nat} (h : encodableQid q = true) {j : Nat} (hj : 8 ≤ j) (hj' : j < 32) :
    (BitVec.ofNat 32 q)[j] = false :=
  ofNat_high (k := 8) (by have := of_decide_eq_true h; omega) hj hj'

theorem create : Statement .create := fun _ => by decide

theorem destroy (q : Nat) : Statement (.destroy q) := fun h => by
  have hq := fun j hj => qid_high (q := q) h (j := j) hj
  constructor
  · apply BitVec.eq_of_getLsbD_eq
    intro j hj
    interval_cases j <;> simp [opField, encode, opcode, hq]
  · apply BitVec.eq_of_getLsbD_eq
    intro j hj
    interval_cases j <;> simp [encode, reserved, reservedQ, hq]

theorem enq (q : Nat) (d : Byte) : Statement (.enq q d) := fun h => by
  have hq := fun j hj => qid_high (q := q) h (j := j) hj
  constructor
  · apply BitVec.eq_of_getLsbD_eq
    intro j hj
    interval_cases j <;> simp [opField, encode, opcode, hq]
  · apply BitVec.eq_of_getLsbD_eq
    intro j hj
    interval_cases j <;> simp [encode, reserved, reservedQD, hq]

theorem deq (q : Nat) : Statement (.deq q) := fun h => by
  have hq := fun j hj => qid_high (q := q) h (j := j) hj
  constructor
  · apply BitVec.eq_of_getLsbD_eq
    intro j hj
    interval_cases j <;> simp [opField, encode, opcode, hq]
  · apply BitVec.eq_of_getLsbD_eq
    intro j hj
    interval_cases j <;> simp [encode, reserved, reservedQ, hq]

theorem rdfield (o w : Nat) : Statement (.rdfield o w) := fun h => by
  have h' : o ≤ 16383 ∧ w ≤ 31 := by
    simpa [Instr.wellFormed, encodableOffset, encodableWidth] using h
  have ho := fun j (hj : 14 ≤ j) => ofNat_high (n := o) (k := 14) (by omega) hj
  have hw := fun j (hj : 5 ≤ j) => ofNat_high (n := w) (k := 5) (by omega) hj
  constructor
  · apply BitVec.eq_of_getLsbD_eq
    intro j hj
    interval_cases j <;> simp [opField, encode, opcode, ho, hw]
  · apply BitVec.eq_of_getLsbD_eq
    intro j hj
    interval_cases j <;> simp [encode, reserved, reservedF, ho, hw]

end Sys2Proof.Laws.InFormat
end

