-- ==== Sys2Proof/Laws/Runs.lean ====
section
/-! SUPPORT. Well-formed arenas (43_engine.md R230): owners are unique, runs lie apart, and what each
way of changing the records leaves of WF and of the queues' bytes. Each lemma is about two arenas whose
records are related as one command relates them, not about the command. -/

namespace Sys2Proof.Machine

/-! ### Owners and runs -/

theorem owner_unique {m : Memory} (w : WF m) {p r s : Nat} (hp : p < 64) (hr : r < 64)
    (h1 : startsAt m p s) (h2 : startsAt m r s) : p = r := by
  by_contra hne
  obtain ⟨a,b,c⟩ := h1; obtain ⟨a',b',c'⟩ := h2
  exact w.disjoint p hp r hr hne s ⟨⟨a, by omega, by omega⟩, ⟨a', by omega, by omega⟩⟩

theorem isFirstOwner_iff {m : Memory} (w : WF m) {p c : Nat} (ex : Option Nat) (hp : p < 64) :
    isFirstOwner m c ex p ↔ isOwner m c ex p := by
  refine ⟨fun h => h.1, fun h => ⟨h, fun r hr ho => ?_⟩⟩
  have := owner_unique w hp (by omega : r < 64) h.2 ho.2
  omega

/-- In a well-formed arena a shift moves exactly the queues whose runs start in its window. -/
theorem movesWith_iff {m : Memory} (w : WF m) {ex : Option Nat} {lo hi p : Nat} (hhi : hi ≤ 1484)
    (hp : p < 64) : movesWith m ex lo hi p ↔
      some p ≠ ex ∧ startsAt m p (hBase m p) ∧ lo ≤ hBase m p ∧ hBase m p < hi := by
  unfold movesWith
  rw [isFirstOwner_iff w ex hp]
  constructor
  · rintro ⟨h1,h2,h3,h4,h5⟩; exact ⟨h4,h5,h1,h2⟩
  · rintro ⟨h4,h5,h1,h2⟩; exact ⟨h1,h2,(w.markers _ (by omega)).mpr ⟨p,hp,h5⟩,h4,h5⟩

/-- The runs of two queues with bytes lie apart (W4). -/
theorem runs_apart {m : Memory} (w : WF m) {p r : Nat} (hp : p < 64) (hr : r < 64) (hne : p ≠ r)
    (vp : hValid m p = true) (vr : hValid m r = true) (lp : 0 < hLength m p) (lr : 0 < hLength m r) :
    hBase m p + hLength m p ≤ hBase m r ∨ hBase m r + hLength m r ≤ hBase m p := by
  by_contra hc
  push Not at hc
  have := w.disjoint p hp r hr hne (max (hBase m p) (hBase m r))
  apply this
  refine ⟨⟨vp, by omega, by omega⟩, ⟨vr, by omega, by omega⟩⟩

/-- A free slot lies outside every run (W5). -/
theorem free_outside_run {m : Memory} (w : WF m) {p i : Nat} (hp : p < 64) (vp : hValid m p = true)
    (hi : i < 1484) (he : eValid m i = false) :
    hBase m p + hLength m p ≤ i ∨ i < hBase m p := by
  by_contra hc
  push Not at hc
  have := (w.validBits i hi).mpr ⟨p, hp, vp, by omega, by omega⟩
  simp [this] at he

/-- The number of valid headers as a sum. -/
theorem valid_count (V : Nat → Bool) (n : Nat) :
    ((List.range n).filter V).length = ∑ p ∈ Finset.range n, (V p).toNat := by
  induction n with
  | zero => rfl
  | succ n ih =>
    rw [List.range_succ, List.filter_append, List.length_append, ih, Finset.sum_range_succ]
    cases h : V n <;> simp [h]

/-! ### A byte at the end of a run -/

/-- The window `[b + n, i)` moves right and the byte goes to slot `b + n`; the window is empty when
`i = b + n` (43_engine.md R206, R208). -/
theorem wf_shiftRight {m m' : Memory} (w : WF m) {q b n i : Nat} {d : Byte} (hq : q < 64)
    (hv : hValid m q = true) (hb : hBase m q = b) (hn : hLength m q = n) (hn0 : 0 < n)
    (ht : b + n ≤ i) (hi : i < 1484) (he : eValid m i = false)
    (hall : ∀ x, b + n ≤ x → x < i → eValid m x = true)
    (cc : countOf m' = countOf m) (vv : ∀ p < 64, hValid m' p = hValid m p)
    (ll : ∀ p < 64, hLength m' p = if p = q then n + 1 else hLength m p)
    (bb : ∀ p < 64, hValid m p = true → 0 < hLength m p →
      hBase m' p = if b + n ≤ hBase m p ∧ hBase m p < i then hBase m p + 1 else hBase m p)
    (b0 : ∀ p < 64, hValid m p = true → hLength m p = 0 → hBase m' p = hBase m p)
    (ee : ∀ x < 1484, entryAt m' x = if x = b + n then ⟨false, true, d⟩
      else if b + n < x ∧ x ≤ i then entryAt m (x-1) else entryAt m x) :
    WF m' ∧ contents m' q = contents m q ++ [d] ∧
      ∀ p < 64, p ≠ q → hValid m p = true → contents m' p = contents m p := by
  have hqb : hBase m' q = b := by
    have := bb q hq hv (by omega); rw [hb, if_neg (by omega)] at this; exact this
  have hql : hLength m' q = n + 1 := by rw [ll q hq, if_pos rfl]
  have fr : ∀ p < 64, p ≠ q → hValid m p = true → 0 < hLength m p →
      (hBase m p + hLength m p ≤ b ∨ b + n ≤ hBase m p) ∧ (hBase m p + hLength m p ≤ i ∨ i < hBase m p) ∧
      hBase m p + hLength m p ≤ 1484 := by
    intro p hp hpq vp lp
    have h1 := runs_apart w hp hq hpq vp hv lp (by omega)
    rw [hb, hn] at h1
    exact ⟨by omega, free_outside_run w hp vp hi he, w.runsInRange p hp vp lp⟩
  have ev : ∀ x < 1484, eValid m' x = if x = b + n then true else if b + n < x ∧
      x ≤ i then eValid m (x-1) else eValid m x := by
    intro x hx
    have := congrArg Entry.valid (ee x hx)
    rw [entryAt_valid] at this
    rw [this]
    split_ifs <;> rfl
  have eq : ∀ x < 1484, eQb m' x = if x = b + n then false else if b + n < x ∧
      x ≤ i then eQb m (x-1) else eQb m x := by
    intro x hx
    have := congrArg Entry.qb (ee x hx)
    rw [entryAt_qb] at this
    rw [this]
    split_ifs <;> rfl
  have ea : ∀ x < 1484, eValue m' x = if x = b + n then d else if b + n < x ∧
      x ≤ i then eValue m (x-1) else eValue m x := by
    intro x hx
    have := congrArg Entry.value (ee x hx)
    rw [entryAt_value] at this
    rw [this]
    split_ifs <;> rfl
  have LL : ∀ p < 64, p ≠ q → hLength m' p = hLength m p :=
      fun p hp h => by rw [ll p hp, if_neg h]
  refine ⟨⟨?_, ?_, ?_, ?_, ?_, ?_, ?_⟩, ?_, ?_⟩
  · rw [cc, w.counter]
    congr 1
    apply List.filter_congr
    intro p hp
    rw [vv p (List.mem_range.mp hp)]
  · intro p hp vp lp
    rw [vv p hp] at vp
    by_cases hpq : p = q
    · subst hpq; rw [hqb, hql]; omega
    · rw [LL p hp hpq] at lp ⊢
      obtain ⟨h1,h2,h3⟩ := fr p hp hpq vp lp
      rw [bb p hp vp lp]; split_ifs <;> omega
  · intro p hp vp lp
    rw [vv p hp] at vp
    by_cases hpq : p = q
    · subst hpq; omega
    · rw [LL p hp hpq] at lp
      rw [b0 p hp vp lp]; exact w.emptyBases p hp vp lp
  · intro p hp r hr hne x ⟨⟨v1,a1,a2⟩,⟨v2,c1,c2⟩⟩
    rw [vv p hp] at v1; rw [vv r hr] at v2
    by_cases hpq : p = q
    · subst hpq
      have hrq : r ≠ p := fun h => hne h.symm
      rw [LL r hr hrq] at c2
      have lr : 0 < hLength m r := by omega
      obtain ⟨h1,h2,h3⟩ := fr r hr hrq v2 lr
      rw [bb r hr v2 lr] at c1 c2
      split_ifs at c1 c2 <;> omega
    · rw [LL p hp hpq] at a2
      have lp : 0 < hLength m p := by omega
      obtain ⟨h1,h2,h3⟩ := fr p hp hpq v1 lp
      rw [bb p hp v1 lp] at a1 a2
      by_cases hrq : r = q
      · subst hrq
        split_ifs at a1 a2 <;> omega
      · rw [LL r hr hrq] at c2
        have lr : 0 < hLength m r := by omega
        obtain ⟨g1,g2,g3⟩ := fr r hr hrq v2 lr
        rw [bb r hr v2 lr] at c1 c2
        have := runs_apart w hp hr hne v1 v2 lp lr
        split_ifs at a1 a2 c1 c2 <;> omega
  · intro x hx
    rw [ev x hx]
    constructor
    · intro h
      split_ifs at h with c1 c2
      · exact ⟨q, hq, by rw [vv q hq]; exact hv, by omega, by omega⟩
      · obtain ⟨p, hp, vp, g1, g2⟩ := (w.validBits (x-1) (by omega)).mp h
        have hpq : p ≠ q := by rintro rfl; omega
        have lp : 0 < hLength m p := by omega
        obtain ⟨h1,h2,h3⟩ := fr p hp hpq vp lp
        have hb' := bb p hp vp lp
        rw [if_pos (by omega)] at hb'
        exact ⟨p, hp, by rw [vv p hp]; exact vp, by omega, by rw [LL p hp hpq]; omega⟩
      · obtain ⟨p, hp, vp, g1, g2⟩ := (w.validBits x hx).mp h
        by_cases hpq : p = q
        · subst hpq; exact ⟨p, hp, by rw [vv p hp]; exact vp, by omega, by omega⟩
        have lp : 0 < hLength m p := by omega
        obtain ⟨h1,h2,h3⟩ := fr p hp hpq vp lp
        have hb' := bb p hp vp lp
        rw [if_neg (by omega)] at hb'
        exact ⟨p, hp, by rw [vv p hp]; exact vp, by omega, by rw [LL p hp hpq]; omega⟩
    · rintro ⟨p, hp, vp, g1, g2⟩
      rw [vv p hp] at vp
      split_ifs with c1 c2
      · rfl
      · exact hall (x-1) (by omega) (by omega)
      · apply (w.validBits x hx).mpr
        by_cases hpq : p = q
        · subst hpq; rw [hqb] at g1 g2; rw [hql] at g2; exact ⟨p, hp, vp, by omega, by omega⟩
        · rw [LL p hp hpq] at g2
          have lp : 0 < hLength m p := by omega
          obtain ⟨h1,h2,h3⟩ := fr p hp hpq vp lp
          rw [bb p hp vp lp] at g1 g2
          refine ⟨p, hp, vp, ?_, ?_⟩ <;> split_ifs at g1 g2 <;> omega
  · intro x hx
    rw [eq x hx]
    constructor
    · intro h
      split_ifs at h with c1 c2
      · obtain ⟨p, hp, vp, lp, g1⟩ := (w.markers (x-1) (by omega)).mp h
        have hpq : p ≠ q := by rintro rfl; omega
        have hb' := bb p hp vp lp
        rw [if_pos (by omega)] at hb'
        exact ⟨p, hp, by rw [vv p hp]; exact vp, by rw [LL p hp hpq]; omega, by omega⟩
      · obtain ⟨p, hp, vp, lp, g1⟩ := (w.markers x hx).mp h
        have hb' := bb p hp vp lp
        rw [if_neg (by omega)] at hb'
        refine ⟨p, hp, by rw [vv p hp]; exact vp, ?_, by omega⟩
        rw [ll p hp]; split_ifs <;> omega
    · rintro ⟨p, hp, vp, lp, g1⟩
      rw [vv p hp] at vp
      by_cases hpq : p = q
      · subst hpq
        rw [hqb] at g1
        rw [if_neg (by omega), if_neg (by omega)]
        exact (w.markers x hx).mpr ⟨p, hp, vp, by omega, by omega⟩
      · rw [LL p hp hpq] at lp
        obtain ⟨h1,h2,h3⟩ := fr p hp hpq vp lp
        rw [bb p hp vp lp] at g1
        split_ifs at g1 with k1
        · rw [if_neg (by omega), if_pos (by omega)]
          exact (w.markers (x-1) (by omega)).mpr ⟨p, hp, vp, by omega, by omega⟩
        · rw [if_neg (by omega), if_neg (by omega)]
          exact (w.markers x hx).mpr ⟨p, hp, vp, by omega, by omega⟩
  · intro p hp vp
    rw [vv p hp] at vp
    rw [ll p hp]
    split_ifs
    · omega
    · exact w.lengths p hp vp
  · unfold contents
    rw [hql, hn, hqb, hb, List.range_succ, List.map_append]
    congr 1
    · apply List.map_congr_left
      intro k hk
      have := List.mem_range.mp hk
      rw [ea _ (by omega), if_neg (by omega), if_neg (by omega)]
    · simp [ea (b+n) (by omega)]
  · intro p hp hpq vp
    unfold contents
    rw [LL p hp hpq]
    apply List.map_congr_left
    intro k hk
    have := List.mem_range.mp hk
    have lp : 0 < hLength m p := by omega
    obtain ⟨h1,h2,h3⟩ := fr p hp hpq vp lp
    rw [bb p hp vp lp]
    split_ifs with c
    · rw [ea _ (by omega), if_neg (by omega), if_pos (by omega)]; congr 1; omega
    · rw [ea _ (by omega), if_neg (by omega), if_neg (by omega)]

/-- The window `[i + 1, b + n)` moves left and the byte goes to slot `b + n - 1` (43_engine.md R211). -/
theorem wf_shiftLeft {m m' : Memory} (w : WF m) {q b n i : Nat} {d : Byte} (hq : q < 64)
    (hv : hValid m q = true) (hb : hBase m q = b) (hn : hLength m q = n) (hn0 : 0 < n) (hi : i < b)
    (he : eValid m i = false) (hall : ∀ x, i < x → x < b → eValid m x = true)
    (cc : countOf m' = countOf m) (vv : ∀ p < 64, hValid m' p = hValid m p)
    (ll : ∀ p < 64, hLength m' p = if p = q then n + 1 else hLength m p)
    (bb : ∀ p < 64, hValid m p = true → 0 < hLength m p →
      hBase m' p = if i < hBase m p ∧ hBase m p < b + n then hBase m p - 1 else hBase m p)
    (b0 : ∀ p < 64, hValid m p = true → hLength m p = 0 → hBase m' p = hBase m p)
    (ee : ∀ x < 1484, entryAt m' x = if x = b + n - 1 then ⟨false, true, d⟩
      else if i ≤ x ∧ x < b + n - 1 then entryAt m (x+1) else entryAt m x) :
    WF m' ∧ contents m' q = contents m q ++ [d] ∧
      ∀ p < 64, p ≠ q → hValid m p = true → contents m' p = contents m p := by
  have hrun := w.runsInRange q hq hv (by omega)
  have hqb : hBase m' q = b - 1 := by
    have := bb q hq hv (by omega); rw [hb, if_pos (by omega)] at this; exact this
  have hql : hLength m' q = n + 1 := by rw [ll q hq, if_pos rfl]
  have fr : ∀ p < 64, p ≠ q → hValid m p = true → 0 < hLength m p →
      (hBase m p + hLength m p ≤ b ∨ b + n ≤ hBase m p) ∧ (hBase m p + hLength m p ≤ i ∨ i < hBase m p) ∧
      hBase m p + hLength m p ≤ 1484 := by
    intro p hp hpq vp lp
    have h1 := runs_apart w hp hq hpq vp hv lp (by omega)
    rw [hb, hn] at h1
    exact ⟨by omega, free_outside_run w hp vp (by omega) he, w.runsInRange p hp vp lp⟩
  have ev : ∀ x < 1484, eValid m' x = if x = b + n - 1 then true else if i ≤ x ∧
      x < b + n - 1 then eValid m (x+1) else eValid m x := by
    intro x hx
    have := congrArg Entry.valid (ee x hx)
    rw [entryAt_valid] at this
    rw [this]
    split_ifs <;> rfl
  have eq : ∀ x < 1484, eQb m' x = if x = b + n - 1 then false else if i ≤ x ∧
      x < b + n - 1 then eQb m (x+1) else eQb m x := by
    intro x hx
    have := congrArg Entry.qb (ee x hx)
    rw [entryAt_qb] at this
    rw [this]
    split_ifs <;> rfl
  have ea : ∀ x < 1484, eValue m' x = if x = b + n - 1 then d else if i ≤ x ∧
      x < b + n - 1 then eValue m (x+1) else eValue m x := by
    intro x hx
    have := congrArg Entry.value (ee x hx)
    rw [entryAt_value] at this
    rw [this]
    split_ifs <;> rfl
  have LL : ∀ p < 64, p ≠ q → hLength m' p = hLength m p :=
      fun p hp h => by rw [ll p hp, if_neg h]
  refine ⟨⟨?_, ?_, ?_, ?_, ?_, ?_, ?_⟩, ?_, ?_⟩
  · rw [cc, w.counter]
    congr 1
    apply List.filter_congr
    intro p hp
    rw [vv p (List.mem_range.mp hp)]
  · intro p hp vp lp
    rw [vv p hp] at vp
    by_cases hpq : p = q
    · subst hpq; rw [hqb, hql]; omega
    · rw [LL p hp hpq] at lp ⊢
      obtain ⟨h1,h2,h3⟩ := fr p hp hpq vp lp
      rw [bb p hp vp lp]; split_ifs <;> omega
  · intro p hp vp lp
    rw [vv p hp] at vp
    by_cases hpq : p = q
    · subst hpq; omega
    · rw [LL p hp hpq] at lp
      rw [b0 p hp vp lp]; exact w.emptyBases p hp vp lp
  · intro p hp r hr hne x ⟨⟨v1,a1,a2⟩,⟨v2,c1,c2⟩⟩
    rw [vv p hp] at v1; rw [vv r hr] at v2
    by_cases hpq : p = q
    · subst hpq
      have hrq : r ≠ p := fun h => hne h.symm
      rw [LL r hr hrq] at c2
      have lr : 0 < hLength m r := by omega
      obtain ⟨h1,h2,h3⟩ := fr r hr hrq v2 lr
      rw [bb r hr v2 lr] at c1 c2
      split_ifs at c1 c2 <;> omega
    · rw [LL p hp hpq] at a2
      have lp : 0 < hLength m p := by omega
      obtain ⟨h1,h2,h3⟩ := fr p hp hpq v1 lp
      rw [bb p hp v1 lp] at a1 a2
      by_cases hrq : r = q
      · subst hrq
        split_ifs at a1 a2 <;> omega
      · rw [LL r hr hrq] at c2
        have lr : 0 < hLength m r := by omega
        obtain ⟨g1,g2,g3⟩ := fr r hr hrq v2 lr
        rw [bb r hr v2 lr] at c1 c2
        have := runs_apart w hp hr hne v1 v2 lp lr
        split_ifs at a1 a2 c1 c2 <;> omega
  · intro x hx
    rw [ev x hx]
    constructor
    · intro h
      split_ifs at h with c1 c2
      · exact ⟨q, hq, by rw [vv q hq]; exact hv, by omega, by omega⟩
      · obtain ⟨p, hp, vp, g1, g2⟩ := (w.validBits (x+1) (by omega)).mp h
        by_cases hpq : p = q
        · subst hpq; exact ⟨p, hp, by rw [vv p hp]; exact vp, by omega, by omega⟩
        have lp : 0 < hLength m p := by omega
        obtain ⟨h1,h2,h3⟩ := fr p hp hpq vp lp
        have hb' := bb p hp vp lp
        rw [if_pos (by omega)] at hb'
        exact ⟨p, hp, by rw [vv p hp]; exact vp, by omega, by rw [LL p hp hpq]; omega⟩
      · obtain ⟨p, hp, vp, g1, g2⟩ := (w.validBits x hx).mp h
        by_cases hpq : p = q
        · subst hpq; exact ⟨p, hp, by rw [vv p hp]; exact vp, by omega, by omega⟩
        have lp : 0 < hLength m p := by omega
        obtain ⟨h1,h2,h3⟩ := fr p hp hpq vp lp
        have hb' := bb p hp vp lp
        rw [if_neg (by omega)] at hb'
        exact ⟨p, hp, by rw [vv p hp]; exact vp, by omega, by rw [LL p hp hpq]; omega⟩
    · rintro ⟨p, hp, vp, g1, g2⟩
      rw [vv p hp] at vp
      split_ifs with c1 c2
      · rfl
      · by_cases hx1 : x + 1 < b
        · exact hall (x+1) (by omega) hx1
        · exact (w.validBits (x+1) (by omega)).mpr ⟨q, hq, hv, by omega, by omega⟩
      · apply (w.validBits x hx).mpr
        by_cases hpq : p = q
        · subst hpq; rw [hqb] at g1 g2; rw [hql] at g2; exact ⟨p, hp, vp, by omega, by omega⟩
        · rw [LL p hp hpq] at g2
          have lp : 0 < hLength m p := by omega
          obtain ⟨h1,h2,h3⟩ := fr p hp hpq vp lp
          rw [bb p hp vp lp] at g1 g2
          refine ⟨p, hp, vp, ?_, ?_⟩ <;> split_ifs at g1 g2 <;> omega
  · intro x hx
    rw [eq x hx]
    constructor
    · intro h
      split_ifs at h with c1 c2
      · obtain ⟨p, hp, vp, lp, g1⟩ := (w.markers (x+1) (by omega)).mp h
        have hb' := bb p hp vp lp
        rw [if_pos (by omega)] at hb'
        refine ⟨p, hp, by rw [vv p hp]; exact vp, ?_, by omega⟩
        rw [ll p hp]; split_ifs <;> omega
      · obtain ⟨p, hp, vp, lp, g1⟩ := (w.markers x hx).mp h
        have hpi : p ≠ q → _ := fun h => (fr p hp h vp lp).2.1
        have hb' := bb p hp vp lp
        by_cases hpq : p = q
        · subst hpq; omega
        · have := hpi hpq
          rw [if_neg (by omega)] at hb'
          exact ⟨p, hp, by rw [vv p hp]; exact vp, by rw [LL p hp hpq]; omega, by omega⟩
    · rintro ⟨p, hp, vp, lp, g1⟩
      rw [vv p hp] at vp
      by_cases hpq : p = q
      · subst hpq
        rw [hqb] at g1
        rw [if_neg (by omega), if_pos (by omega)]
        exact (w.markers (x+1) (by omega)).mpr ⟨p, hp, vp, by omega, by omega⟩
      · rw [LL p hp hpq] at lp
        obtain ⟨h1,h2,h3⟩ := fr p hp hpq vp lp
        rw [bb p hp vp lp] at g1
        split_ifs at g1 with k1
        · rw [if_neg (by omega), if_pos (by omega)]
          exact (w.markers (x+1) (by omega)).mpr ⟨p, hp, vp, by omega, by omega⟩
        · rw [if_neg (by omega), if_neg (by omega)]
          exact (w.markers x hx).mpr ⟨p, hp, vp, by omega, by omega⟩
  · intro p hp vp
    rw [vv p hp] at vp
    rw [ll p hp]
    split_ifs
    · omega
    · exact w.lengths p hp vp
  · unfold contents
    rw [hql, hn, hqb, hb, List.range_succ, List.map_append]
    congr 1
    · apply List.map_congr_left
      intro k hk
      have := List.mem_range.mp hk
      rw [ea _ (by omega), if_neg (by omega), if_pos (by omega)]; congr 1; omega
    · have := ea (b-1+n) (by omega)
      rw [if_pos (by omega)] at this
      simp [this]
  · intro p hp hpq vp
    unfold contents
    rw [LL p hp hpq]
    apply List.map_congr_left
    intro k hk
    have := List.mem_range.mp hk
    have lp : 0 < hLength m p := by omega
    obtain ⟨h1,h2,h3⟩ := fr p hp hpq vp lp
    rw [bb p hp vp lp]
    split_ifs with c
    · rw [ea _ (by omega), if_neg (by omega), if_pos (by omega)]; congr 1; omega
    · rw [ea _ (by omega), if_neg (by omega), if_neg (by omega)]

/-- An empty queue takes the free slot `i` for its first byte (43_engine.md R204, R207, R210). -/
theorem wf_place {m m' : Memory} (w : WF m) {q i : Nat} {d : Byte} (hq : q < 64)
    (hv : hValid m q = true) (hn : hLength m q = 0) (hi : i < 1484) (he : eValid m i = false)
    (cc : countOf m' = countOf m) (vv : ∀ p < 64, hValid m' p = hValid m p)
    (ll : ∀ p < 64, hLength m' p = if p = q then 1 else hLength m p)
    (bb : ∀ p < 64, hBase m' p = if p = q then i else hBase m p)
    (ee : ∀ x < 1484, entryAt m' x = if x = i then ⟨true, true, d⟩ else entryAt m x) :
    WF m' ∧ contents m' q = contents m q ++ [d] ∧
      ∀ p < 64, p ≠ q → hValid m p = true → contents m' p = contents m p := by
  have hqb : hBase m' q = i := by rw [bb q hq, if_pos rfl]
  have hql : hLength m' q = 1 := by rw [ll q hq, if_pos rfl]
  have LL : ∀ p < 64, p ≠ q → hLength m' p = hLength m p :=
      fun p hp h => by rw [ll p hp, if_neg h]
  have BB : ∀ p < 64, p ≠ q → hBase m' p = hBase m p := fun p hp h => by rw [bb p hp, if_neg h]
  have fr : ∀ p < 64, hValid m p = true → 0 < hLength m p →
      (hBase m p + hLength m p ≤ i ∨ i < hBase m p) ∧ hBase m p + hLength m p ≤ 1484 := by
    intro p hp vp lp
    exact ⟨free_outside_run w hp vp hi he, w.runsInRange p hp vp lp⟩
  have ev : ∀ x < 1484, eValid m' x = if x = i then true else eValid m x := by
    intro x hx
    have := congrArg Entry.valid (ee x hx)
    rw [entryAt_valid] at this
    rw [this]
    split_ifs <;> rfl
  have eq : ∀ x < 1484, eQb m' x = if x = i then true else eQb m x := by
    intro x hx
    have := congrArg Entry.qb (ee x hx)
    rw [entryAt_qb] at this
    rw [this]
    split_ifs <;> rfl
  have ea : ∀ x < 1484, eValue m' x = if x = i then d else eValue m x := by
    intro x hx
    have := congrArg Entry.value (ee x hx)
    rw [entryAt_value] at this
    rw [this]
    split_ifs <;> rfl
  refine ⟨⟨?_, ?_, ?_, ?_, ?_, ?_, ?_⟩, ?_, ?_⟩
  · rw [cc, w.counter]
    congr 1
    apply List.filter_congr
    intro p hp
    rw [vv p (List.mem_range.mp hp)]
  · intro p hp vp lp
    rw [vv p hp] at vp
    by_cases hpq : p = q
    · subst hpq; omega
    · rw [LL p hp hpq] at lp ⊢; rw [BB p hp hpq]; exact w.runsInRange p hp vp lp
  · intro p hp vp lp
    rw [vv p hp] at vp
    by_cases hpq : p = q
    · subst hpq; omega
    · rw [LL p hp hpq] at lp; rw [BB p hp hpq]; exact w.emptyBases p hp vp lp
  · intro p hp r hr hne x ⟨⟨v1,a1,a2⟩,⟨v2,c1,c2⟩⟩
    rw [vv p hp] at v1; rw [vv r hr] at v2
    by_cases hpq : p = q
    · subst hpq
      have hrq : r ≠ p := fun h => hne h.symm
      rw [LL r hr hrq, BB r hr hrq] at c2
      rw [BB r hr hrq] at c1
      have := fr r hr v2 (by omega)
      omega
    · rw [LL p hp hpq, BB p hp hpq] at a2
      rw [BB p hp hpq] at a1
      by_cases hrq : r = q
      · subst hrq
        have := fr p hp v1 (by omega)
        omega
      · rw [LL r hr hrq, BB r hr hrq] at c2
        rw [BB r hr hrq] at c1
        exact w.disjoint p hp r hr hne x ⟨⟨v1,a1,a2⟩,⟨v2,c1,c2⟩⟩
  · intro x hx
    rw [ev x hx]
    constructor
    · intro h
      split_ifs at h with c1
      · exact ⟨q, hq, by rw [vv q hq]; exact hv, by omega, by omega⟩
      · obtain ⟨p, hp, vp, g1, g2⟩ := (w.validBits x hx).mp h
        have hpq : p ≠ q := by rintro rfl; omega
        exact ⟨p, hp, by rw [vv p hp]; exact vp, by rw [BB p hp hpq]; omega,
            by rw [LL p hp hpq, BB p hp hpq]; omega⟩
    · rintro ⟨p, hp, vp, g1, g2⟩
      rw [vv p hp] at vp
      split_ifs with c1
      · rfl
      · have hpq : p ≠ q := by rintro rfl; omega
        rw [BB p hp hpq] at g1 g2; rw [LL p hp hpq] at g2
        exact (w.validBits x hx).mpr ⟨p, hp, vp, g1, g2⟩
  · intro x hx
    rw [eq x hx]
    constructor
    · intro h
      split_ifs at h with c1
      · exact ⟨q, hq, by rw [vv q hq]; exact hv, by omega, by omega⟩
      · obtain ⟨p, hp, vp, lp, g1⟩ := (w.markers x hx).mp h
        have hpq : p ≠ q := by rintro rfl; omega
        exact ⟨p, hp, by rw [vv p hp]; exact vp, by rw [LL p hp hpq]; omega,
            by rw [BB p hp hpq]; omega⟩
    · rintro ⟨p, hp, vp, lp, g1⟩
      rw [vv p hp] at vp
      split_ifs with c1
      · rfl
      · have hpq : p ≠ q := by rintro rfl; omega
        rw [BB p hp hpq] at g1; rw [LL p hp hpq] at lp
        exact (w.markers x hx).mpr ⟨p, hp, vp, lp, g1⟩
  · intro p hp vp
    rw [vv p hp] at vp
    rw [ll p hp]
    split_ifs
    · omega
    · exact w.lengths p hp vp
  · unfold contents
    simp [hql, hqb, hn, ea i hi]
  · intro p hp hpq vp
    unfold contents
    rw [LL p hp hpq, BB p hp hpq]
    apply List.map_congr_left
    intro k hk
    have := List.mem_range.mp hk
    have := fr p hp vp (by omega)
    rw [ea _ (by omega), if_neg (by omega)]

/-! ### A byte off the front of a run -/

/-- The front slot is freed and the base moves to the next one, or to INVALID (43_engine.md R214). -/
theorem wf_takeFront {m m' : Memory} (w : WF m) {q b n : Nat} (hq : q < 64) (hv : hValid m q = true)
    (hb : hBase m q = b) (hn : hLength m q = n) (hn0 : 0 < n)
    (cc : countOf m' = countOf m) (vv : ∀ p < 64, hValid m' p = hValid m p)
    (ll : ∀ p < 64, hLength m' p = if p = q then n - 1 else hLength m p)
    (bb : ∀ p < 64, hBase m' p = if p = q then (if n = 1 then 1484 else b + 1) else hBase m p)
    (ee : ∀ x < 1484, entryAt m' x = if x = b then ⟨false, false, eValue m b⟩
      else if x = b + 1 ∧ 1 < n then ⟨true, eValid m x, eValue m x⟩ else entryAt m x) :
    WF m' ∧ contents m q = eValue m b :: contents m' q ∧
      ∀ p < 64, p ≠ q → hValid m p = true → contents m' p = contents m p := by
  have hrun := w.runsInRange q hq hv (by omega)
  have hqb : hBase m' q = if n = 1 then 1484 else b + 1 := by rw [bb q hq, if_pos rfl]
  have hql : hLength m' q = n - 1 := by rw [ll q hq, if_pos rfl]
  have LL : ∀ p < 64, p ≠ q → hLength m' p = hLength m p :=
      fun p hp h => by rw [ll p hp, if_neg h]
  have BB : ∀ p < 64, p ≠ q → hBase m' p = hBase m p := fun p hp h => by rw [bb p hp, if_neg h]
  have fr : ∀ p < 64, p ≠ q → hValid m p = true → 0 < hLength m p →
      (hBase m p + hLength m p ≤ b ∨ b + n ≤ hBase m p) ∧ hBase m p + hLength m p ≤ 1484 := by
    intro p hp hpq vp lp
    have h1 := runs_apart w hp hq hpq vp hv lp (by omega)
    rw [hb, hn] at h1
    exact ⟨by omega, w.runsInRange p hp vp lp⟩
  have ev : ∀ x < 1484, eValid m' x = if x = b then false else eValid m x := by
    intro x hx
    have := congrArg Entry.valid (ee x hx)
    rw [entryAt_valid] at this
    rw [this]
    split_ifs <;> rfl
  have eq : ∀ x < 1484, eQb m' x = if x = b then false else if x = b + 1 ∧
      1 < n then true else eQb m x := by
    intro x hx
    have := congrArg Entry.qb (ee x hx)
    rw [entryAt_qb] at this
    rw [this]
    split_ifs <;> rfl
  have ea : ∀ x < 1484, eValue m' x = eValue m x := by
    intro x hx
    have := congrArg Entry.value (ee x hx)
    rw [entryAt_value] at this
    rw [this]
    split_ifs with h <;> simp [h]
  refine ⟨⟨?_, ?_, ?_, ?_, ?_, ?_, ?_⟩, ?_, ?_⟩
  · rw [cc, w.counter]
    congr 1
    apply List.filter_congr
    intro p hp
    rw [vv p (List.mem_range.mp hp)]
  · intro p hp vp lp
    rw [vv p hp] at vp
    by_cases hpq : p = q
    · subst hpq; rw [hqb, hql]; split_ifs <;> omega
    · rw [LL p hp hpq] at lp ⊢; rw [BB p hp hpq]; exact w.runsInRange p hp vp lp
  · intro p hp vp lp
    rw [vv p hp] at vp
    by_cases hpq : p = q
    · subst hpq; rw [hqb]; split_ifs <;> omega
    · rw [LL p hp hpq] at lp; rw [BB p hp hpq]; exact w.emptyBases p hp vp lp
  · intro p hp r hr hne x ⟨⟨v1,a1,a2⟩,⟨v2,c1,c2⟩⟩
    rw [vv p hp] at v1; rw [vv r hr] at v2
    by_cases hpq : p = q
    · subst hpq
      have hrq : r ≠ p := fun h => hne h.symm
      rw [LL r hr hrq, BB r hr hrq] at c2
      rw [BB r hr hrq] at c1
      have := fr r hr hrq v2 (by omega)
      rw [hqb] at a1 a2
      split_ifs at a1 a2 <;> omega
    · rw [LL p hp hpq, BB p hp hpq] at a2
      rw [BB p hp hpq] at a1
      by_cases hrq : r = q
      · subst hrq
        have := fr p hp hpq v1 (by omega)
        rw [hqb] at c1 c2
        split_ifs at c1 c2 <;> omega
      · rw [LL r hr hrq, BB r hr hrq] at c2
        rw [BB r hr hrq] at c1
        exact w.disjoint p hp r hr hne x ⟨⟨v1,a1,a2⟩,⟨v2,c1,c2⟩⟩
  · intro x hx
    rw [ev x hx]
    constructor
    · intro h
      split_ifs at h with c1
      obtain ⟨p, hp, vp, g1, g2⟩ := (w.validBits x hx).mp h
      by_cases hpq : p = q
      · subst hpq
        rw [if_neg (by omega)] at hqb
        exact ⟨p, hp, by rw [vv p hp]; exact vp, by omega, by omega⟩
      · exact ⟨p, hp, by rw [vv p hp]; exact vp, by rw [BB p hp hpq]; omega,
          by rw [LL p hp hpq, BB p hp hpq]; omega⟩
    · rintro ⟨p, hp, vp, g1, g2⟩
      rw [vv p hp] at vp
      by_cases hpq : p = q
      · subst hpq
        rw [if_neg (by omega)] at hqb
        rw [if_neg (by omega)]
        exact (w.validBits x hx).mpr ⟨p, hp, vp, by omega, by omega⟩
      · rw [BB p hp hpq] at g1 g2; rw [LL p hp hpq] at g2
        have := fr p hp hpq vp (by omega)
        rw [if_neg (by omega)]
        exact (w.validBits x hx).mpr ⟨p, hp, vp, g1, g2⟩
  · intro x hx
    rw [eq x hx]
    constructor
    · intro h
      split_ifs at h with c1 c2
      · rw [if_neg (by omega)] at hqb
        exact ⟨q, hq, by rw [vv q hq]; exact hv, by omega, by omega⟩
      · obtain ⟨p, hp, vp, lp, g1⟩ := (w.markers x hx).mp h
        have hpq : p ≠ q := by rintro rfl; omega
        exact ⟨p, hp, by rw [vv p hp]; exact vp, by rw [LL p hp hpq]; omega,
            by rw [BB p hp hpq]; omega⟩
    · rintro ⟨p, hp, vp, lp, g1⟩
      rw [vv p hp] at vp
      by_cases hpq : p = q
      · subst hpq
        rw [if_neg (by omega)] at hqb
        rw [if_neg (by omega), if_pos (by omega)]
      · rw [BB p hp hpq] at g1; rw [LL p hp hpq] at lp
        have := fr p hp hpq vp (by omega)
        rw [if_neg (by omega), if_neg (by omega)]
        exact (w.markers x hx).mpr ⟨p, hp, vp, lp, g1⟩
  · intro p hp vp
    rw [vv p hp] at vp
    rw [ll p hp]
    split_ifs
    · omega
    · exact w.lengths p hp vp
  · unfold contents
    obtain ⟨k, rfl⟩ : ∃ k, n = k + 1 := ⟨n - 1, by omega⟩
    rw [hn, hql, hb, List.range_succ_eq_map, List.map_cons]
    congr 1
    rw [List.map_map, Nat.add_sub_cancel]
    apply List.map_congr_left
    intro j hj
    have := List.mem_range.mp hj
    rw [hqb, if_neg (by omega), ea _ (by omega)]
    simp only [Function.comp]; congr 1; omega
  · intro p hp hpq vp
    unfold contents
    rw [LL p hp hpq, BB p hp hpq]
    apply List.map_congr_left
    intro k hk
    have := List.mem_range.mp hk
    have := fr p hp hpq vp (by omega)
    rw [ea _ (by omega)]

/-! ### A queue removed or made -/

/-- The run of `q` is freed and its header becomes invalid (43_engine.md R202). -/
theorem wf_removeQueue {m m' : Memory} (w : WF m) {q : Nat} (hq : q < 64) (hv : hValid m q = true)
    (cc : countOf m' = (countOf m + 255) % 256)
    (vv : ∀ p < 64, hValid m' p = if p = q then false else hValid m p)
    (ll : ∀ p < 64, hLength m' p = if p = q then 0 else hLength m p)
    (bb : ∀ p < 64, hBase m' p = if p = q then 1484 else hBase m p)
    (ee : ∀ x < 1484, entryAt m' x =
      if hBase m q ≤ x ∧ x < hBase m q + hLength m q
      then ⟨eQb m x && !decide (x = hBase m q), false, eValue m x⟩ else entryAt m x) :
    WF m' ∧ ∀ p < 64, p ≠ q → hValid m p = true → contents m' p = contents m p := by
  have LL : ∀ p < 64, p ≠ q → hLength m' p = hLength m p :=
      fun p hp h => by rw [ll p hp, if_neg h]
  have BB : ∀ p < 64, p ≠ q → hBase m' p = hBase m p := fun p hp h => by rw [bb p hp, if_neg h]
  have VV : ∀ p < 64, p ≠ q → hValid m' p = hValid m p := fun p hp h => by rw [vv p hp, if_neg h]
  have vq : hValid m' q = false := by rw [vv q hq, if_pos rfl]
  have fr : ∀ p < 64, p ≠ q → hValid m p = true → 0 < hLength m p →
      (hLength m q = 0 ∨ hBase m p + hLength m p ≤ hBase m q ∨ hBase m q + hLength m q ≤ hBase m p) ∧
      hBase m p + hLength m p ≤ 1484 := by
    intro p hp hpq vp lp
    refine ⟨?_, w.runsInRange p hp vp lp⟩
    by_cases h : hLength m q = 0
    · exact .inl h
    · exact .inr (runs_apart w hp hq hpq vp hv lp (by omega))
  have ev : ∀ x < 1484, eValid m' x = if hBase m q ≤ x ∧
      x < hBase m q + hLength m q then false else eValid m x := by
    intro x hx
    have := congrArg Entry.valid (ee x hx)
    rw [entryAt_valid] at this
    rw [this]
    split_ifs <;> rfl
  have eq : ∀ x < 1484, eQb m' x = if hBase m q ≤ x ∧
      x < hBase m q + hLength m q then eQb m x && !decide (x = hBase m q) else eQb m x := by
    intro x hx
    have := congrArg Entry.qb (ee x hx)
    rw [entryAt_qb] at this
    rw [this]
    split_ifs <;> rfl
  have ea : ∀ x < 1484, eValue m' x = eValue m x := by
    intro x hx
    have := congrArg Entry.value (ee x hx)
    rw [entryAt_value] at this
    rw [this]
    split_ifs with h <;> rfl
  refine ⟨⟨?_, ?_, ?_, ?_, ?_, ?_, ?_⟩, ?_⟩
  · have h1 := w.counter
    rw [valid_count] at h1
    rw [cc, valid_count, h1]
    have e1 := Finset.add_sum_erase (Finset.range 64)
      (fun p => (hValid m p).toNat) (Finset.mem_range.mpr hq)
    have e2 := Finset.add_sum_erase (Finset.range 64)
      (fun p => (hValid m' p).toNat) (Finset.mem_range.mpr hq)
    have e3 : ∑ x ∈ (Finset.range 64).erase q,
        (hValid m' x).toNat = ∑ x ∈ (Finset.range 64).erase q, (hValid m x).toNat := by
      apply Finset.sum_congr rfl; intro x hx
      rw [VV x (Finset.mem_range.mp (Finset.mem_of_mem_erase hx)) (Finset.ne_of_mem_erase hx)]
    simp only [hv, vq] at e1 e2
    have : ∑ p ∈ Finset.range 64, (hValid m p).toNat < 256 := by rw [← h1]; exact countOf_lt m
    simp at e1 e2
    omega
  · intro p hp vp lp
    have hpq : p ≠ q := by rintro rfl; simp [vq] at vp
    rw [VV p hp hpq] at vp
    rw [LL p hp hpq] at lp ⊢
    rw [BB p hp hpq]
    exact w.runsInRange p hp vp lp
  · intro p hp vp lp
    have hpq : p ≠ q := by rintro rfl; simp [vq] at vp
    rw [VV p hp hpq] at vp
    rw [LL p hp hpq] at lp
    rw [BB p hp hpq]
    exact w.emptyBases p hp vp lp
  · intro p hp r hr hne x ⟨⟨v1,a1,a2⟩,⟨v2,c1,c2⟩⟩
    have hpq : p ≠ q := by rintro rfl; simp [vq] at v1
    have hrq : r ≠ q := by rintro rfl; simp [vq] at v2
    rw [VV p hp hpq] at v1; rw [LL p hp hpq] at a2; rw [BB p hp hpq] at a1 a2
    rw [VV r hr hrq] at v2; rw [LL r hr hrq] at c2; rw [BB r hr hrq] at c1 c2
    exact w.disjoint p hp r hr hne x ⟨⟨v1,a1,a2⟩,⟨v2,c1,c2⟩⟩
  · intro x hx
    rw [ev x hx]
    constructor
    · intro h
      split_ifs at h with c1
      obtain ⟨p, hp, vp, g1, g2⟩ := (w.validBits x hx).mp h
      have hpq : p ≠ q := by rintro rfl; omega
      exact ⟨p, hp, by rw [VV p hp hpq]; exact vp, by rw [BB p hp hpq]; omega,
          by rw [LL p hp hpq, BB p hp hpq]; omega⟩
    · rintro ⟨p, hp, vp, g1, g2⟩
      have hpq : p ≠ q := by rintro rfl; simp [vq] at vp
      rw [VV p hp hpq] at vp
      rw [BB p hp hpq] at g1 g2; rw [LL p hp hpq] at g2
      have := fr p hp hpq vp (by omega)
      rw [if_neg (by omega)]
      exact (w.validBits x hx).mpr ⟨p, hp, vp, g1, g2⟩
  · intro x hx
    rw [eq x hx]
    constructor
    · intro h
      have h' : eQb m x = true := by split_ifs at h <;> simp_all
      obtain ⟨p, hp, vp, lp, g1⟩ := (w.markers x hx).mp h'
      have hpq : p ≠ q := by
        rintro rfl
        rw [if_pos (by omega)] at h
        simp [g1] at h
      exact ⟨p, hp, by rw [VV p hp hpq]; exact vp, by rw [LL p hp hpq]; omega,
          by rw [BB p hp hpq]; omega⟩
    · rintro ⟨p, hp, vp, lp, g1⟩
      have hpq : p ≠ q := by rintro rfl; simp [vq] at vp
      rw [VV p hp hpq] at vp
      rw [BB p hp hpq] at g1; rw [LL p hp hpq] at lp
      have := fr p hp hpq vp (by omega)
      rw [if_neg (by omega)]
      exact (w.markers x hx).mpr ⟨p, hp, vp, lp, g1⟩
  · intro p hp vp
    have hpq : p ≠ q := by rintro rfl; simp [vq] at vp
    rw [VV p hp hpq] at vp
    rw [LL p hp hpq]; exact w.lengths p hp vp
  · intro p hp hpq vp
    unfold contents
    rw [LL p hp hpq, BB p hp hpq]
    apply List.map_congr_left
    intro k hk
    have := List.mem_range.mp hk
    have := fr p hp hpq vp (by omega)
    rw [ea _ (by omega)]

/-- The free header `q` becomes an empty queue (43_engine.md R201). -/
theorem wf_addQueue {m m' : Memory} (w : WF m) {q f : Nat} (hq : q < 64) (hv : hValid m q = false)
    (hf : f ≤ 1484) (cc : countOf m' = (countOf m + 1) % 256)
    (vv : ∀ p < 64, hValid m' p = if p = q then true else hValid m p)
    (ll : ∀ p < 64, hLength m' p = if p = q then 0 else hLength m p)
    (bb : ∀ p < 64, hBase m' p = if p = q then f else hBase m p)
    (ee : ∀ x < 1484, entryAt m' x = entryAt m x) : WF m' := by
  have hql : hLength m' q = 0 := by rw [ll q hq, if_pos rfl]
  have hqb : hBase m' q = f := by rw [bb q hq, if_pos rfl]
  have LL : ∀ p < 64, p ≠ q → hLength m' p = hLength m p :=
      fun p hp h => by rw [ll p hp, if_neg h]
  have BB : ∀ p < 64, p ≠ q → hBase m' p = hBase m p := fun p hp h => by rw [bb p hp, if_neg h]
  have VV : ∀ p < 64, p ≠ q → hValid m' p = hValid m p := fun p hp h => by rw [vv p hp, if_neg h]
  have vq : hValid m' q = true := by rw [vv q hq, if_pos rfl]
  have ev : ∀ x < 1484, eValid m' x = eValid m x := by
    intro x hx; have := congrArg Entry.valid (ee x hx); simpa using this
  have eq : ∀ x < 1484, eQb m' x = eQb m x := by
    intro x hx; have := congrArg Entry.qb (ee x hx); simpa using this
  refine ⟨?_, ?_, ?_, ?_, ?_, ?_, ?_⟩
  · have h1 := w.counter
    rw [valid_count] at h1
    rw [cc, valid_count, h1]
    have e1 := Finset.add_sum_erase (Finset.range 64)
      (fun p => (hValid m p).toNat) (Finset.mem_range.mpr hq)
    have e2 := Finset.add_sum_erase (Finset.range 64)
      (fun p => (hValid m' p).toNat) (Finset.mem_range.mpr hq)
    have e3 : ∑ x ∈ (Finset.range 64).erase q,
        (hValid m' x).toNat = ∑ x ∈ (Finset.range 64).erase q, (hValid m x).toNat := by
      apply Finset.sum_congr rfl; intro x hx
      rw [VV x (Finset.mem_range.mp (Finset.mem_of_mem_erase hx)) (Finset.ne_of_mem_erase hx)]
    have e4 : ∑ p ∈ Finset.range 64, (hValid m p).toNat ≤ ∑ p ∈ Finset.range 64, 1 :=
        Finset.sum_le_sum (fun p _ => Bool.toNat_le _)
    simp only [hv, vq] at e1 e2
    simp at e1 e2 e4
    omega
  · intro p hp vp lp
    have hpq : p ≠ q := by rintro rfl; omega
    rw [VV p hp hpq] at vp
    rw [LL p hp hpq] at lp ⊢
    rw [BB p hp hpq]
    exact w.runsInRange p hp vp lp
  · intro p hp vp lp
    by_cases hpq : p = q
    · subst hpq; omega
    rw [VV p hp hpq] at vp
    rw [LL p hp hpq] at lp
    rw [BB p hp hpq]
    exact w.emptyBases p hp vp lp
  · intro p hp r hr hne x ⟨⟨v1,a1,a2⟩,⟨v2,c1,c2⟩⟩
    have hpq : p ≠ q := by rintro rfl; omega
    have hrq : r ≠ q := by rintro rfl; omega
    rw [VV p hp hpq] at v1; rw [LL p hp hpq] at a2; rw [BB p hp hpq] at a1 a2
    rw [VV r hr hrq] at v2; rw [LL r hr hrq] at c2; rw [BB r hr hrq] at c1 c2
    exact w.disjoint p hp r hr hne x ⟨⟨v1,a1,a2⟩,⟨v2,c1,c2⟩⟩
  · intro x hx
    rw [ev x hx, w.validBits x hx]
    constructor
    · rintro ⟨p, hp, vp, g1, g2⟩
      have hpq : p ≠ q := by rintro rfl; simp [hv] at vp
      exact ⟨p, hp, by rw [VV p hp hpq]; exact vp, by rw [BB p hp hpq]; omega,
          by rw [LL p hp hpq, BB p hp hpq]; omega⟩
    · rintro ⟨p, hp, vp, g1, g2⟩
      have hpq : p ≠ q := by rintro rfl; omega
      rw [VV p hp hpq] at vp
      rw [BB p hp hpq] at g1 g2; rw [LL p hp hpq] at g2
      exact ⟨p, hp, vp, g1, g2⟩
  · intro x hx
    rw [eq x hx, w.markers x hx]
    constructor
    · rintro ⟨p, hp, vp, lp, g1⟩
      have hpq : p ≠ q := by rintro rfl; simp [hv] at vp
      exact ⟨p, hp, by rw [VV p hp hpq]; exact vp, by rw [LL p hp hpq]; omega,
          by rw [BB p hp hpq]; omega⟩
    · rintro ⟨p, hp, vp, lp, g1⟩
      have hpq : p ≠ q := by rintro rfl; omega
      rw [VV p hp hpq] at vp
      rw [BB p hp hpq] at g1; rw [LL p hp hpq] at lp
      exact ⟨p, hp, vp, lp, g1⟩
  · intro p hp vp
    rw [ll p hp]; split_ifs with hpq
    · omega
    · rw [VV p hp hpq] at vp; exact w.lengths p hp vp

end Sys2Proof.Machine
end

