-- ==== Sys2Proof/Tests/Slice0.lean ====
section
/-! SUPPORT. The model's own tests: the well-formedness checks, words and bytes written out from the
spec (30_encoding.md, 95_test_vectors.md), and one witness for the hypotheses of each statement. -/

namespace Sys2Proof.Tests

open Sys2Proof.Machine

/-! ### Well-formedness: each check refuses an ill-formed term (30_encoding.md R110, R111) -/

theorem test_wf_destroy_qid : (Instr.destroy 256).wellFormed = false := by decide
theorem test_wf_enq_qid : (Instr.enq 256 0x00#8).wellFormed = false := by decide
theorem test_wf_deq_qid : (Instr.deq 256).wellFormed = false := by decide
theorem test_wf_rdfield_offset : (Instr.rdfield 16384 1).wellFormed = false := by decide
theorem test_wf_rdfield_width : (Instr.rdfield 0 32).wellFormed = false := by decide
theorem test_wf_pseudo_qid : (Pseudo.rdhdr 64).wellFormed = false := by decide
theorem test_wf_pseudo_slot : (Pseudo.rdent 1484).wellFormed = false := by decide
theorem test_wf_null_handle_encodes : (Instr.enq 255 0x01#8).wellFormed = true := by decide

/-! ### Decoding: words written out bit by bit from the formats (30_encoding.md R102, R106) -/

theorem test_decode_create : decode 0b00010000000000000000000000000000#32 = .ok .create := by decide
theorem test_decode_destroy :
    decode 0b00100000000000000000000010000001#32 = .ok (.destroy 0b10000001) := by decide
theorem test_decode_enq :
    decode 0b00110000000000001010010111000011#32 = .ok (.enq 0b11000011 0b10100101#8) := by decide
theorem test_decode_deq : decode 0b01000000000000000000000001000010#32 = .ok (.deq 0b1000010) := by
  decide
theorem test_decode_rdfield : decode 0b01010000000001100011111111101000#32 =
    .ok (.rdfield 0b11111111101000 0b11000) := by decide
/-- Vector X9: the reserved bit is found before the null handle (95_test_vectors.md 2.3). -/
theorem test_decode_reserved_bit : decode 0x400001FF#32 = .error .reservedBits := by decide
theorem test_decode_reserved_opcode : decode 0x60000000#32 = .error .reservedOpcode := by decide
theorem test_table_word : decodeTableWord 32 0x3000AA00 = some (.enq 0 0xAA#8) := by decide

/-- `ENQ NULL, 1` is 0x300001FF (95_test_vectors.md P3, line 3). -/
theorem test_assemble_enq_null : assemble "ENQ NULL, 1".toList = some 0x300001FF#32 := by decide
/-- `RDENT 3` is 0x50028626 (95_test_vectors.md P1, line 14). -/
theorem test_assemble_rdent : assemble "rdent 3".toList = some 0x50028626#32 := by decide
theorem test_assemble_refuses_byte : assemble "ENQ 0, 256".toList = none := by decide

/-! ### Single commands on the byte images of 95_test_vectors.md -/

/-- The bytes from address `a` up as an arena. -/
def bytesFrom (a : Nat) (bs : List Byte) : Memory :=
  (bs.zipIdx a).filterMap (fun c => if c.1 = 0#8 then none else some (c.2, c.1))

/-- The arena with these first bytes and these bytes from 193 up. -/
def image (monitor entries : List Byte) : Memory := bytesFrom 0 monitor ++ bytesFrom 193 entries

/-- A machine whose next step runs the word on the arena. -/
def loaded (m : Memory) (w : Nat) : State := { State.reset with arena := m }.withFetchWord 32 w

/-- Arena, RESULT and STATUS after a step, if it answers. -/
def outcome (s : State) : Option (Memory × Word × Word) :=
  match step s with
  | .next t => some (t.arena, t.result, t.status)
  | .fault _ => none
  | .refused _ => none

/-- Vector C2. -/
theorem test_create : outcome (loaded (image [0x01, 0x80, 0x00, 0x04] [0xD0, 0x54, 0x20]) 0x10000000) =
    some (image [0x02, 0x80, 0x00, 0x04, 0x80, 0x20, 0x00] [0xD0, 0x54, 0x20], 1, 0) := by decide +kernel
/-- Vector D1. -/
theorem test_destroy : outcome (loaded (image [0x01, 0x80, 0x00, 0x04] [0xD0, 0x54, 0x20]) 0x20000000) =
    some (image [0x00, 0x5C, 0xC0, 0x00] [0x10, 0x44, 0x20], 0, 0) := by decide +kernel
/-- Vector D2: an empty queue whose stale base is another queue's base. -/
theorem test_destroy_stale : outcome (loaded
      (image [0x02, 0x80, 0x00, 0x02, 0x80, 0x00, 0x00] [0xC4, 0x40]) 0x20000001) =
    some (image [0x01, 0x80, 0x00, 0x02, 0x5C, 0xC0, 0x00] [0xC4, 0x40], 0, 0) := by decide +kernel
/-- Vector E6: ShiftRight over two runs. -/
theorem test_enq_shift_right : outcome (loaded (image
      [0x03, 0x80, 0x00, 0x02, 0x80, 0x10, 0x02, 0x80, 0x20, 0x04]
      [0xC0, 0x70, 0x2C, 0x0D, 0x04]) 0x30005500) =
    some (image [0x03, 0x80, 0x00, 0x04, 0x80, 0x20, 0x02, 0x80, 0x30, 0x04]
      [0xC0, 0x55, 0x5C, 0x0B, 0x03, 0x41], 0, 0) := by decide +kernel
/-- Vector E11: RelocateLeft from slot 1483; entry 1483 is 0x306 in the last ten bits. -/
theorem test_enq_relocate_left : outcome (loaded
      (image [0x01, 0xDC, 0xC0, 0x00] [0x01, 0x40]) 0x30000600) =
    some (image [0x01, 0xDC, 0xB0, 0x02] [0x01, 0x40] ++ bytesFrom 2046 [0x03, 0x06], 0, 0) := by
  decide +kernel
/-- Vector Q1. -/
theorem test_deq : outcome (loaded (image [0x01, 0x80, 0x00, 0x04] [0xC0, 0x10, 0x10]) 0x40000000) =
    some (image [0x01, 0x80, 0x10, 0x02] [0x00, 0x30, 0x10], 0, 0) := by decide +kernel
/-- Vector Q2. -/
theorem test_deq_last : outcome (loaded (image [0x01, 0x80, 0x00, 0x02] [0xC1, 0x40]) 0x40000000) =
    some (image [0x01, 0xDC, 0xC0, 0x00] [0x01, 0x40], 5, 0) := by decide +kernel
/-- Vector R8. -/
theorem test_rdfield : outcome (loaded (image [0x01, 0x80, 0x00, 0x02] [0xE9, 0x40]) 0x50028608) =
    some (image [0x01, 0x80, 0x00, 0x02] [0xE9, 0x40], 0x3A5, 0) := by decide +kernel
/-- Vector R6. -/
theorem test_rdfield_bad : outcome (loaded [] 0x5000BFFF) = some ([], 0, 0x174) := by decide +kernel

/-! ### Witness arenas -/

/-- `m` with the slots `b .. b+k-1` valid, the first marked. -/
def filled (b : Nat) : Nat → Memory → Memory
  | 0, m => m
  | k + 1, m => (filled b k m).withEntry (b + k) ⟨decide (k = 0), true, 0x00#8⟩

/-- Queue 0 alone, with base `b` and the `n` bytes 0x00. -/
def runAt (b n : Nat) : Memory :=
  filled b n (((Memory.withCount [] 1).withValid 0 true).withBase 0 b |>.withLength 0 n)

/-- Queue 0 in slot 0 and queue 1 in slot 1, one byte each. -/
def twoRuns : Memory :=
  (((((((Memory.withCount [] 2).withValid 0 true).withLength 0 1).withValid 1 true).withBase 1 1).withLength 1 1).withEntry
    0 ⟨true, true, 0x11#8⟩).withEntry 1 ⟨true, true, 0x22#8⟩

theorem nil_bit (k : Nat) : Memory.bit [] k = false := by simp [Memory.bit]
theorem nil_bits (o w : Nat) : Memory.bits [] o w = 0 := by
  induction w with
  | zero => rfl
  | succ w ih => simp [bits_succ, ih, nil_bit]
theorem nil_hValid (q : Nat) : hValid [] q = false := nil_bit _
theorem nil_hBase (q : Nat) : hBase [] q = 0 := nil_bits _ _
theorem nil_hLength (q : Nat) : hLength [] q = 0 := nil_bits _ _
theorem nil_eValid (x : Nat) : eValid [] x = false := nil_bit _
theorem nil_eQb (x : Nat) : eQb [] x = false := nil_bit _
theorem nil_entryAt (x : Nat) : entryAt [] x = ⟨false, false, 0x00#8⟩ := by
  simp [entryAt, eQb, eValid, eValue, nil_bit, nil_bits]

theorem filled_headers (b : Nat) (m : Memory) : ∀ k, countOf (filled b k m) = countOf m ∧
    ∀ p < 64, hValid (filled b k m) p = hValid m p ∧ hBase (filled b k m) p = hBase m p ∧
      hLength (filled b k m) p = hLength m p
  | 0 => ⟨rfl, fun _ _ => ⟨rfl, rfl, rfl⟩⟩
  | k + 1 => by
    obtain ⟨h1, h2⟩ := filled_headers b m k
    refine ⟨by simp [filled, h1], fun p hp => ?_⟩
    obtain ⟨h3, h4, h5⟩ := h2 p hp
    simp [filled, hp, h3, h4, h5]

theorem filled_entryAt (b : Nat) (m : Memory) (x : Nat) : ∀ k, entryAt (filled b k m) x =
    if b ≤ x ∧ x < b + k then ⟨decide (x = b), true, 0x00#8⟩ else entryAt m x
  | 0 => by rw [if_neg (by omega)]; rfl
  | k + 1 => by
    rw [filled, entryAt_withEntry, filled_entryAt b m x k]
    by_cases h : x = b + k
    · have h2 : (k = 0) = (b + k = b) := propext (by omega)
      rw [if_pos h, if_pos (by omega), h]
      simp only [h2]
    · rw [if_neg h]
      by_cases h2 : b ≤ x ∧ x < b + k
      · rw [if_pos h2, if_pos (by omega)]
      · rw [if_neg h2, if_neg (by omega)]

theorem runAt_headers {b n : Nat} (hb : b ≤ 1484) (hn : n ≤ 1484) : countOf (runAt b n) = 1 ∧
    ∀ p < 64, hValid (runAt b n) p = decide (p = 0) ∧
      hBase (runAt b n) p = (if p = 0 then b else 0) ∧ hLength (runAt b n) p = if p = 0 then n else 0 := by
  obtain ⟨h1, h2⟩ := filled_headers b
    (((Memory.withCount [] 1).withValid 0 true).withBase 0 b |>.withLength 0 n) n
  refine ⟨h1.trans (by simp), fun p hp => ?_⟩
  obtain ⟨h3, h4, h5⟩ := h2 p hp
  refine ⟨h3.trans ?_, h4.trans ?_, h5.trans ?_⟩
  · by_cases h : p = 0 <;> simp [hValid_withValid, nil_hValid, h]
  · by_cases h : p = 0
    · simp [hBase_withBase, h]; omega
    · simp [hBase_withBase, nil_hBase, h]
  · by_cases h : p = 0
    · simp [hLength_withLength, h]; omega
    · simp [hLength_withLength, nil_hLength, h]

theorem runAt_entryAt (b n x : Nat) : entryAt (runAt b n) x =
    if b ≤ x ∧ x < b + n then ⟨decide (x = b), true, 0x00#8⟩ else ⟨false, false, 0x00#8⟩ := by
  rw [runAt, filled_entryAt]
  simp [nil_entryAt]

theorem runAt_eValid (b n x : Nat) : eValid (runAt b n) x = decide (b ≤ x ∧ x < b + n) := by
  have h := congrArg Entry.valid (runAt_entryAt b n x)
  rw [entryAt_valid] at h
  rw [h]
  split <;> simp_all

/-- One queue with its run in range is a well-formed arena. -/
theorem runAt_wf {b n : Nat} (hb : b ≤ 1484) (hbn : n = 0 ∨ b + n ≤ 1484) : WF (runAt b n) := by
  obtain ⟨hc, hh⟩ := runAt_headers hb (n := n) (by omega)
  have only : ∀ p < 64, hValid (runAt b n) p = true → p = 0 := fun p hp h => by
    rw [(hh p hp).1] at h; exact of_decide_eq_true h
  obtain ⟨v0, b0, l0⟩ := hh 0 (by decide)
  rw [if_pos rfl] at b0 l0
  refine ⟨?_, ?_, ?_, ?_, ?_, ?_, ?_⟩
  · have : (List.range 64).filter (hValid (runAt b n)) = (List.range 64).filter (fun p => decide (p = 0)) :=
      List.filter_congr (fun p hp => (hh p (List.mem_range.mp hp)).1)
    rw [hc, this]; decide
  · intro p hp hv hl; obtain rfl := only p hp hv; omega
  · intro p hp hv hl; obtain rfl := only p hp hv; omega
  · rintro p hp r hr hne x ⟨h1, h2⟩
    exact hne ((only p hp h1.1).trans (only r hr h2.1).symm)
  · intro x hx
    rw [runAt_eValid]
    constructor
    · intro h
      have h := of_decide_eq_true h
      exact ⟨0, by decide, by rw [v0]; rfl, by omega, by omega⟩
    · rintro ⟨p, hp, hv, h1, h2⟩
      obtain rfl := only p hp hv
      exact decide_eq_true ⟨by omega, by omega⟩
  · intro x hx
    have h := congrArg Entry.qb (runAt_entryAt b n x)
    rw [entryAt_qb] at h
    rw [h]
    constructor
    · intro g
      split at g
      · exact ⟨0, by decide, by rw [v0]; rfl, by omega, by have := of_decide_eq_true g; omega⟩
      · simp at g
    · rintro ⟨p, hp, hv, hl, g⟩
      obtain rfl := only p hp hv
      rw [if_pos (by omega)]
      exact decide_eq_true (by omega)
  · intro p hp hv; obtain rfl := only p hp hv; omega

theorem twoRuns_views : countOf twoRuns = 2 ∧
    (∀ p < 64, hValid twoRuns p = (decide (p = 0) || decide (p = 1)) ∧
      hBase twoRuns p = (if p = 1 then 1 else 0) ∧
      hLength twoRuns p = if p = 0 ∨ p = 1 then 1 else 0) ∧
    ∀ x, eValid twoRuns x = (decide (x = 0) || decide (x = 1)) ∧
      eQb twoRuns x = (decide (x = 0) || decide (x = 1)) := by
  refine ⟨by simp [twoRuns], fun p hp => ⟨?_, ?_, ?_⟩, fun x => ⟨?_, ?_⟩⟩
  · by_cases h0 : p = 0 <;> by_cases h1 : p = 1 <;>
      simp [twoRuns, hp, hValid_withValid, nil_hValid, h0, h1]
  · by_cases h1 : p = 1 <;> simp [twoRuns, hp, hBase_withBase, nil_hBase, h1]
  · by_cases h0 : p = 0 <;> by_cases h1 : p = 1 <;>
      simp [twoRuns, hp, hLength_withLength, nil_hLength, h0, h1]
  · by_cases h0 : x = 0 <;> by_cases h1 : x = 1 <;>
      simp [twoRuns, eValid_withEntry, h0, h1, nil_eValid]
  · by_cases h0 : x = 0 <;> by_cases h1 : x = 1 <;>
      simp [twoRuns, eQb_withEntry, h0, h1, nil_eQb]

theorem twoRuns_wf : WF twoRuns := by
  obtain ⟨hc, hh, he⟩ := twoRuns_views
  have only : ∀ p < 64, hValid twoRuns p = true → p = 0 ∨ p = 1 := fun p hp h => by
    rw [(hh p hp).1] at h; simpa using h
  obtain ⟨v0, b0, l0⟩ := hh 0 (by decide)
  obtain ⟨v1, b1, l1⟩ := hh 1 (by decide)
  simp only [if_true, if_false, true_or, or_true, zero_ne_one, decide_true, Bool.true_or, Bool.or_true] at b0 l0 b1 l1 v0 v1
  refine ⟨?_, ?_, ?_, ?_, ?_, ?_, ?_⟩
  · have : (List.range 64).filter (hValid twoRuns) =
        (List.range 64).filter (fun p => decide (p = 0) || decide (p = 1)) :=
      List.filter_congr (fun p hp => (hh p (List.mem_range.mp hp)).1)
    rw [hc, this]; decide
  · intro p hp hv hl; rcases only p hp hv with rfl | rfl <;> omega
  · intro p hp hv hl; rcases only p hp hv with rfl | rfl <;> omega
  · rintro p hp r hr hne x ⟨⟨a1, a2, a3⟩, ⟨c1, c2, c3⟩⟩
    rcases only p hp a1 with rfl | rfl <;> rcases only r hr c1 with rfl | rfl <;> omega
  · intro x hx
    rw [(he x).1]
    constructor
    · intro h
      have h : x = 0 ∨ x = 1 := by simpa using h
      rcases h with rfl | rfl
      · exact ⟨0, by decide, v0, by omega, by omega⟩
      · exact ⟨1, by decide, v1, by omega, by omega⟩
    · rintro ⟨p, hp, hv, h1, h2⟩
      rcases only p hp hv with rfl | rfl
      · have : x = 0 := by omega
        simp [this]
      · have : x = 1 := by omega
        simp [this]
  · intro x hx
    rw [(he x).2]
    constructor
    · intro h
      have h : x = 0 ∨ x = 1 := by simpa using h
      rcases h with rfl | rfl
      · exact ⟨0, by decide, v0, by omega, by omega⟩
      · exact ⟨1, by decide, v1, by omega, by omega⟩
    · rintro ⟨p, hp, hv, hl, g⟩
      rcases only p hp hv with rfl | rfl
      · have : x = 0 := by omega
        simp [this]
      · have : x = 1 := by omega
        simp [this]
  · intro p hp hv; rcases only p hp hv with rfl | rfl <;> omega

/-! ### Witnesses: states and operands that meet the hypotheses of each statement together -/

/-- An idle machine on an arena. -/
def idleOn (m : Memory) : State := { State.reset with arena := m }

/-- A busy machine on an arena, with a command. -/
def busyOn (m : Memory) (w : Word) : State := { State.reset with arena := m, cmdbuf := w, fsm := .busy }

/-- The reset arena in a control state, with host events to come. -/
def facing (f : Fsm) (es : List HostEvent) : State := { State.reset with fsm := f, host := es }

/-- LAST_ERR after a step that answers. -/
def errorAfter : Host.Outcome State Fault Refusal → Option ErrKind
  | .next t => some t.lastErr
  | .fault _ => none
  | .refused _ => none

theorem next_of_errorAfter {o : Host.Outcome State Fault Refusal} {e : ErrKind}
    (h : errorAfter o = some e) : ∃ t, o = .next t ∧ t.lastErr = e := by
  cases o with
  | next t => exact ⟨t, rfl, by simpa [errorAfter] using h⟩
  | fault f => simp [errorAfter] at h
  | refused r => simp [errorAfter] at h

/-- The refusal of a step that is refused. -/
def refusalAfter : Host.Outcome State Fault Refusal → Option Refusal
  | .next _ => none
  | .fault _ => none
  | .refused r => some r

theorem refused_of_refusalAfter {o : Host.Outcome State Fault Refusal} {r : Refusal}
    (h : refusalAfter o = some r) : o = .refused r := by
  cases o with
  | next t => simp [refusalAfter] at h
  | fault f => simp [refusalAfter] at h
  | refused x => simpa [refusalAfter] using h

/-- 63 valid headers, then one that is not. -/
def lastFree : Memory := bytesFrom 0 (0x3F#8 :: List.replicate 63 0x80#8 |>.flatMap (fun b =>
  if b = 0x3F#8 then [b] else [b, 0x00#8, 0x00#8]))

/-- 64 valid headers. -/
def noneFree : Memory := bytesFrom 0 (0x40#8 :: List.replicate 64 0x80#8 |>.flatMap (fun b =>
  if b = 0x40#8 then [b] else [b, 0x00#8, 0x00#8]))

theorem witness_DecodeOfEncode : Instr.create.wellFormed = true ∧ (Instr.destroy 255).wellFormed = true ∧
    (Instr.enq 255 0xFF#8).wellFormed = true ∧ (Instr.deq 255).wellFormed = true ∧
    (Instr.rdfield 16383 31).wellFormed = true := by decide
theorem witness_EncodeOfDecode : decode 0x3000FFFF#32 = .ok (.enq 255 0xFF#8) := by decide
theorem witness_ReservedOpcodeRaises :
    ((busyOn [] 0x00000000#32).fsm = .busy ∧ (busyOn [] 0x00000000#32).nextEvent = .quiet ∧
      ((busyOn [] 0x00000000#32).cmdbuf.extractLsb' 28 4).toNat = 0) ∧
    (busyOn [] 0x60000000#32).fsm = .busy ∧ (busyOn [] 0x60000000#32).nextEvent = .quiet ∧
      6 ≤ ((busyOn [] 0x60000000#32).cmdbuf.extractLsb' 28 4).toNat := by decide
/-- Vectors X5, X7, X6, X8 and the same for DESTROY. -/
theorem witness_ReservedBitsRaise :
    (busyOn [] 0x18000000#32).fsm = .busy ∧ (busyOn [] 0x18000000#32).nextEvent = .quiet ∧
    (0x18000000#32).extractLsb' 28 4 = 1#4 ∧ (0x18000000#32).extractLsb' 0 28 ≠ 0#28 ∧
    (0x20000100#32).extractLsb' 28 4 = 2#4 ∧ (0x20000100#32).extractLsb' 8 20 ≠ 0#20 ∧
    (0x30010000#32).extractLsb' 28 4 = 3#4 ∧ (0x30010000#32).extractLsb' 16 12 ≠ 0#12 ∧
    (0x40000100#32).extractLsb' 28 4 = 4#4 ∧ (0x40000100#32).extractLsb' 8 20 ≠ 0#20 ∧
    (0x50080000#32).extractLsb' 28 4 = 5#4 ∧ (0x50080000#32).extractLsb' 19 9 ≠ 0#9 := by decide
theorem witness_PseudoCommandsRead : (Pseudo.rdhdr 63).wellFormed = true ∧
    (Pseudo.rdent 1483).wellFormed = true := by decide
/-- The last 24 bits of the arena, and the arena of the example. -/
theorem witness_FieldReadIsBitSum : (1 ≤ 24 ∧ 24 ≤ 24 ∧ 16360 + 24 ≤ 16384) ∧
    Memory.read (image [] [0xE9, 0x40]) 193 = 0xE9#8 ∧
    Memory.read (image [] [0xE9, 0x40]) 194 = 0x40#8 := by decide
theorem witness_FieldWriteSetsExactlyItsBits : 1 ≤ 24 ∧ 24 ≤ 24 ∧ 16360 + 24 ≤ 16384 := by decide
theorem witness_CodecReadAfterWriteLaws : (1 ≤ 24 ∧ 24 ≤ 24 ∧ 16360 + 24 ≤ 16384) ∧
    Memory.wf (image [0xFF] []) ∧
    (∃ m', fieldWrite (image [0xFF] []) 16360 24 5 = .ok m') ∧
    (16359 + 1 ≤ 16360 ∧ ∃ m1 m2 m3, fieldWrite (Memory.putBits [] 16360 24 5) 16359 1 1 = .ok m1 ∧
      fieldWrite [] 16359 1 1 = .ok m2 ∧ fieldWrite m2 16360 24 5 = .ok m3) ∧
    (∃ u m', fieldRead (image [0xFF] []) 0 24 = .ok u ∧ fieldWrite (image [0xFF] []) 0 24 u = .ok m') ∧
    0 < 23 ∧ 23 < 24 ∧ ∃ x y, fieldRead (image [0xFF] []) 0 23 = .ok x ∧
      fieldRead (image [0xFF] []) (0 + 23) (24 - 23) = .ok y :=
  ⟨by decide, by decide, ⟨_, rfl⟩, ⟨by decide, _, _, _, rfl, rfl, rfl⟩, ⟨_, _, rfl, rfl⟩, by decide,
    by decide, _, _, rfl, rfl⟩
theorem witness_OutOfRangeAccessesAreInternal : 24 < 25 ∧ 16384 < 16384 + 1 ∧ 1484 ≤ 1484 ∧ 64 ≤ 64 := by
  decide
theorem witness_RdfieldReturnsField : 1 ≤ 1 ∧ 1 ≤ 24 ∧ 16383 + 1 ≤ 16384 := by decide
theorem witness_RdfieldBadField : (0 = 0) ∧ 24 < 25 ∧ 16384 < 16383 + 2 := by decide
theorem witness_CreateAllocatesLowestQid :
    (hValid State.reset.arena 0 = false ∧ ∀ p < 0, hValid State.reset.arena p = true) ∧
    (hValid lastFree 63 = false ∧ ∀ p < 63, hValid lastFree p = true) ∧
    eValid State.reset.arena 0 = false ∧
    ((hValid (runAt 0 1484) 1 = false ∧ ∀ p < 1, hValid (runAt 0 1484) p = true) ∧
      ∀ x < 1484, eValid (runAt 0 1484) x = true) := by
  obtain ⟨-, hh⟩ := runAt_headers (b := 0) (n := 1484) (by decide) (by decide)
  refine ⟨by decide, by decide +kernel, by decide, ⟨by rw [(hh 1 (by decide)).1]; rfl, fun p hp => ?_⟩,
    fun x hx => ?_⟩
  · rw [(hh p (by omega)).1]; exact decide_eq_true (by omega)
  · rw [runAt_eValid]; exact decide_eq_true ⟨by omega, by omega⟩
theorem witness_CreateWithoutFreeHeader : ∀ p < 64, hValid (idleOn noneFree).arena p = true := by
  decide +kernel
/-- A run that ends in the last slot, and an empty queue with base INVALID. -/
theorem witness_DestroyFreesTheRun :
    (hValid (runAt 1483 1) 0 = true ∧ hBase (runAt 1483 1) 0 = 1483 ∧ hLength (runAt 1483 1) 0 = 1 ∧
      1483 + 1 ≤ 1484) ∧
    hValid (runAt 1484 0) 0 = true ∧ hBase (runAt 1484 0) 0 = 1484 ∧ hLength (runAt 1484 0) 0 = 0 := by
  decide +kernel
theorem witness_DestroyedSlotsAreFound : WF (runAt 0 1) ∧ inRun (runAt 0 1) 0 0 ∧
    ∃ t, exec (.destroy 0) (idleOn (runAt 0 1)) = .next t ∧ t.lastErr = .success :=
  ⟨runAt_wf (by decide) (by decide), ⟨by decide +kernel, by decide +kernel, by decide +kernel⟩,
    next_of_errorAfter (by decide +kernel)⟩
theorem witness_BadHandlesAreRejected :
    Instr.deq 64 = .deq 64 ∧ 64 ≤ 64 ∧ 63 < 64 ∧ hValid State.reset.arena 63 = false := by decide
theorem witness_EnqFastPath : hValid (runAt 1483 0) 0 = true ∧ hLength (runAt 1483 0) 0 = 0 ∧
    hBase (runAt 1483 0) 0 = 1483 ∧ 1483 < 1484 ∧ eValid (runAt 1483 0) 1483 = false := by
  decide +kernel
theorem witness_EnqAppendDirect : hValid (runAt 1482 1) 0 = true ∧ hBase (runAt 1482 1) 0 = 1482 ∧
    hLength (runAt 1482 1) 0 = 1 ∧ 1482 + 1 < 1484 ∧ eValid (runAt 1482 1) (1482 + 1) = false := by
  decide +kernel
/-- Queue 1 is empty and its base is queue 0's slot. -/
theorem witness_EnqRelocateRight :
    hValid ((runAt 1482 1).withValid 1 true |>.withBase 1 1482) 1 = true ∧
    hBase ((runAt 1482 1).withValid 1 true |>.withBase 1 1482) 1 = 1482 ∧
    hLength ((runAt 1482 1).withValid 1 true |>.withBase 1 1482) 1 = 0 ∧
    eValid ((runAt 1482 1).withValid 1 true |>.withBase 1 1482) 1483 = false ∧
    ∀ x < 1483, 1482 ≤ x → eValid ((runAt 1482 1).withValid 1 true |>.withBase 1 1482) x = true := by
  refine ⟨by decide +kernel, by decide +kernel, by decide +kernel, by decide +kernel, fun x h1 h2 => ?_⟩
  simp only [eValid_withBase _ _ (by decide : 1 < 64), eValid_withValid, runAt_eValid]
  exact decide_eq_true ⟨by omega, by omega⟩
theorem witness_EnqShiftRight : WF twoRuns ∧ hValid twoRuns 0 = true ∧ hBase twoRuns 0 = 0 ∧
    hLength twoRuns 0 = 1 ∧ 0 + 1 < 2 ∧ eValid twoRuns 2 = false ∧
    ∀ x < 2, 0 + 1 ≤ x → eValid twoRuns x = true :=
  ⟨twoRuns_wf, by decide +kernel, by decide +kernel, by decide +kernel, by decide, by decide +kernel,
    by decide +kernel⟩
theorem witness_EnqRelocateLeft : hValid (runAt 1484 0) 0 = true ∧ hBase (runAt 1484 0) 0 = 1484 ∧
    hLength (runAt 1484 0) 0 = 0 ∧ 1484 ≤ 1484 ∧ (∀ x < 1484, ¬ 1484 ≤ x) ∧ 1483 < 1484 ∧
    eValid (runAt 1484 0) 1483 = false ∧ ∀ x < 1484, ¬ 1483 < x :=
  ⟨by decide +kernel, by decide +kernel, by decide +kernel, by decide, fun x h => by omega, by decide,
    by decide +kernel, fun x h => by omega⟩
theorem witness_EnqShiftLeft : WF (runAt 1483 1) ∧ hValid (runAt 1483 1) 0 = true ∧
    hBase (runAt 1483 1) 0 = 1483 ∧ hLength (runAt 1483 1) 0 = 1 ∧ (∀ x < 1484, ¬ 1483 + 1 ≤ x) ∧
    1482 < 1483 ∧ eValid (runAt 1483 1) 1482 = false ∧ ∀ x < 1483, ¬ 1482 < x :=
  ⟨runAt_wf (by decide) (by decide), by decide +kernel, by decide +kernel, by decide +kernel,
    fun x h => by omega, by decide, by decide +kernel, fun x h => by omega⟩
/-- The full arena (scenario B). -/
theorem witness_EnqOutOfMemory : hValid (runAt 0 1484) 0 = true ∧ hBase (runAt 0 1484) 0 = 0 ∧
    hLength (runAt 0 1484) 0 = 1484 ∧ (∀ x < 1484, ¬ 0 + 1484 ≤ x) ∧ ∀ x < 0, eValid (runAt 0 1484) x = true := by
  obtain ⟨-, hh⟩ := runAt_headers (b := 0) (n := 1484) (by decide) (by decide)
  obtain ⟨h1, h2, h3⟩ := hh 0 (by decide)
  exact ⟨h1, h2, h3, fun x h => by omega, fun x h => by omega⟩
/-- The full arena, and one with a free slot. -/
theorem witness_CapacityIsEverySlot :
    (WF (runAt 0 1484) ∧ hValid (runAt 0 1484) 0 = true ∧ ∀ x < 1484, eValid (runAt 0 1484) x = true) ∧
    WF (runAt 0 1483) ∧ hValid (runAt 0 1483) 0 = true ∧ ∃ x < 1484, eValid (runAt 0 1483) x = false := by
  obtain ⟨-, hh⟩ := runAt_headers (b := 0) (n := 1484) (by decide) (by decide)
  obtain ⟨-, gg⟩ := runAt_headers (b := 0) (n := 1483) (by decide) (by decide)
  refine ⟨⟨runAt_wf (by decide) (by decide), (hh 0 (by decide)).1, fun x hx => ?_⟩,
    runAt_wf (by decide) (by decide), (gg 0 (by decide)).1, 1483, by decide, ?_⟩
  · rw [runAt_eValid]; exact decide_eq_true ⟨by omega, by omega⟩
  · rw [runAt_eValid]; exact decide_eq_false (by omega)
theorem witness_DeqAdvancesBase : hValid (runAt 1482 2) 0 = true ∧ hBase (runAt 1482 2) 0 = 1482 ∧
    hLength (runAt 1482 2) 0 = 2 ∧ 1 < 2 ∧ 1482 + 1 < 1484 := by decide +kernel
theorem witness_DeqEmptiesQueue : hValid (runAt 1483 1) 0 = true ∧ hBase (runAt 1483 1) 0 = 1483 ∧
    hLength (runAt 1483 1) 0 = 1 ∧ 1483 < 1484 := by decide +kernel
theorem witness_DeqOnEmptyQueue : hValid (runAt 1484 0) 0 = true ∧ hLength (runAt 1484 0) 0 = 0 := by
  decide +kernel
theorem witness_EnqAppendsToContents : WF (runAt 0 1) ∧
    (∃ t, exec (.enq 0 0x5A#8) (idleOn (runAt 0 1)) = .next t ∧ t.lastErr = .success) ∧
    WF twoRuns ∧ 1 < 64 ∧ 1 ≠ 0 ∧ hValid twoRuns 1 = true ∧
    ∃ t, exec (.enq 0 0x5A#8) (idleOn twoRuns) = .next t ∧ t.lastErr = .success :=
  ⟨runAt_wf (by decide) (by decide), next_of_errorAfter (by decide +kernel), twoRuns_wf, by decide,
    by decide, by decide +kernel, next_of_errorAfter (by decide +kernel)⟩
theorem witness_DeqRemovesOldest : WF twoRuns ∧ hValid twoRuns 1 = true ∧
    ∃ t, exec (.deq 0) (idleOn twoRuns) = .next t ∧ t.lastErr = .success :=
  ⟨twoRuns_wf, by decide +kernel, next_of_errorAfter (by decide +kernel)⟩
theorem witness_LifecycleKeepsOtherQueues : WF twoRuns ∧
    (∃ t, exec .create (idleOn twoRuns) = .next t ∧ t.lastErr = .success) ∧
    ∃ t, exec (.destroy 0) (idleOn twoRuns) = .next t ∧ t.lastErr = .success :=
  ⟨twoRuns_wf, next_of_errorAfter (by decide +kernel), next_of_errorAfter (by decide +kernel)⟩
/-- DEQ NULL. -/
theorem witness_ErrorsArePrecise : (busyOn [] 0x400000FF#32).fsm = .busy ∧
    (busyOn [] 0x400000FF#32).nextEvent = .quiet ∧
    ∃ t, step (busyOn [] 0x400000FF#32) = .next t ∧ t.lastErr = .illegalOperation :=
  ⟨rfl, rfl, next_of_errorAfter (by decide +kernel)⟩
/-- One command of each ending: CREATE, DEQ NULL, ENQ on a queue as long as the store. -/
theorem witness_OneHookEventPerError :
    (∃ t, step (busyOn [] 0x10000000#32) = .next t ∧ t.lastErr = .success) ∧
    (∃ t, step (busyOn [] 0x400000FF#32) = .next t ∧ t.lastErr = .illegalOperation) ∧
    ∃ t, step (busyOn (((Memory.withCount [] 1).withValid 0 true).withLength 0 1484) 0x3000AA00#32) =
      .next t ∧ t.lastErr = .outOfMemory :=
  ⟨next_of_errorAfter (by decide +kernel), next_of_errorAfter (by decide +kernel),
    next_of_errorAfter (by decide +kernel)⟩
theorem witness_NoHookEventElsewhere : (facing .idle []).fsm ≠ .busy ∧
    (facing .busy [.rst]).nextEvent ≠ .quiet ∧
    ∃ t, step (facing .busy [.rst]) = .next t ∧ t.lastErr = .success :=
  ⟨by decide, by decide, next_of_errorAfter (by decide +kernel)⟩
/-- Two machines that differ in RESULT, STATUS and the host events to come; and an arena, a run of two
bytes from the last slot, on which the same command is INTERNAL. -/
theorem witness_OutcomeDependsOnArenaAndWord :
    (busyOn [] 0x10000000#32).fsm = .busy ∧ (busyOn [] 0x10000000#32).nextEvent = .quiet ∧
    (((busyOn [] 0x10000000#32).raiseError .badField).withFetchWord 32 0x10000000).fsm = .busy ∧
    (((busyOn [] 0x10000000#32).raiseError .badField).withFetchWord 32 0x10000000).nextEvent = .quiet ∧
    (busyOn [] 0x10000000#32).arena =
      (((busyOn [] 0x10000000#32).raiseError .badField).withFetchWord 32 0x10000000).arena ∧
    (busyOn [] 0x10000000#32).cmdbuf =
      (((busyOn [] 0x10000000#32).raiseError .badField).withFetchWord 32 0x10000000).cmdbuf ∧
    step (busyOn (((Memory.withValid [] 0 true).withBase 0 1483).withLength 0 2) 0x40000000#32) =
      .refused .internal :=
  ⟨rfl, rfl, rfl, rfl, rfl, by decide, refused_of_refusalAfter (by decide +kernel)⟩
theorem witness_StatusAtCompletion : (busyOn [] 0x10000000#32).fsm = .busy ∧
    (busyOn [] 0x10000000#32).nextEvent = .quiet ∧ (busyOn [] 0x10000000#32).nextEvent ≠ .rst ∧
    ∃ t, step (busyOn [] 0x10000000#32) = .next t ∧ t.lastErr = .success :=
  ⟨rfl, rfl, by decide, next_of_errorAfter (by decide +kernel)⟩
theorem witness_EngineResumesAfterError : (facing .halted [.write 0#14 4 0x10000000#32]).fsm = .halted ∧
    (facing .halted [.write 0#14 4 0x10000000#32]).host = .write 0#14 4 0x10000000#32 :: [] ∧
    ∃ t, step (busyOn [] 0x400000FF#32) = .next t ∧ t.lastErr = .illegalOperation :=
  ⟨rfl, rfl, next_of_errorAfter (by decide +kernel)⟩
theorem witness_RstResetsEverything : (facing .busy [.rst]).host = .rst :: [] ∧
    (facing .halted [.quiet]).nextEvent ≠ .rst ∧ (facing .halted [.quiet]).fsm = .halted ∧
    ∃ t, step (facing .halted [.quiet]) = .next t ∧ t.lastErr = .success :=
  ⟨rfl, by decide, rfl, next_of_errorAfter (by decide +kernel)⟩
theorem witness_CmdWriteStartsCommand :
    (facing .idle [.write 0#14 4 0x10000000#32]).host = .write 0#14 4 0x10000000#32 :: [] ∧
    (facing .idle []).fsm = .idle ∧ (facing .busy []).fsm ≠ .idle ∧ (facing .halted []).fsm ≠ .idle ∧
    (facing .idle [.read 0#14 4]).host = .read 0#14 4 :: [] := by decide
theorem witness_RegisterReadsAnswer : (facing .idle [.read 0x0FFC#14 4]).host = .read 0x0FFC#14 4 :: [] ∧
    (0x0FFC#14).toNat % 4 = 0 ∧ 0x0018 ≤ (0x0FFC#14).toNat ∧ (0x0FFC#14).toNat ≤ 0x0FFC ∧
    (0x0018#14).toNat % 4 = 0 ∧ 0x0018 ≤ (0x0018#14).toNat ∧
    (0x3000#14).toNat % 4 = 0 ∧ 0x3000 ≤ (0x3000#14).toNat ∧
    (0x3FFC#14).toNat % 4 = 0 ∧ 0x3000 ≤ (0x3FFC#14).toNat := by decide
theorem witness_ArenaWindowReads : 2047 < 2048 ∧
    (facing .idle [.read (BitVec.ofNat 14 (0x1000 + 4 * 2047)) 4]).fsm ≠ .busy ∧
    (facing .busy [.read (BitVec.ofNat 14 (0x1000 + 4 * 2047)) 4]).fsm = .busy ∧
    (facing .idle [.write (BitVec.ofNat 14 0x1000) 4 5#32]).host =
      .write (BitVec.ofNat 14 (0x1000 + 4 * 0)) 4 5#32 :: [] := by decide
theorem witness_OtherWritesAreIgnored : (0x3FFC#14).toNat % 4 = 0 ∧ 0x3FFC#14 ≠ 0#14 ∧
    (facing .idle [.write 0x3FFC#14 4 5#32]).host = .write 0x3FFC#14 4 5#32 :: [] := by decide
theorem witness_OddAccessesAreRefused : (0x0004#14).toNat % 4 = 0 ∧ 2 ≠ 4 ∧
    (0x0002#14).toNat % 4 ≠ 0 ∧
    (facing .idle [.write 0x0004#14 2 5#32]).host = .write 0x0004#14 2 5#32 :: [] ∧
    (facing .idle [.read 0x0002#14 4]).host = .read 0x0002#14 4 :: [] := by decide
theorem witness_AccessesWhileBusyKeepCommand :
    (facing .busy [.write 0#14 4 0x10000000#32]).fsm = .busy ∧
    (facing .busy [.write 0#14 4 0x10000000#32]).nextEvent ≠ .quiet ∧
    (facing .busy [.write 0#14 4 0x10000000#32]).nextEvent ≠ .rst ∧
    ∃ t, step (facing .busy [.write 0#14 4 0x10000000#32]) = .next t ∧ t.lastErr = .success :=
  ⟨rfl, by decide, by decide, next_of_errorAfter (by decide +kernel)⟩
theorem witness_IssueSequenceReadsOutcome :
    (facing .idle (issue 0x10000000#32)).fsm = .idle ∧
    (facing .idle (issue 0x10000000#32)).host = issue 0x10000000#32 ++ [] ∧
    ∃ a, step (facing .idle (issue 0x10000000#32)) = .next a ∧
      ∃ b, step a = .next b ∧ b.lastErr = .success :=
  ⟨rfl, rfl, _, rfl, next_of_errorAfter (by decide +kernel)⟩
theorem witness_StepRunsDecodedCommand : (busyOn [] 0x30005A00#32).fsm = .busy ∧
    (busyOn [] 0x30005A00#32).nextEvent = .quiet ∧
    decode (busyOn [] 0x30005A00#32).cmdbuf = .ok (.enq 0 0x5A#8) ∧
    0x5007FFFF < 2 ^ 32 ∧ decode (BitVec.ofNat 32 0x5007FFFF) = .ok (.rdfield 16383 31) := by decide
theorem witness_WellFormedStatesComplete : WF twoRuns ∧ WF (runAt 0 1484) :=
  ⟨twoRuns_wf, runAt_wf (by decide) (by decide)⟩
/-- An idle machine on an arena whose host issues CREATE. -/
def createOn (m : Memory) : State := { facing .idle (issue 0x10000000#32) with arena := m }
theorem createOn_arena (m : Memory) : (createOn m).arena = m := rfl
theorem busyOn_arena (m : Memory) (w : Word) : (busyOn m w).arena = m := rfl
theorem witness_ContractStepsAreSafe : WF (createOn twoRuns).arena ∧ hostInContract (createOn twoRuns) := by
  refine ⟨by rw [createOn_arena]; exact twoRuns_wf, ?_⟩
  intro e he
  simp only [createOn, facing, issue, List.mem_cons, List.not_mem_nil, or_false] at he
  rcases he with rfl | rfl | rfl | rfl <;> decide
theorem witness_StepKeepsWellFormed : WF (busyOn twoRuns 0x30005500#32).arena ∧
    ∃ t, step (busyOn twoRuns 0x30005500#32) = .next t ∧ t.lastErr = .success :=
  ⟨by rw [busyOn_arena]; exact twoRuns_wf, next_of_errorAfter (by decide +kernel)⟩
theorem witness_StepKeepsArenaForm : Memory.wf (busyOn twoRuns 0x30005500#32).arena ∧
    Memory.inArena (busyOn twoRuns 0x30005500#32).arena ∧ padsClear (busyOn twoRuns 0x30005500#32).arena ∧
    ∃ t, step (busyOn twoRuns 0x30005500#32) = .next t ∧ t.lastErr = .success :=
  ⟨by decide +kernel, by decide +kernel, fun q hq => by
    revert q; decide +kernel, next_of_errorAfter (by decide +kernel)⟩
/-- A state after an error: the last command was DEQ NULL. -/
theorem witness_StepKeepsStatusConsistent :
    StatusConsistent ((busyOn [] 0x400000FF#32).raiseError .nullHandle) ∧
    ∃ t, step ((busyOn [] 0x400000FF#32).raiseError .nullHandle) = .next t ∧
      t.lastErr = .illegalOperation := by
  refine ⟨?_, next_of_errorAfter (by decide +kernel)⟩
  constructor <;> simp [busyOn, hookEvents, State.reset]

end Sys2Proof.Tests
end

section
/-! The parameters of 00_scope.md R8 at their reference values: the derived ones, the exact division
of R9 and the constraints of R10. -/

namespace Sys2Proof.Config

@[simp] theorem reference_arenaBytes : reference.arenaBytes = 2048 := rfl
@[simp] theorem reference_maxQueues : reference.maxQueues = 64 := rfl
@[simp] theorem reference_entryBitWidth : reference.entryBitWidth = 10 := rfl

@[simp] theorem reference_monitorSegmentBytes : reference.monitorSegmentBytes = 193 := by
  simp [Params.monitorSegmentBytes]

/-- The entry records fill the arena behind the header table, and no bit is left over
(00_scope.md R9). -/
theorem reference_entrySegmentBits :
    (reference.arenaBytes - reference.monitorSegmentBytes) * 8 =
      maxEntries * reference.entryBitWidth := by
  simp

@[simp] theorem reference_maxEntries : reference.maxEntries = maxEntries := by
  have positiveWidth : 0 < reference.entryBitWidth := by simp
  rw [Params.maxEntries, reference_entrySegmentBits, Nat.mul_div_cancel _ positiveWidth]

theorem reference_legal : reference.legal := by
  simp [Params.legal]

/-- Settles O57: the entry segment is exactly 1484 records of 10 bits, and the remaining parts are
read off the parameters' values. -/
theorem referenceParametersAreLegal : Obligations.ReferenceParametersAreLegal := by
  have exactDivision :
      (reference.arenaBytes - reference.monitorSegmentBytes) * 8 % 10 = 0 := by
    rw [reference_entrySegmentBits, reference_entryBitWidth, Nat.mul_mod_left]
  exact ⟨reference_legal, reference_monitorSegmentBytes, reference_maxEntries,
    reference_arenaBytes, reference_maxQueues, rfl, exactDivision⟩

end Sys2Proof.Config
end

section
/-! The host's side of a step: the state after reset, the register map as equations, the STATUS word
as a number, what each bus access answers, and that STATUS stays consistent (10_state.md R28 to R41,
60_exceptions.md R304, R305). -/

namespace Sys2Proof.Machine

/-! ### The state after reset -/

theorem reset_bit (k : Nat) : State.reset.arena.bit k = false := by
  simp [State.reset, Memory.bit]

theorem reset_bits (o w : Nat) : State.reset.arena.bits o w = 0 :=
  Nat.eq_of_testBit_eq fun i => by rw [testBit_bits, reset_bit, Bool.and_false, Nat.zero_testBit]

theorem reset_entryAt (x : Nat) : entryAt State.reset.arena x = ⟨false, false, 0#8⟩ := by
  simp only [entryAt, eQb, eValid, eValue, reset_bit, reset_bits]

theorem reset_status : State.reset.status = 0#32 := by decide

/-! ### The register map -/

@[simp] theorem readRegister_cmd (s : State) : readRegister s 0x0000#14 = 0#32 := rfl
@[simp] theorem readRegister_status (s : State) : readRegister s 0x0004#14 = s.status := rfl
@[simp] theorem readRegister_result (s : State) : readRegister s 0x0008#14 = s.result := rfl
@[simp] theorem readRegister_config0 (s : State) : readRegister s 0x000C#14 = Config.config0 := rfl
@[simp] theorem readRegister_config1 (s : State) : readRegister s 0x0010#14 = Config.config1 := rfl
@[simp] theorem readRegister_identification (s : State) :
    readRegister s 0x0014#14 = Config.identification := rfl

@[simp] theorem beginStep_status (s : State) : s.beginStep.status = s.status := rfl

/-- An offset behind ID and outside the ARENA window (10_state.md R36). -/
def unmapped (a : BitVec 14) : Prop := 0x0018 ≤ a.toNat ∧ a.toNat ≤ 0x0FFC ∨ 0x3000 ≤ a.toNat

theorem inWindow_unmapped {a : BitVec 14} (h : unmapped a) : inWindow a = false := by
  unfold unmapped at h
  simp only [inWindow, Bool.and_eq_false_iff, decide_eq_false_iff_not]
  omega

theorem readRegister_unmapped {a : BitVec 14} (h : unmapped a) (s : State) :
    readRegister s a = 0#32 := by
  have noWindow := inWindow_unmapped h
  unfold unmapped at h
  unfold readRegister
  iterate 6 rw [if_neg (by omega)]
  simp [noWindow]

/-! ### Accesses -/

theorem alignedWord_iff {a : BitVec 14} {n : Nat} :
    alignedWord a n = true ↔ n = 4 ∧ a.toNat % 4 = 0 := by
  simp [alignedWord]

theorem alignedWord_four {a : BitVec 14} (h : a.toNat % 4 = 0) : alignedWord a 4 = true :=
  alignedWord_iff.mpr ⟨rfl, h⟩

theorem busWrite_cmd (s : State) (w : Word) : busWrite s 0#14 w = writeCmd s w := rfl

theorem busWrite_other {a : BitVec 14} (h : a ≠ 0#14) (s : State) (w : Word) : busWrite s a w = s :=
  if_neg (BitVec.toNat_ne.mp h)

theorem busRead_register {a : BitVec 14} (h : inWindow a = false) (s : State) :
    busRead s a = { s with busRdata := readRegister s a } := by
  simp [busRead, h]

/-! ### The step of each host event -/

theorem nextEvent_of_host {s : State} {e : HostEvent} {rest : List HostEvent}
    (h : s.host = e :: rest) : s.nextEvent = e := by
  simp [State.nextEvent, h]

theorem step_rst {s : State} (h : s.nextEvent = .rst) : step s = .next s.beginStep.applyReset := by
  rw [step_event (by simp [h]), h]
  rfl

theorem step_write_cases {s : State} {a : BitVec 14} {n : Nat} {w : Word}
    (h : s.nextEvent = .write a n w) :
    step s = if alignedWord a n then .next (busWrite s.beginStep a w) else .refused .busAccess := by
  rw [step_event (by simp [h]), h]
  rfl

theorem step_read_cases {s : State} {a : BitVec 14} {n : Nat} (h : s.nextEvent = .read a n) :
    step s = if alignedWord a n then .next (busRead s.beginStep a) else .refused .busAccess := by
  rw [step_event (by simp [h]), h]
  rfl

theorem step_write {s : State} {a : BitVec 14} {w : Word} (h : s.nextEvent = .write a 4 w)
    (ha : a.toNat % 4 = 0) : step s = .next (busWrite s.beginStep a w) := by
  rw [step_write_cases h, if_pos (alignedWord_four ha)]

theorem step_read {s : State} {a : BitVec 14} (h : s.nextEvent = .read a 4)
    (ha : a.toNat % 4 = 0) : step s = .next (busRead s.beginStep a) := by
  rw [step_read_cases h, if_pos (alignedWord_four ha)]

theorem step_read_register {s : State} {a : BitVec 14} {v : Word} (h : s.nextEvent = .read a 4)
    (ha : a.toNat % 4 = 0) (hw : inWindow a = false) (hv : readRegister s.beginStep a = v) :
    step s = .next { s.beginStep with busRdata := v } := by
  rw [step_read h ha, busRead_register hw, hv]

/-- All a step can do when it answers, by its host event. -/
theorem step_next {s t : State} (h : step s = .next t) :
    (s.nextEvent = .quiet ∧ s.fsm = .busy ∧
      ((∃ m v, t = s.beginStep.succeed m v) ∨ ∃ c, c ≠ .none ∧ t = s.beginStep.raiseError c)) ∨
    (s.nextEvent = .quiet ∧ s.fsm ≠ .busy ∧ t = s.beginStep) ∨
    (s.nextEvent = .rst ∧ t = s.beginStep.applyReset) ∨
    (∃ a w, s.nextEvent = .write a 4 w ∧ a.toNat % 4 = 0 ∧ t = busWrite s.beginStep a w) ∨
    ∃ a, s.nextEvent = .read a 4 ∧ a.toNat % 4 = 0 ∧ t = busRead s.beginStep a := by
  cases he : s.nextEvent with
  | quiet =>
    by_cases hb : s.fsm = .busy
    · exact .inl ⟨rfl, hb, step_busy_quiet_next hb he h⟩
    · have hb' : s.beginStep.fsm ≠ .busy := hb
      rw [step_quiet he, engineTurn_not_busy hb'] at h
      cases h
      exact .inr (.inl ⟨rfl, hb, rfl⟩)
  | rst =>
    rw [step_rst he] at h
    cases h
    exact .inr (.inr (.inl ⟨rfl, rfl⟩))
  | write a n w =>
    rw [step_write_cases he] at h
    split at h
    · next aligned =>
      obtain ⟨rfl, offset⟩ := alignedWord_iff.mp aligned
      cases h
      exact .inr (.inr (.inr (.inl ⟨a, w, rfl, offset, rfl⟩)))
    · cases h
  | read a n =>
    rw [step_read_cases he] at h
    split at h
    · next aligned =>
      obtain ⟨rfl, offset⟩ := alignedWord_iff.mp aligned
      cases h
      exact .inr (.inr (.inr (.inr ⟨a, rfl, offset, rfl⟩)))
    · cases h

/-! ### The STATUS word as a number -/

theorem ErrKind.code_le (e : ErrKind) : e.code ≤ 2 := by cases e <;> decide
theorem Cause.code_le (c : Cause) : c.code ≤ 8 := by cases c <;> decide

/-- The digits of the STATUS word: each field fits between its neighbours, so none carries into the
next. -/
theorem status_digits (s : State) :
    s.status.toNat / 2 ^ 0 % 2 = s.busy.toNat ∧ s.status.toNat / 2 ^ 1 % 2 = s.haltedBit.toNat ∧
    s.status.toNat / 2 ^ 2 % 2 ^ 2 = s.lastErr.code ∧
    s.status.toNat / 2 ^ 4 % 2 ^ 4 = s.lastCause.code ∧
    s.status.toNat / 2 ^ 8 % 2 = s.stickyIllop.toNat ∧
    s.status.toNat / 2 ^ 9 % 2 = s.stickyOom.toNat ∧
    s.status.toNat / 2 ^ 10 % 2 = s.stickyOverrun.toNat ∧
    s.status.toNat / 2 ^ 11 % 2 ^ 21 = 0 := by
  have busy_le := Bool.toNat_le s.busy
  have halted_le := Bool.toNat_le s.haltedBit
  have err_le := s.lastErr.code_le
  have cause_le := s.lastCause.code_le
  have illop_le := Bool.toNat_le s.stickyIllop
  have oom_le := Bool.toNat_le s.stickyOom
  have overrun_le := Bool.toNat_le s.stickyOverrun
  rw [State.status, BitVec.toNat_ofNat]
  omega

theorem getLsbD_of_digit {w : Word} {k : Nat} {b : Bool} (h : w.toNat / 2 ^ k % 2 = b.toNat) :
    w.getLsbD k = b := by
  rw [BitVec.getLsbD, Nat.testBit_eq_decide_div_mod_eq, h]
  cases b <;> rfl

theorem toNat_extractLsb'_eq_digits (w : Word) (k n : Nat) :
    (w.extractLsb' k n).toNat = w.toNat / 2 ^ k % 2 ^ n := by
  rw [BitVec.extractLsb'_toNat, Nat.shiftRight_eq_div_pow]

/-! ### STATUS stays consistent -/

/-- The one event of an ending is on the output of its cause's kind. -/
theorem mem_hookEvents {c : Cause} {e : HookEvent} :
    e ∈ hookEvents c ↔ (c.kind = .illegalOperation ∧ e = ⟨.illop, c⟩) ∨
      (c.kind = .outOfMemory ∧ e = ⟨.oom, c⟩) := by
  unfold hookEvents
  cases c.kind <;> simp

theorem statusConsistent_recordOutcome {s : State} (h : StatusConsistent s) (c : Cause) :
    StatusConsistent (s.recordOutcome c) where
  kind := rfl
  illopSticks hk := by simpa using .inr hk
  oomSticks hk := by simpa using .inr hk
  illopLogged hs := by
    simp only [recordOutcome_stickyIllop, Bool.or_eq_true, decide_eq_true_eq] at hs
    rcases hs with before | now
    · obtain ⟨e, he, hook⟩ := h.illopLogged before
      exact ⟨e, List.mem_append_right _ he, hook⟩
    · exact ⟨⟨.illop, c⟩, List.mem_append_left _ (mem_hookEvents.mpr (.inl ⟨now, rfl⟩)), rfl⟩
  oomLogged hs := by
    simp only [recordOutcome_stickyOom, Bool.or_eq_true, decide_eq_true_eq] at hs
    rcases hs with before | now
    · obtain ⟨e, he, hook⟩ := h.oomLogged before
      exact ⟨e, List.mem_append_right _ he, hook⟩
    · exact ⟨⟨.oom, c⟩, List.mem_append_left _ (mem_hookEvents.mpr (.inr ⟨now, rfl⟩)), rfl⟩
  logIllop e he := by
    rcases List.mem_append.mp he with new | old
    · rcases mem_hookEvents.mp new with ⟨hk, rfl⟩ | ⟨hk, rfl⟩ <;> simp [hk]
    · exact h.logIllop e old
  logOom e he := by
    rcases List.mem_append.mp he with new | old
    · rcases mem_hookEvents.mp new with ⟨hk, rfl⟩ | ⟨hk, rfl⟩ <;> simp [hk]
    · exact h.logOom e old
  notBoth := by
    simp only [recordOutcome_hookIllop, recordOutcome_hookOom, decide_eq_true_eq]
    rintro ⟨illegal, oom⟩
    rw [illegal] at oom
    cases oom
  pulseIllop := by simp
  pulseOom := by simp
  notHalted := h.notHalted

theorem statusConsistent_raiseError {s : State} (h : StatusConsistent s) (c : Cause) :
    StatusConsistent (s.raiseError c) :=
  { statusConsistent_recordOutcome h c with notHalted := by simp }

theorem statusConsistent_succeed {s : State} (h : StatusConsistent s) (m : Memory) (r : Nat) :
    StatusConsistent (s.succeed m r) :=
  { statusConsistent_recordOutcome h .none with notHalted := by simp }

theorem statusConsistent_beginStep {s : State} (h : StatusConsistent s) :
    StatusConsistent s.beginStep :=
  { h with notBoth := by simp, pulseIllop := by simp, pulseOom := by simp }

/-- `rst` clears every sticky bit, so the history it keeps owes them no event. -/
theorem statusConsistent_applyReset {s : State} (h : StatusConsistent s) :
    StatusConsistent s.applyReset where
  kind := rfl
  illopSticks := by simp
  oomSticks := by simp
  illopLogged := by simp
  oomLogged := by simp
  logIllop := h.logIllop
  logOom := h.logOom
  notBoth := by simp
  pulseIllop := by simp
  pulseOom := by simp
  notHalted := by simp

theorem statusConsistent_writeCmd {s : State} (h : StatusConsistent s) (w : Word) :
    StatusConsistent (writeCmd s w) := by
  by_cases hi : s.fsm = .idle
  · rw [writeCmd_idle hi]
    exact { h with notHalted := by simp }
  · rw [writeCmd_not_idle hi]
    exact { h with }

theorem statusConsistent_busWrite {s : State} (h : StatusConsistent s) (a : BitVec 14) (w : Word) :
    StatusConsistent (busWrite s a w) := by
  by_cases ha : a = 0#14
  · rw [ha, busWrite_cmd]
    exact statusConsistent_writeCmd h w
  · rwa [busWrite_other ha]

theorem statusConsistent_busRead {s : State} (h : StatusConsistent s) (a : BitVec 14) :
    StatusConsistent (busRead s a) := by
  unfold busRead
  split
  · exact { h with }
  · exact { h with }

/-! ### The obligations -/

/-- Settles O55: a step is its start followed by a completion, `rst` or a bus access, and each of
these keeps STATUS consistent. -/
theorem stepKeepsStatusConsistent : Obligations.StepKeepsStatusConsistent := by
  intro s t hs hstep
  have start := statusConsistent_beginStep hs
  rcases step_next hstep with
    ⟨-, -, ⟨m, v, rfl⟩ | ⟨c, -, rfl⟩⟩ | ⟨-, -, rfl⟩ | ⟨-, rfl⟩ | ⟨a, w, -, -, rfl⟩ | ⟨a, -, -, rfl⟩
  · exact statusConsistent_succeed start m v
  · exact statusConsistent_raiseError start c
  · exact start
  · exact statusConsistent_applyReset start
  · exact statusConsistent_busWrite start a w
  · exact statusConsistent_busRead start a

/-- Settles O39: no bit of the arena is set at reset, so every field of every record is 0. -/
theorem resetValues : Obligations.ResetValues := by
  have headers (q : Nat) (_ : q < 64) : hValid State.reset.arena q = false ∧
      hBase State.reset.arena q = 0 ∧ hLength State.reset.arena q = 0 ∧
      hPad State.reset.arena q = false :=
    ⟨reset_bit _, reset_bits _ _, reset_bits _ _, reset_bit _⟩
  exact ⟨Memory.read_nil, reset_bits _ _, headers, fun x _ => reset_entryAt x, rfl, rfl,
    reset_status, rfl, rfl, rfl, readRegister_config0 _, readRegister_config1 _,
    readRegister_identification _⟩

/-- Settles O42: CMD is the one offset that takes a write, and the FSM decides what it does. -/
theorem cmdWriteStartsCommand : Obligations.CmdWriteStartsCommand := by
  refine fun s w rest => ⟨fun hwrite => ?_, fun hread => ?_⟩
  · have hstep : step s = .next (writeCmd s.beginStep w) :=
      step_write (nextEvent_of_host hwrite) rfl
    rw [hstep]
    exact ⟨fun idle => congrArg _ (writeCmd_idle (s := s.beginStep) idle w),
      fun notIdle => congrArg _ (writeCmd_not_idle (s := s.beginStep) notIdle w)⟩
  · exact step_read_register (nextEvent_of_host hread) rfl (by decide) (readRegister_cmd _)

/-- Settles O43: outside the ARENA window a read answers its register and changes nothing else. -/
theorem registerReadsAnswer : Obligations.RegisterReadsAnswer := by
  intro s a rest hhost
  have register {b : BitVec 14} {v : Word} (aligned : b.toNat % 4 = 0)
      (outside : inWindow b = false) (value : readRegister s.beginStep b = v) :
      a = b → step s = .next { s.beginStep with busRdata := v } := by
    rintro rfl
    exact step_read_register (nextEvent_of_host hhost) aligned outside value
  exact ⟨register rfl (by decide) (readRegister_identification _),
    register rfl (by decide) (readRegister_config0 _),
    register rfl (by decide) (readRegister_config1 _),
    register rfl (by decide) ((readRegister_status _).trans (beginStep_status s)),
    register rfl (by decide) ((readRegister_result _).trans (beginStep_result s)),
    fun aligned outside =>
      register aligned (inWindow_unmapped outside) (readRegister_unmapped outside _) rfl⟩

/-- Settles O44: each field is a digit, or a group of digits, of the STATUS word. -/
theorem statusWordLayout : Obligations.StatusWordLayout := by
  intro s
  obtain ⟨busy, halted, err, cause, illop, oom, overrun, reserved⟩ := status_digits s
  have lastErr : (s.status.extractLsb' 2 2).toNat = s.lastErr.code := by
    rw [toNat_extractLsb'_eq_digits, err]
  refine ⟨getLsbD_of_digit busy, getLsbD_of_digit halted, lastErr, ?_, getLsbD_of_digit illop,
    getLsbD_of_digit oom, getLsbD_of_digit overrun, ?_, fun three => ?_⟩
  · rw [toNat_extractLsb'_eq_digits, cause]
  · apply BitVec.eq_of_toNat_eq
    rw [toNat_extractLsb'_eq_digits, reserved, BitVec.toNat_zero]
  · have code_le := s.lastErr.code_le
    rw [← lastErr, three] at code_le
    exact absurd code_le (by decide)

/-- Settles O46: a write takes effect at CMD alone. -/
theorem otherWritesAreIgnored : Obligations.OtherWritesAreIgnored := by
  intro s a w rest aligned notCmd hhost
  rw [step_write (nextEvent_of_host hhost) aligned, busWrite_other notCmd]

/-- Settles O47: the host's turn looks at the access's form before anything else. -/
theorem oddAccessesAreRefused : Obligations.OddAccessesAreRefused := by
  intro s a n w rest odd access
  have notAligned : ¬ alignedWord a n = true := fun aligned => by
    obtain ⟨size, offset⟩ := alignedWord_iff.mp aligned
    exact odd.elim (· size) (· offset)
  rcases access with hwrite | hread
  · rw [step_write_cases (nextEvent_of_host hwrite), if_neg notAligned]
  · rw [step_read_cases (nextEvent_of_host hread), if_neg notAligned]

end Sys2Proof.Machine
end

section
/-! A field's value as a function of the bytes it lies in: the sum of its bits, and the leading bits
of a byte as a quotient (20_memory.md R65). -/

namespace Sys2Proof.Machine

/-- Arena bit `k` as a digit of its byte (00_scope.md R11). -/
theorem toNat_bit (m : Memory) (k : Nat) :
    (m.bit k).toNat = (m.read (k / 8)).toNat / 2 ^ (7 - k % 8) % 2 :=
  Nat.toNat_testBit _ _

/-- Appending a bit doubles the weight of every bit before it. -/
theorem bits_eq_sum (m : Memory) (o w : Nat) :
    m.bits o w = ∑ i ∈ Finset.range w, (m.bit (o + i)).toNat * 2 ^ (w - 1 - i) := by
  induction w with
  | zero => rfl
  | succ w ih =>
    have doubled : ∀ i ∈ Finset.range w, 2 * ((m.bit (o + i)).toNat * 2 ^ (w - 1 - i)) =
        (m.bit (o + i)).toNat * 2 ^ (w + 1 - 1 - i) := by
      intro i hi
      have weight : w + 1 - 1 - i = (w - 1 - i) + 1 := by
        have := Finset.mem_range.mp hi
        omega
      rw [weight, pow_succ]
      ring
    rw [bits_succ, ih, Finset.mul_sum, Finset.sum_congr rfl doubled, Finset.sum_range_succ]
    simp

/-- The first `w` bits of a byte are its `w` most significant ones. -/
theorem bits_leading (m : Memory) (a : Nat) {w : Nat} (hw : w ≤ 8) :
    m.bits (8 * a) w = (m.read a).toNat / 2 ^ (8 - w) := by
  apply Nat.eq_of_testBit_eq
  intro i
  rw [testBit_bits, Nat.testBit_div_two_pow]
  by_cases hi : i < w
  · have byte : (8 * a + w - 1 - i) / 8 = a := by omega
    have position : 7 - (8 * a + w - 1 - i) % 8 = i + (8 - w) := by omega
    simp [hi, Memory.bit, byte, position, BitVec.getLsbD]
  · have beyond : (m.read a).getLsbD (i + (8 - w)) = false :=
      BitVec.getLsbD_of_ge _ _ (by omega)
    simpa [hi, BitVec.getLsbD] using beyond.symm

/-- Settles O8: a field is the sum of its bits, and R65's example is the byte 0xE9 followed by the
two leading bits of 0x40. -/
theorem fieldReadIsBitSum : Obligations.FieldReadIsBitSum := by
  refine ⟨fun m o w positive narrow inside => ?_, fun m first second => ?_⟩
  · rw [fieldRead_in positive narrow inside, bits_eq_sum]
    simp only [toNat_bit]
  · have firstByte : m.bits 1544 8 = 0xE9 := by
      rw [bits_leading m 193 (by decide), first]
      rfl
    have secondByte : m.bits 1552 2 = 1 := by
      rw [bits_leading m 194 (by decide), second]
      rfl
    have straddling : m.bits 1544 10 = 0x3A5 := calc
      m.bits 1544 (8 + 2) = m.bits 1544 8 * 2 ^ 2 + m.bits 1552 2 := bits_add m 1544 8 2
      _ = 0x3A5 := by rw [firstByte, secondByte]; norm_num
    rw [fieldRead_in (by decide) (by decide) (by decide), straddling,
      fieldRead_in (by decide) (by decide) (by decide), firstByte,
      fieldRead_in (by decide) (by decide) (by decide), secondByte]
    exact ⟨rfl, rfl, rfl⟩

end Sys2Proof.Machine
end

section
/-! The decoder and the encoder, said once: a word decodes to a command exactly when it carries the
command's opcode, its operands and no reserved bit (30_encoding.md R109), and the word of an
encodable command is a sum in which every field has its own digits (R102, R106). -/

namespace Sys2Proof

open Machine Laws.InFormat

/-! ### A command in a word -/

/-- The operand fields of `w` hold the operands of the command (30_encoding.md R102 to R105). -/
def operandsFrom (w : Word) : Instr → Prop
  | .create => True
  | .destroy q => qidField w = q
  | .enq q d => qidField w = q ∧ dataField w = d
  | .deq q => qidField w = q
  | .rdfield o n => offsetField w = o ∧ widthField w = n

/-- The operands as a number, each operand from the lowest bit of its field up
(30_encoding.md R102). -/
def operandValue : Instr → Nat
  | .create => 0
  | .destroy q => q
  | .enq q d => d.toNat * 2 ^ 8 + q
  | .deq q => q
  | .rdfield o n => n * 2 ^ 14 + o

theorem wellFormed_rdfield_iff {o n : Nat} :
    (Instr.rdfield o n).wellFormed = true ↔ o ≤ 16383 ∧ n ≤ 31 := by
  simp [Instr.wellFormed, encodableOffset, encodableWidth]

/-- Every field is read back within its bounds, so the operands it names have an encoding. -/
theorem wellFormed_of_operandsFrom {w : Word} {i : Instr} (h : operandsFrom w i) :
    i.wellFormed = true := by
  have qid_le : qidField w ≤ 255 := Nat.le_of_lt_succ (w.extractLsb' 0 8).isLt
  cases i with
  | create => rfl
  | destroy q | deq q => exact decide_eq_true (h ▸ qid_le)
  | enq q d =>
    obtain ⟨rfl, rfl⟩ := h
    exact decide_eq_true qid_le
  | rdfield o n =>
    obtain ⟨rfl, rfl⟩ := h
    have offset_le : offsetField w ≤ 16383 := Nat.le_of_lt_succ (w.extractLsb' 0 14).isLt
    have width_le : widthField w ≤ 31 := Nat.le_of_lt_succ (w.extractLsb' 14 5).isLt
    exact wellFormed_rdfield_iff.mpr ⟨offset_le, width_le⟩

/-- The word of an encodable command is in the command's format. -/
theorem inFormat : ∀ i : Instr, Statement i
  | .create => create
  | .destroy q => destroy q
  | .enq q d => enq q d
  | .deq q => deq q
  | .rdfield o n => rdfield o n

/-! ### The decoder -/

theorem checkReserved_clear {w mask : Word} (h : w &&& mask = 0#32) (i : Instr) :
    checkReserved w mask i = .ok i := if_pos h

theorem checkReserved_set {w mask : Word} (h : w &&& mask ≠ 0#32) (i : Instr) :
    checkReserved w mask i = .error .reservedBits := if_neg h

theorem checkReserved_eq_ok_iff {w mask : Word} {i j : Instr} :
    checkReserved w mask i = .ok j ↔ w &&& mask = 0#32 ∧ i = j := by
  unfold checkReserved
  split <;> simp [*]

/-- Once the opcode and the operands fit a command, only the reserved bits of its format are left to
look at (30_encoding.md R109). -/
theorem decode_of_operandsFrom {w : Word} {i : Instr} (hop : opField w = opcode i)
    (hf : operandsFrom w i) : decode w = checkReserved w (reserved i) i := by
  cases i with
  | create => simp [decode, hop, opcode, reserved]
  | destroy q | deq q => simp [decode, hop, opcode, reserved, show qidField w = q from hf]
  | enq q d =>
    obtain ⟨hq, hd⟩ := hf
    simp [decode, hop, opcode, reserved, hq, hd]
  | rdfield o n =>
    obtain ⟨ho, hn⟩ := hf
    simp [decode, hop, opcode, reserved, ho, hn]

/-- An opcode outside the opcode map is the decoder's last case (30_encoding.md R107). -/
theorem decode_reservedOpcode {w : Word} (h : ∀ i, opField w ≠ opcode i) :
    decode w = .error .reservedOpcode := by
  have create : opField w ≠ 0x1#4 := h .create
  have destroy : opField w ≠ 0x2#4 := h (.destroy 0)
  have enq : opField w ≠ 0x3#4 := h (.enq 0 0)
  have deq : opField w ≠ 0x4#4 := h (.deq 0)
  have rdfield : opField w ≠ 0x5#4 := h (.rdfield 0 0)
  simp [decode, create, destroy, enq, deq, rdfield]

/-- A word with an opcode of the map names one command of that row: the one with the word's own
operands. -/
theorem exists_operandsFrom {w : Word} {i : Instr} (hop : opField w = opcode i) :
    ∃ j, opField w = opcode j ∧ operandsFrom w j := by
  cases i with
  | create => exact ⟨.create, hop, trivial⟩
  | destroy => exact ⟨.destroy (qidField w), hop, rfl⟩
  | enq => exact ⟨.enq (qidField w) (dataField w), hop, rfl, rfl⟩
  | deq => exact ⟨.deq (qidField w), hop, rfl⟩
  | rdfield => exact ⟨.rdfield (offsetField w) (widthField w), hop, rfl, rfl⟩

/-- All a word that decodes can be, and all it must be. -/
theorem decode_eq_ok_iff {w : Word} {i : Instr} :
    decode w = .ok i ↔
      opField w = opcode i ∧ operandsFrom w i ∧ w &&& reserved i = 0#32 := by
  constructor
  · intro decodes
    by_cases mapped : ∃ j, opField w = opcode j
    · obtain ⟨_, sameOpcode⟩ := mapped
      obtain ⟨j, hop, hf⟩ := exists_operandsFrom sameOpcode
      rw [decode_of_operandsFrom hop hf, checkReserved_eq_ok_iff] at decodes
      obtain ⟨clear, rfl⟩ := decodes
      exact ⟨hop, hf, clear⟩
    · rw [decode_reservedOpcode (not_exists.mp mapped)] at decodes
      cases decodes
  · rintro ⟨hop, hf, clear⟩
    rw [decode_of_operandsFrom hop hf, checkReserved_clear clear]

/-! ### Reserved bits -/

/-- A stretch of bits that the mask covers is 0 in a word that the mask finds clear. -/
theorem extractLsb'_eq_zero_of_mask {w mask : Word} {k n : Nat} (clear : w &&& mask = 0#32)
    (covered : mask.extractLsb' k n = BitVec.allOnes n) : w.extractLsb' k n = 0#n := calc
  w.extractLsb' k n = w.extractLsb' k n &&& mask.extractLsb' k n := by
    rw [covered, BitVec.and_allOnes]
  _ = (w &&& mask).extractLsb' k n := BitVec.extractLsb'_and.symm
  _ = 0#n := by rw [clear, BitVec.extractLsb'_zero]

theorem reservedN_covers : reservedN.extractLsb' 0 28 = BitVec.allOnes 28 := by decide
theorem reservedQ_covers : reservedQ.extractLsb' 8 20 = BitVec.allOnes 20 := by decide
theorem reservedQD_covers : reservedQD.extractLsb' 16 12 = BitVec.allOnes 12 := by decide
theorem reservedF_covers : reservedF.extractLsb' 19 9 = BitVec.allOnes 9 := by decide

theorem digits_eq_zero_of_mask {w mask : Word} {k n : Nat} (clear : w &&& mask = 0#32)
    (covered : mask.extractLsb' k n = BitVec.allOnes n) : w.toNat / 2 ^ k % 2 ^ n = 0 := by
  rw [← toNat_extractLsb'_eq_digits, extractLsb'_eq_zero_of_mask clear covered, BitVec.toNat_zero]

/-- The decoder finds a 1 among the reserved bits of the word's format (30_encoding.md R108). -/
theorem decode_reservedBits {w : Word} {i : Instr} {k n : Nat} (hop : opField w = opcode i)
    (hf : operandsFrom w i) (covered : (reserved i).extractLsb' k n = BitVec.allOnes n)
    (set : w.extractLsb' k n ≠ 0#n) : decode w = .error .reservedBits := by
  rw [decode_of_operandsFrom hop hf]
  exact checkReserved_set (fun clear => set (extractLsb'_eq_zero_of_mask clear covered)) i

/-! ### Words as numbers -/

theorem opField_toNat (w : Word) : (opField w).toNat = w.toNat / 2 ^ 28 := by
  have bound := w.isLt
  rw [opField, toNat_extractLsb'_eq_digits, Nat.mod_eq_of_lt (by omega)]

theorem qidField_eq_digits (w : Word) : qidField w = w.toNat % 2 ^ 8 := by
  rw [qidField, toNat_extractLsb'_eq_digits, pow_zero, Nat.div_one]

theorem dataField_toNat (w : Word) : (dataField w).toNat = w.toNat / 2 ^ 8 % 2 ^ 8 :=
  toNat_extractLsb'_eq_digits w 8 8

theorem offsetField_eq_digits (w : Word) : offsetField w = w.toNat % 2 ^ 14 := by
  rw [offsetField, toNat_extractLsb'_eq_digits, pow_zero, Nat.div_one]

theorem widthField_eq_digits (w : Word) : widthField w = w.toNat / 2 ^ 14 % 2 ^ 5 :=
  toNat_extractLsb'_eq_digits w 14 5

/-- Behind the opcode, a word without a reserved bit holds its operands and nothing else. -/
theorem operandValue_of_operandsFrom {w : Word} {i : Instr} (hf : operandsFrom w i)
    (clear : w &&& reserved i = 0#32) : operandValue i = w.toNat % 2 ^ 28 := by
  cases i with
  | create =>
    have zero := digits_eq_zero_of_mask clear reservedN_covers
    simpa [operandValue] using zero.symm
  | destroy q | deq q =>
    have zero := digits_eq_zero_of_mask clear reservedQ_covers
    have hq : w.toNat % 2 ^ 8 = q := qidField_eq_digits w ▸ hf
    rw [operandValue]
    omega
  | enq q d =>
    have zero := digits_eq_zero_of_mask clear reservedQD_covers
    obtain ⟨rfl, rfl⟩ := hf
    rw [operandValue, qidField_eq_digits, dataField_toNat]
    omega
  | rdfield o n =>
    have zero := digits_eq_zero_of_mask clear reservedF_covers
    obtain ⟨rfl, rfl⟩ := hf
    rw [operandValue, offsetField_eq_digits, widthField_eq_digits]
    omega

/-- A number below bit `k` is added to a word that has no bit below `k`. -/
theorem toNat_or_ofNat {a : Word} {k n : Nat} (hk : k ≤ 32) (high : a.toNat % 2 ^ k = 0)
    (low : n < 2 ^ k) : (a ||| BitVec.ofNat 32 n).toNat = a.toNat + n := by
  have fits : n < 2 ^ 32 := low.trans_le (Nat.pow_le_pow_right (by decide) hk)
  have upper : 2 ^ k * (a.toNat / 2 ^ k) = a.toNat :=
    Nat.mul_div_cancel' (Nat.dvd_of_mod_eq_zero high)
  rw [BitVec.toNat_or, BitVec.toNat_ofNat, Nat.mod_eq_of_lt fits, ← upper,
    ← Nat.two_pow_add_eq_or_of_lt low]

/-- A shift is a multiplication modulo the word's size. -/
theorem shiftLeft_eq_ofNat (a : Word) (k : Nat) : a <<< k = BitVec.ofNat 32 (a.toNat * 2 ^ k) :=
  BitVec.eq_of_toNat_eq (by rw [BitVec.toNat_shiftLeft, Nat.shiftLeft_eq, BitVec.toNat_ofNat])

/-- The word of an encodable command as a number: no field carries into the next. -/
theorem toNat_encode {i : Instr} (h : i.wellFormed = true) :
    (encode i).toNat = (opcode i).toNat * 2 ^ 28 + operandValue i := by
  cases i with
  | create => rfl
  | destroy q | deq q =>
    have hq : q ≤ 255 := of_decide_eq_true h
    rw [encode, toNat_or_ofNat (k := 8) (by decide) (by decide) (by omega)]
    simp [opcode, operandValue]
  | enq q d =>
    have hq : q ≤ 255 := of_decide_eq_true h
    have data : (0x30000000#32 ||| d.setWidth 32 <<< 8).toNat = 0x30000000 + d.toNat * 2 ^ 8 := by
      have hd := d.isLt
      rw [shiftLeft_eq_ofNat, BitVec.toNat_setWidth_of_le (by decide)]
      exact toNat_or_ofNat (k := 16) (by decide) (by decide) (by omega)
    rw [encode, toNat_or_ofNat (k := 8) (by decide) (by omega) (by omega), data]
    simp [opcode, operandValue, Nat.add_assoc]
  | rdfield o n =>
    obtain ⟨ho, hn⟩ := wellFormed_rdfield_iff.mp h
    have width : (0x50000000#32 ||| BitVec.ofNat 32 n <<< 14).toNat = 0x50000000 + n * 2 ^ 14 := by
      rw [shiftLeft_eq_ofNat, BitVec.toNat_ofNat, Nat.mod_eq_of_lt (by omega)]
      exact toNat_or_ofNat (k := 19) (by decide) (by decide) (by omega)
    rw [encode, toNat_or_ofNat (k := 14) (by decide) (by omega) (by omega), width]
    simp [opcode, operandValue, Nat.add_assoc]

/-- Each operand of an encodable command is read back from its digits of the command's word. -/
theorem operandsFrom_encode {i : Instr} (h : i.wellFormed = true) : operandsFrom (encode i) i := by
  have value := toNat_encode h
  cases i with
  | create => trivial
  | destroy q | deq q =>
    have hq : q ≤ 255 := of_decide_eq_true h
    simp only [operandsFrom, qidField_eq_digits, value, opcode, operandValue]
    omega
  | enq q d =>
    have hq : q ≤ 255 := of_decide_eq_true h
    have hd := d.isLt
    refine ⟨?_, BitVec.eq_of_toNat_eq ?_⟩ <;>
      simp only [qidField_eq_digits, dataField_toNat, value, opcode, operandValue] <;> omega
  | rdfield o n =>
    obtain ⟨ho, hn⟩ := wellFormed_rdfield_iff.mp h
    constructor <;>
      simp only [offsetField_eq_digits, widthField_eq_digits, value, opcode, operandValue] <;> omega

/-! ### The obligations -/

/-- Settles O1: the word of an encodable command is in the command's format and carries its
operands. -/
theorem decodeOfEncode : Obligations.DecodeOfEncode := by
  intro i encodable
  obtain ⟨hop, clear⟩ := inFormat i encodable
  exact decode_eq_ok_iff.mpr ⟨hop, operandsFrom_encode encodable, clear⟩

/-- Settles O2: the opcode, the operands and the clear reserved bits are all there is to a word, and
the command's own word has the same ones. -/
theorem encodeOfDecode : Obligations.EncodeOfDecode := by
  intro w i decodes
  obtain ⟨hop, hf, clear⟩ := decode_eq_ok_iff.mp decodes
  have encodable := wellFormed_of_operandsFrom hf
  refine ⟨encodable, BitVec.eq_of_toNat_eq ?_⟩
  rw [toNat_encode encodable, ← hop, opField_toNat, operandValue_of_operandsFrom hf clear]
  exact Nat.div_add_mod' _ _

/-- Settles O3: each word is the encoding of its command. -/
theorem sampleWordsDecode : Obligations.SampleWordsDecode :=
  ⟨decodeOfEncode .create rfl, decodeOfEncode (.destroy 5) rfl, decodeOfEncode (.enq 255 1#8) rfl,
    decodeOfEncode (.enq 63 0x5A#8) rfl, decodeOfEncode (.deq 1) rfl,
    decodeOfEncode (.rdfield 8 24) rfl, decodeOfEncode (.rdfield 16383 2) rfl⟩

end Sys2Proof

namespace Sys2Proof.Machine

/-! ### Illegal words -/

/-- A BUSY engine left alone ends an illegal word in its error. -/
theorem step_illegal {s : State} {e : Illegal} (busy : s.fsm = .busy) (quiet : s.nextEvent = .quiet)
    (h : decode s.cmdbuf = .error e) :
    ∃ t, step s = .next t ∧ EndsInIllegal s.beginStep t (illegalCause e) := by
  have turn : step s = .next (s.beginStep.raiseError (illegalCause e)) := by
    rw [step_quiet quiet, engineTurn_illegal (s := s.beginStep) busy h]
  exact ⟨_, turn, endsInIllegal_raise _ (by cases e <;> rfl)⟩

theorem opcode_range (i : Instr) :
    1 ≤ (Laws.InFormat.opcode i).toNat ∧ (Laws.InFormat.opcode i).toNat ≤ 5 := by
  cases i <;> simp [Laws.InFormat.opcode]

/-- Settles O5: every row of the opcode map has an opcode from 1 to 5. -/
theorem reservedOpcodeRaises : Obligations.ReservedOpcodeRaises := by
  refine ⟨rfl, fun s busy quiet outside => step_illegal busy quiet (decode_reservedOpcode ?_)⟩
  intro i hop
  have range := opcode_range i
  rw [← hop, opField] at range
  omega

/-- Settles O6: the mask of each format covers its reserved bits. -/
theorem reservedBitsRaise : Obligations.ReservedBitsRaise := by
  refine ⟨rfl, fun s busy quiet op hop set =>
    step_illegal (e := .reservedBits) busy quiet ?_⟩
  have row {i : Instr} (h : op = (Laws.InFormat.opcode i).toNat) :
      opField s.cmdbuf = Laws.InFormat.opcode i := BitVec.eq_of_toNat_eq (hop.trans h)
  rcases set with ⟨h, set⟩ | ⟨h, set⟩ | ⟨h, set⟩ | ⟨h, set⟩ | ⟨h, set⟩
  · exact decode_reservedBits (i := .create) (row h) trivial reservedN_covers set
  · exact decode_reservedBits (i := .destroy _) (row h) rfl reservedQ_covers set
  · exact decode_reservedBits (i := .enq _ _) (row h) ⟨rfl, rfl⟩ reservedQD_covers set
  · exact decode_reservedBits (i := .deq _) (row h) rfl reservedQ_covers set
  · exact decode_reservedBits (i := .rdfield _ _) (row h) ⟨rfl, rfl⟩ reservedF_covers set

end Sys2Proof.Machine
end

section
/-! RDFIELD and the pseudo-commands: what a legal field leaves in RESULT, and which record fields
lie in which bits of it (40_codec.md R137, 30_encoding.md R111). -/

namespace Sys2Proof.Machine

/-! ### A field as a word -/

theorem toNat_fieldWord (m : Memory) (o : Nat) {w : Nat} (narrow : w ≤ 24) :
    (BitVec.ofNat 32 (m.bits o w)).toNat = m.bits o w := by
  have bound : 2 ^ w ≤ 2 ^ 24 := Nat.pow_le_pow_right (by decide) narrow
  have field_lt := bits_lt m o w
  rw [BitVec.toNat_ofNat, Nat.mod_eq_of_lt (by omega)]

/-- Bit `j` of a field's word is the arena bit with `j` bits of the field behind it. -/
theorem getLsbD_fieldWord (m : Memory) {o w j k : Nat} (narrow : w ≤ 24) (inside : j < w)
    (position : k + 1 + j = o + w) : (BitVec.ofNat 32 (m.bits o w)).getLsbD j = m.bit k := by
  have bit : o + w - 1 - j = k := by omega
  rw [BitVec.getLsbD, toNat_fieldWord m o narrow, testBit_bits, bit, decide_eq_true inside,
    Bool.true_and]

/-- A field inside a field: `k` bits of the outer one lie behind it. -/
theorem bits_div_mod (m : Memory) {o w o' n k : Nat} (inside : n + k ≤ w)
    (position : o' + n + k = o + w) : m.bits o w / 2 ^ k % 2 ^ n = m.bits o' n := by
  apply Nat.eq_of_testBit_eq
  intro i
  rw [Nat.testBit_mod_two_pow, Nat.testBit_div_two_pow, testBit_bits, testBit_bits]
  by_cases hi : i < n
  · have within : i + k < w := by omega
    have bit : o + w - 1 - (i + k) = o' + n - 1 - i := by omega
    simp [hi, within, bit]
  · simp [hi]

theorem extractLsb'_fieldWord (m : Memory) {o w o' n k : Nat} (narrow : w ≤ 24)
    (inside : n + k ≤ w) (position : o' + n + k = o + w) :
    ((BitVec.ofNat 32 (m.bits o w)).extractLsb' k n).toNat = m.bits o' n := by
  rw [toNat_extractLsb'_eq_digits, toNat_fieldWord m o narrow, bits_div_mod m inside position]

theorem toNat_eValue (m : Memory) (x : Nat) : (eValue m x).toNat = m.bits (1546 + 10 * x) 8 := by
  rw [eValue, BitVec.toNat_ofNat, Nat.mod_eq_of_lt (bits_lt m _ 8)]

/-! ### RDFIELD of a legal field -/

theorem legalField_iff (o w : Nat) : legalField o w = true ↔ 1 ≤ w ∧ w ≤ 24 ∧ o + w ≤ 16384 := by
  simp [legalField, Nat.one_le_iff_ne_zero, and_assoc]

/-- RDFIELD of a legal field succeeds with the field, and the arena stays (40_codec.md R137). -/
theorem exec_rdfield {o w : Nat} (legal : 1 ≤ w ∧ w ≤ 24 ∧ o + w ≤ 16384) (s : State) :
    exec (.rdfield o w) s = .next (s.succeed s.arena (s.arena.bits o w)) := by
  obtain ⟨positive, narrow, inside⟩ := legal
  have reads : command (.rdfield o w) s.arena = .ok (s.arena, s.arena.bits o w) := by
    rw [command, rdfield, if_pos ((legalField_iff o w).mpr ⟨positive, narrow, inside⟩),
      fieldRead_in positive narrow inside, Engine_ok_bind, Engine_pure]
  rw [exec_eq_finish, reads, finish_ok]

/-- RESULT as a number after RDFIELD of a legal field. -/
theorem rdfield_result {s : State} {o w v : Nat} (legal : 1 ≤ w ∧ w ≤ 24 ∧ o + w ≤ 16384)
    (field : s.arena.bits o w = v) :
    ∃ t, exec (.rdfield o w) s = .next t ∧ t.arena = s.arena ∧ t.result.toNat = v := by
  refine ⟨_, exec_rdfield legal s, succeed_arena .., ?_⟩
  obtain ⟨-, narrow, -⟩ := legal
  rw [succeed_result, toNat_fieldWord _ _ narrow, field]

/-! ### The pseudo-commands -/

/-- RDHDR leaves the whole header record in RESULT, the pad bit last (30_encoding.md R111,
41_header_table.md R151). -/
theorem rdhdr_result (s : State) {q : Nat} (hq : q < 64) :
    ∃ t, exec (Pseudo.rdhdr q).expand s = .next t ∧ t.arena = s.arena ∧
      t.result.getLsbD 23 = hValid s.arena q ∧ (t.result.extractLsb' 12 11).toNat = hBase s.arena q ∧
      (t.result.extractLsb' 1 11).toNat = hLength s.arena q ∧ t.result.getLsbD 0 = hPad s.arena q :=
  ⟨_, exec_rdfield (by omega) s, succeed_arena ..,
    getLsbD_fieldWord _ (by decide) (by decide) (by omega),
    extractLsb'_fieldWord _ (by decide) (by decide) (by omega),
    extractLsb'_fieldWord _ (by decide) (by decide) (by omega),
    getLsbD_fieldWord _ (by decide) (by decide) (by omega)⟩

/-- RDENT leaves the whole entry record in RESULT (30_encoding.md R111, 42_entry_store.md R171). -/
theorem rdent_result (s : State) {x : Nat} (hx : x < 1484) :
    ∃ t, exec (Pseudo.rdent x).expand s = .next t ∧ t.arena = s.arena ∧
      t.result.getLsbD 9 = eQb s.arena x ∧ t.result.getLsbD 8 = eValid s.arena x ∧
      t.result.extractLsb' 0 8 = eValue s.arena x := by
  refine ⟨_, exec_rdfield (by omega) s, succeed_arena ..,
    getLsbD_fieldWord _ (by decide) (by decide) (by omega),
    getLsbD_fieldWord _ (by decide) (by decide) (by omega), BitVec.eq_of_toNat_eq ?_⟩
  rw [toNat_eValue]
  exact extractLsb'_fieldWord _ (by decide) (by decide) (by omega)

/-- Settles O7: every pseudo-command names a legal field, and the record fields lie in it where its
row says. -/
theorem pseudoCommandsRead : Obligations.PseudoCommandsRead := by
  refine fun s => ⟨rdfield_result (by omega) rfl, fun q hq => ?_, fun x hx => ?_⟩
  · exact ⟨rdhdr_result s hq, rdfield_result (by omega) (bits_one _ _),
      rdfield_result (by omega) rfl, rdfield_result (by omega) rfl⟩
  · exact ⟨rdent_result s hx, rdfield_result (by omega) (bits_one _ _),
      rdfield_result (by omega) (bits_one _ _), rdfield_result (by omega) (toNat_eValue _ _).symm⟩

end Sys2Proof.Machine
end

section
/-! The codec's operations as laws of the arena: which arena a write answers, that equal bits are
equal arenas, and the read-after-write laws (40_codec.md R131 to R135). -/

namespace Sys2Proof.Machine

/-! ### What the codec answers -/

theorem eq_of_fieldRead_ok {m : Memory} {o w u : Nat} (h : fieldRead m o w = .ok u) :
    u = m.bits o w := by
  rcases fieldRead_cases m o w with ⟨-, reads⟩ | ⟨-, refuses⟩
  · exact Except.ok.inj (h.symm.trans reads)
  · rw [refuses] at h
    contradiction

theorem eq_of_fieldWrite_ok {m m' : Memory} {o w v : Nat} (h : fieldWrite m o w v = .ok m') :
    m' = m.putBits o w v := by
  rcases fieldWrite_cases m o w v with ⟨-, writes⟩ | ⟨-, refuses⟩
  · exact Except.ok.inj (h.symm.trans writes)
  · rw [refuses] at h
    contradiction

/-! ### Arenas with the same bits -/

theorem eq_of_bit_eq {m n : Memory} (hm : m.wf) (hn : n.wf) (h : ∀ k, m.bit k = n.bit k) : m = n :=
  Memory.eq_of_read_eq hm hn fun _ => read_eq_of_bit_eq fun _ _ => h _

/-- Writes of disjoint fields commute (40_codec.md R135 (c)): no bit lies in both. -/
theorem putBits_comm {m : Memory} (hm : m.wf) {o w o' w' : Nat} (v v' : Nat)
    (disjoint : o' + w' ≤ o ∨ o + w ≤ o') :
    (m.putBits o w v).putBits o' w' v' = (m.putBits o' w' v').putBits o w v := by
  refine eq_of_bit_eq (wf_putBits (wf_putBits hm ..) ..) (wf_putBits (wf_putBits hm ..) ..) fun k => ?_
  by_cases written : o ≤ k ∧ k < o + w
  · have outside : k < o' ∨ o' + w' ≤ k := by omega
    rw [bit_putBits_outside _ _ outside, bit_putBits, bit_putBits, if_pos written, if_pos written]
  · have outside : k < o ∨ o + w ≤ k := by omega
    rw [bit_putBits_outside _ _ outside, bit_putBits, bit_putBits_outside _ _ outside, bit_putBits]

/-- A field written with its own value keeps every bit (40_codec.md R135 (d)). -/
theorem bit_putBits_bits (m : Memory) (o w k : Nat) :
    (m.putBits o w (m.bits o w)).bit k = m.bit k := by
  rw [bit_putBits]
  split
  · next written =>
    have digit : o + w - 1 - k < w := by omega
    have place : o + w - 1 - (o + w - 1 - k) = k := by omega
    rw [testBit_bits, decide_eq_true digit, place, Bool.true_and]
  · rfl

theorem putBits_bits {m : Memory} (hm : m.wf) (o w : Nat) : m.putBits o w (m.bits o w) = m :=
  eq_of_bit_eq (wf_putBits hm ..) hm (bit_putBits_bits m o w)

/-! ### The laws of the codec -/

/-- Settles O9: a write in the domain is `putBits`, whose value mod `2^w` has the same `w` bits. -/
theorem fieldWriteSetsExactlyItsBits : Obligations.FieldWriteSetsExactlyItsBits := by
  intro m o w v positive narrow inside
  refine ⟨_, fieldWrite_in v positive narrow inside, fun k above below => ?_,
    sameOutside_putBits m v fun _ above below => ⟨above, below⟩⟩
  have digit : o + w - 1 - k < w := by omega
  rw [bit_putBits, if_pos ⟨above, below⟩, Nat.testBit_mod_two_pow, decide_eq_true digit,
    Bool.true_and]

/-- Settles O10: each law is the one of `putBits` and `bits` behind the two operations. -/
theorem codecReadAfterWriteLaws : Obligations.CodecReadAfterWriteLaws := by
  intro m o w v positive narrow inside
  refine ⟨?sameField, ?disjointFields, ?ownValue, ?concatenation⟩
  case sameField =>
    intro m' write
    rw [eq_of_fieldWrite_ok write, fieldRead_in positive narrow inside, bits_putBits_same]
  case disjointFields =>
    intro o' w' v' m' positive' narrow' inside' disjoint write
    obtain rfl := eq_of_fieldWrite_ok write
    refine ⟨?_, fun hm m1 m2 m3 write1 write2 write3 => ?_⟩
    · rw [fieldRead_in positive' narrow' inside', fieldRead_in positive' narrow' inside',
        bits_putBits_disjoint m v disjoint]
    · rw [eq_of_fieldWrite_ok write1, eq_of_fieldWrite_ok write3, eq_of_fieldWrite_ok write2,
        putBits_comm hm v v' disjoint]
  case ownValue =>
    intro u m' read write
    obtain rfl := eq_of_fieldRead_ok read
    obtain rfl := eq_of_fieldWrite_ok write
    exact ⟨bit_putBits_bits m o w, fun hm => putBits_bits hm o w⟩
  case concatenation =>
    intro a x y _ shorter readLeft readRight
    have parts : m.bits o w = m.bits o a * 2 ^ (w - a) + m.bits (o + a) (w - a) := by
      rw [← bits_add, Nat.add_sub_cancel' shorter.le]
    rw [eq_of_fieldRead_ok readLeft, eq_of_fieldRead_ok readRight,
      fieldRead_in positive narrow inside, parts]

/-! ### RDFIELD -/

/-- RDFIELD of an illegal field raises BAD_FIELD (40_codec.md R137). -/
theorem exec_rdfield_illegal {o w : Nat} (illegal : ¬ (1 ≤ w ∧ w ≤ 24 ∧ o + w ≤ 16384)) (s : State) :
    exec (.rdfield o w) s = .next (s.raiseError .badField) := by
  have raises : command (.rdfield o w) s.arena = .error (.raise .badField) := by
    rw [command, rdfield, if_neg (mt (legalField_iff o w).mp illegal)]
  rw [exec_eq_finish, raises, finish_raise]

/-- Settles O12: a field of at most 24 bits fits RESULT. -/
theorem rdfieldReturnsField : Obligations.RdfieldReturnsField := by
  intro s o w positive narrow inside
  have fits : s.arena.bits o w < 2 ^ 32 :=
    (bits_lt _ o w).trans_le (Nat.pow_le_pow_right (by decide) (by omega))
  rw [← bits_eq_sum]
  exact ⟨_, exec_rdfield ⟨positive, narrow, inside⟩ s, succeed_arena ..,
    endsInSuccess_succeed s s.arena fits⟩

/-- Settles O13: the three conditions are those of a field that is not legal. -/
theorem rdfieldBadField : Obligations.RdfieldBadField := fun s _ _ bad =>
  ⟨_, exec_rdfield_illegal (by omega) s, endsInIllegal_raise s kind_badField⟩

end Sys2Proof.Machine
end

section
/-! The ends of a command: the next state read off the engine computation, the handle check in front
of DESTROY, ENQ and DEQ, and that the outcome depends on the arena and the word alone
(43_engine.md R200, R238; 60_exceptions.md R303 to R306). -/

namespace Sys2Proof.Machine

/-! ### Engine computations, one call at a time -/

theorem Engine_bind_of_ok {α β : Type} {x : Engine α} {a : α} {f : α → Engine β} (h : x = .ok a) :
    (x >>= f) = f a := by rw [h, Engine_ok_bind]

theorem Engine_bind_of_error {α β : Type} {x : Engine α} {e : Stop} {f : α → Engine β}
    (h : x = .error e) : (x >>= f) = .error e := by rw [h, Engine_error_bind]

/-! ### From the engine computation to the next state -/

theorem exec_of_ok {i : Instr} {s : State} {m : Memory} {v : Nat}
    (h : command i s.arena = .ok (m, v)) : exec i s = .next (s.succeed m v) := by
  rw [exec_eq_finish, h, finish_ok]

theorem exec_of_raise {i : Instr} {s : State} {c : Cause}
    (h : command i s.arena = .error (.raise c)) : exec i s = .next (s.raiseError c) := by
  rw [exec_eq_finish, h, finish_raise]

/-- A command that answers `v` with the arena `m` succeeds, and its next state holds `m`. -/
theorem exec_succeeds {i : Instr} {s : State} {m : Memory} {v : Nat}
    (h : command i s.arena = .ok (m, v)) (hv : v < 2 ^ 32) :
    ∃ t, exec i s = .next t ∧ EndsInSuccess s t v ∧ t.arena = m :=
  ⟨_, exec_of_ok h, endsInSuccess_succeed s m hv, succeed_arena ..⟩

theorem exec_endsInIllegal {i : Instr} {s : State} {c : Cause} (hc : c.kind = .illegalOperation)
    (h : command i s.arena = .error (.raise c)) :
    ∃ t, exec i s = .next t ∧ EndsInIllegal s t c :=
  ⟨_, exec_of_raise h, endsInIllegal_raise s hc⟩

/-- A command that ended in success answered: no raised cause is NONE. -/
theorem command_of_success {i : Instr} {s t : State} (h : exec i s = .next t)
    (hs : t.lastErr = .success) :
    ∃ m v, command i s.arena = .ok (m, v) ∧ t = s.succeed m v := by
  rw [exec_eq_finish] at h
  rcases finish_next h with answered | ⟨c, raised, rfl⟩
  · exact answered
  · have none : c = .none := (kind_success_iff c).mp (by simpa using hs)
    exact absurd none (raisesOnly_command i s.arena c raised)

/-! ### The handle check -/

/-- A command on a handle ends as its handle check does when that fails (43_engine.md R200). -/
theorem command_of_checkHandle_error {i : Instr} {m : Memory} {q : Nat} {d : Byte} {e : Stop}
    (hi : i = .destroy q ∨ i = .enq q d ∨ i = .deq q) (h : checkHandle m q = .error e) :
    command i m = .error e := by
  rcases hi with rfl | rfl | rfl
  case inl => exact Engine_bind_of_error h
  case inr.inl => exact Engine_bind_of_error h
  case inr.inr => exact Engine_bind_of_error h

theorem checkHandle_valid {m : Memory} {q : Nat} (hq : q < 64) (hv : hValid m q = true) :
    checkHandle m q = .ok () := by
  rw [checkHandle_lt m hq, if_pos hv]

theorem checkHandle_invalid {m : Memory} {q : Nat} (hq : q < 64) (hv : hValid m q = false) :
    checkHandle m q = .error (.raise .invalidHandle) := by
  rw [checkHandle_lt m hq, hv, if_neg Bool.false_ne_true]

/-- Settles O18: each of the three commands checks its handle before anything else. -/
theorem badHandlesAreRejected : Obligations.BadHandlesAreRejected := fun s _ _ _ hi =>
  ⟨fun null => exec_endsInIllegal kind_nullHandle
      (command_of_checkHandle_error hi (checkHandle_null s.arena null)),
    fun hq invalid => exec_endsInIllegal kind_invalidHandle
      (command_of_checkHandle_error hi (checkHandle_invalid hq invalid))⟩

/-! ### The outcome is a function of the arena and the word -/

/-- The two ways in which machines agree on a command's outcome (43_engine.md R238): the records of
the outcome are equal and neither machine draws a value, or both are refused. -/
def SameOutcome (s s' : State) (o o' : Host.Outcome State Fault Refusal) : Prop :=
  (∃ t t', o = .next t ∧ o' = .next t' ∧ t.arena = t'.arena ∧ t.lastErr = t'.lastErr ∧
    t.lastCause = t'.lastCause ∧ (t.lastErr = .success → t.result = t'.result) ∧
    t.hookIllop = t'.hookIllop ∧ t.hookOom = t'.hookOom ∧ t.draws = s.draws ∧
    t'.draws = s'.draws) ∨
  (o = .refused .internal ∧ o' = .refused .internal)

/-- An error leaves RESULT as it was, which two machines need not agree on; it is no success. -/
theorem sameOutcome_raiseError {s s' : State} (arena : s.arena = s'.arena) {c : Cause}
    (hc : c ≠ .none) :
    SameOutcome s s' (.next (s.raiseError c)) (.next (s'.raiseError c)) := by
  have noSuccess : (s.raiseError c).lastErr ≠ .success := fun h =>
    hc ((kind_success_iff c).mp (by simpa using h))
  refine .inl ⟨_, _, rfl, rfl, ?_, ?_, ?_, fun h => absurd h noSuccess, ?_, ?_, ?_, ?_⟩ <;>
    simp [arena]

theorem sameOutcome_finish {s s' : State} (arena : s.arena = s'.arena) {r : Engine (Memory × Nat)}
    (raises : RaisesOnly (· ≠ .none) r) : SameOutcome s s' (s.finish r) (s'.finish r) := by
  match r with
  | .ok (m, v) => exact .inl ⟨_, _, rfl, rfl, by simp⟩
  | .error (.raise c) => exact sameOutcome_raiseError arena (raises c rfl)
  | .error .internal => exact .inr ⟨rfl, rfl⟩

/-- Settles O36: both machines decode the same word, and the engine computation of its command reads
the arena only. -/
theorem outcomeDependsOnArenaAndWord : Obligations.OutcomeDependsOnArenaAndWord := by
  intro s s' busy busy' quiet quiet' arena word
  have start : s.beginStep.arena = s'.beginStep.arena := arena
  have same : SameOutcome s.beginStep s'.beginStep (step s) (step s') := by
    rw [step_quiet quiet, step_quiet quiet']
    cases decoded : decode s.cmdbuf with
    | ok i =>
      rw [engineTurn_command (s := s.beginStep) busy decoded,
        engineTurn_command (s := s'.beginStep) busy' (word ▸ decoded), exec_eq_finish,
        exec_eq_finish, start]
      exact sameOutcome_finish start (raisesOnly_command i _)
    | error e =>
      rw [engineTurn_illegal (s := s.beginStep) busy decoded,
        engineTurn_illegal (s := s'.beginStep) busy' (word ▸ decoded)]
      exact sameOutcome_raiseError start (by cases e <;> decide)
  exact same

end Sys2Proof.Machine
end

section
/-! ENQ case by case: how each case changes the records, said in one form, and when the dispatch
takes it (43_engine.md R203 to R213). -/

namespace Sys2Proof.Machine

/-! ### What ENQ does to the records -/

/-- The records after ENQ on queue `q` of length `n`: the entry `e` stands at `slot`, every other slot
`x` holds what slot `source x` held, the base of queue `p` is `base p`, and `q` is one longer. -/
def Enqueued (m m' : Memory) (q n slot : Nat) (e : Entry) (base source : Nat → Nat) : Prop :=
  KeepsForm m m' ∧ countOf m' = countOf m ∧ (∀ p < 64, hValid m' p = hValid m p) ∧
  (∀ p < 64, hLength m' p = if p = q then n + 1 else hLength m p) ∧
  (∀ p < 64, hBase m' p = base p) ∧
  ∀ x, entryAt m' x = if x = slot then e else entryAt m (source x)

/-- ENQ writes the length of `q`, the new entry, the bases it moves and the slots it shifts into. -/
theorem sameOutside_of_enqueued {m m' : Memory} {q n slot : Nat} {e : Entry} {base source : Nat → Nat}
    (h : Enqueued m m' q n slot e base source) {P : Nat → Prop} (length : ∀ k, lengthBit q k → P k)
    (entry : ∀ k, entryBit slot k → P k)
    (moved : ∀ p < 64, base p ≠ hBase m p → ∀ k, baseBit p k → P k)
    (shifted : ∀ x < 1484, source x ≠ x → ∀ k, entryBit x k → P k) : sameOutside m m' P := by
  obtain ⟨form, counts, valids, lengths, bases, entries⟩ := h
  refine sameOutside_of_bits fun k outside => ?_
  rcases bit_place k with counter | ⟨p, hp, rfl | inBase | inLength | rfl⟩ | ⟨x, hx, inEntry⟩ | beyond
  · exact bit_eq_of_countOf counts counter
  · exact valids p hp
  · have kept : base p = hBase m p :=
      by_contra fun changed => outside (moved p hp changed k inBase)
    exact bit_eq_of_hBase ((bases p hp).trans kept) inBase
  · have other : p ≠ q := by
      rintro rfl
      exact outside (length k inLength)
    exact bit_eq_of_hLength ((lengths p hp).trans (if_neg other)) inLength
  · exact form.pad p hp
  · have old : x ≠ slot := by
      rintro rfl
      exact outside (entry k inEntry)
    have kept : source x = x :=
      by_contra fun changed => outside (shifted x hx changed k inEntry)
    exact bit_eq_of_entryAt (by rw [entries, if_neg old, kept]) inEntry
  · exact form.beyond k beyond

/-- The last two writes of an ENQ that leaves the base of `q`, after a shift to the arena `m1`. -/
theorem enqueued_append {m m1 : Memory} {q n slot : Nat} {base source : Nat → Nat} (e : Entry)
    (hq : q < 64) (hs : slot < 1484) (hn : n < 1484) (kept : KeepsHeaders m m1)
    (bases : ∀ p < 64, hBase m1 p = base p) (entries : ∀ x, entryAt m1 x = entryAt m (source x)) :
    Enqueued m ((m1.withEntry slot e).withLength q (n + 1)) q n slot e base source := by
  have form := kept.toKeepsForm.trans
    ((keepsForm_withEntry m1 hs e).trans (keepsForm_withLength _ hq (n + 1)))
  refine ⟨form, by simp [kept.count], fun p hp => by simp [hp, kept.valid p hp], fun p hp => ?_,
    fun p hp => by simp [hp, bases p hp], fun x => ?_⟩
  · rw [hLength_withLength, hLength_withEntry _ _ _ hp, kept.length p hp, Nat.mod_eq_of_lt (by omega)]
  · rw [entryAt_withLength _ _ hq, entryAt_withEntry, entries]

/-- The writes of an ENQ that gives an empty queue the base `i`. -/
theorem enqueued_relocate (m : Memory) {q i : Nat} (e : Entry) (hq : q < 64) (hi : i < 1484) :
    Enqueued m (((m.withEntry i e).withBase q i).withLength q 1) q 0 i e
      (fun p => if p = q then i else hBase m p) id := by
  have form := (keepsForm_withEntry m hi e).trans
    ((keepsForm_withBase _ hq i).trans (keepsForm_withLength _ hq 1))
  refine ⟨form, by simp, fun p hp => by simp [hp],
    fun p hp => by simp [hLength_withLength, hp], fun p hp => ?_, fun x => ?_⟩
  · rw [hBase_withLength, hBase_withBase, hBase_withEntry _ _ _ hp, Nat.mod_eq_of_lt (by omega)]
  · rw [entryAt_withLength _ _ hq, entryAt_withBase _ _ hq, entryAt_withEntry, id]

/-! ### Which queues and which slots a shift moves -/

/-- Queue `p` is valid, holds bytes, and its run starts in `[lo, hi)`. -/
def startsIn (m : Memory) (lo hi p : Nat) : Bool :=
  hValid m p && decide (0 < hLength m p) && decide (lo ≤ hBase m p) && decide (hBase m p < hi)

theorem startsIn_iff {m : Memory} {lo hi p : Nat} : startsIn m lo hi p = true ↔
    startsAt m p (hBase m p) ∧ lo ≤ hBase m p ∧ hBase m p < hi := by
  simp [startsIn, startsAt, and_assoc]

/-- Among the valid queues with bytes, those that move are told by their bases. -/
theorem startsIn_of_pos {m : Memory} {lo hi p : Nat} (valid : hValid m p = true)
    (positive : 0 < hLength m p) :
    startsIn m lo hi p = true ↔ lo ≤ hBase m p ∧ hBase m p < hi := by
  rw [startsIn_iff]
  exact and_iff_right ⟨valid, positive, rfl⟩

/-- An empty queue does not move, whatever its base (43_engine.md R208). -/
theorem not_startsIn_of_empty {m : Memory} {lo hi p : Nat} (empty : hLength m p = 0) :
    ¬ startsIn m lo hi p = true := by
  rw [startsIn_iff]
  rintro ⟨⟨-, positive, -⟩, -⟩
  omega

/-- The bases after the window `[lo, hi)` moved right by one (43_engine.md R208). -/
def basesShiftedRight (m : Memory) (lo hi p : Nat) : Nat :=
  if startsIn m lo hi p then hBase m p + 1 else hBase m p

/-- The bases after the window `[lo, hi)` moved left by one (43_engine.md R211). -/
def basesShiftedLeft (m : Memory) (lo hi p : Nat) : Nat :=
  if startsIn m lo hi p then hBase m p - 1 else hBase m p

/-- Where the entry of slot `x` stood before the window `[lo, hi)` moved right by one. -/
def sourceShiftedRight (lo hi x : Nat) : Nat := if lo < x ∧ x ≤ hi then x - 1 else x

/-- Where the entry of slot `x` stood before the window `[lo + 1, hi)` moved left by one. -/
def sourceShiftedLeft (lo hi x : Nat) : Nat := if lo ≤ x ∧ x < hi - 1 then x + 1 else x

theorem basesShiftedRight_ne {m : Memory} {lo hi p : Nat}
    (h : basesShiftedRight m lo hi p ≠ hBase m p) :
    startsAt m p (hBase m p) ∧ lo ≤ hBase m p ∧ hBase m p < hi := by
  rw [← startsIn_iff]
  exact by_contra fun stays => h (if_neg stays)

theorem basesShiftedLeft_ne {m : Memory} {lo hi p : Nat}
    (h : basesShiftedLeft m lo hi p ≠ hBase m p) :
    startsAt m p (hBase m p) ∧ lo ≤ hBase m p ∧ hBase m p < hi := by
  rw [← startsIn_iff]
  exact by_contra fun stays => h (if_neg stays)

theorem sourceShiftedRight_ne {lo hi x : Nat} (h : sourceShiftedRight lo hi x ≠ x) :
    lo < x ∧ x ≤ hi :=
  by_contra fun stays => h (if_neg stays)

theorem sourceShiftedLeft_ne {lo hi x : Nat} (h : sourceShiftedLeft lo hi x ≠ x) :
    lo ≤ x ∧ x < hi - 1 :=
  by_contra fun stays => h (if_neg stays)

theorem entryAt_sourceShiftedRight (m : Memory) (lo hi x : Nat) :
    entryAt m (sourceShiftedRight lo hi x) =
      if lo < x ∧ x ≤ hi then entryAt m (x - 1) else entryAt m x := apply_ite (entryAt m) _ _ _

theorem entryAt_sourceShiftedLeft (m : Memory) (lo hi x : Nat) :
    entryAt m (sourceShiftedLeft lo hi x) =
      if lo ≤ x ∧ x < hi - 1 then entryAt m (x + 1) else entryAt m x := apply_ite (entryAt m) _ _ _

theorem sourceShiftedRight_of_mem {lo hi x : Nat} (h1 : lo < x) (h2 : x ≤ hi) :
    sourceShiftedRight lo hi x = x - 1 := if_pos ⟨h1, h2⟩

theorem sourceShiftedLeft_of_mem {lo hi x : Nat} (h1 : lo ≤ x) (h2 : x < hi - 1) :
    sourceShiftedLeft lo hi x = x + 1 := if_pos ⟨h1, h2⟩

/-! ### The six cases -/

theorem fastPath_enqueued (m : Memory) {q b : Nat} (d : Byte) (hq : q < 64) (hb : b < 1484) :
    ∃ m', fastPath m q d b = .ok m' ∧ Enqueued m m' q 0 b ⟨true, true, d⟩ (hBase m) id :=
  ⟨_, (Engine_bind_of_ok (writeEntry_eq m hb _)).trans (setLength_eq _ hq _),
    enqueued_append _ hq hb (by decide) (KeepsHeaders.refl m) (fun _ _ => rfl) fun _ => rfl⟩

theorem appendDirect_enqueued (m : Memory) {q n tail : Nat} (d : Byte) (hq : q < 64) (hn : n < 1484)
    (ht : tail < 1484) : ∃ m', appendDirect m q d n tail = .ok m' ∧
      Enqueued m m' q n tail ⟨false, true, d⟩ (hBase m) id :=
  ⟨_, (Engine_bind_of_ok (writeEntry_eq m ht _)).trans (setLength_eq _ hq _),
    enqueued_append _ hq ht hn (KeepsHeaders.refl m) (fun _ _ => rfl) fun _ => rfl⟩

theorem relocateRight_enqueued (m : Memory) {q i : Nat} (d : Byte) (hq : q < 64) (hi : i < 1484) :
    ∃ m', relocateRight m q d i = .ok m' ∧
      Enqueued m m' q 0 i ⟨true, true, d⟩ (fun p => if p = q then i else hBase m p) id :=
  ⟨_, (Engine_bind_of_ok (writeEntry_eq m hi _)).trans
    ((Engine_bind_of_ok (setBase_eq _ hq _)).trans (setLength_eq _ hq _)),
    enqueued_relocate m _ hq hi⟩

/-- In a well-formed arena the queues that move are those whose runs start in the window; `q` itself
starts below it. -/
theorem shiftRight_enqueued {m : Memory} (w : WF m) {q n tail i : Nat} (d : Byte) (hq : q < 64)
    (hn : n < 1484) (below : hBase m q < tail) (ht : tail ≤ i) (hi : i < 1484) :
    ∃ m', shiftRight m q d n tail i = .ok m' ∧ Enqueued m m' q n tail ⟨false, true, d⟩
      (basesShiftedRight m tail i) (sourceShiftedRight tail i) := by
  have window : tail + (i - tail) = i := by omega
  obtain ⟨m1, loop, kept, entries, bases⟩ := shiftRightLoop_spec q tail (i - tail) m (by omega)
  rw [window] at entries bases
  refine ⟨_, (Engine_bind_of_ok loop).trans ((Engine_bind_of_ok
    (writeEntry_eq m1 (by omega) _)).trans (setLength_eq _ hq _)),
    enqueued_append _ hq (by omega) hn kept (fun p hp => ?_) fun x => ?_⟩
  · have moves : movesWith m (some q) tail i p ↔ startsIn m tail i p = true := by
      rw [movesWith_iff w (by omega) hp, startsIn_iff]
      refine ⟨And.right, fun starts => ⟨fun same => ?_, starts⟩⟩
      have samePlace : p = q := Option.some.inj same
      rw [samePlace] at starts
      omega
    obtain ⟨moved, stays⟩ := bases p hp
    by_cases starts : startsIn m tail i p = true
    · exact (moved (moves.mpr starts)).trans (if_pos starts).symm
    · exact (stays (mt moves.mp starts)).trans (if_neg starts).symm
  · rw [entries, entryAt_sourceShiftedRight]

/-- The window ends behind the run of `q`, which moves with it. -/
theorem shiftLeft_enqueued {m : Memory} (w : WF m) {q n tail i : Nat} (d : Byte) (hq : q < 64)
    (hn : n < 1484) (hi : i < tail) (ht : tail ≤ 1484) :
    ∃ m', shiftLeft m q d n tail i = .ok m' ∧ Enqueued m m' q n (tail - 1) ⟨false, true, d⟩
      (basesShiftedLeft m (i + 1) tail) (sourceShiftedLeft i tail) := by
  have last : i + (tail - 1 - i) = tail - 1 := by omega
  have window : tail - 1 + 1 = tail := by omega
  obtain ⟨m1, loop, kept, entries, bases⟩ := shiftLeftLoop_spec (tail - 1 - i) i m (by omega)
  rw [last] at entries bases
  rw [window] at bases
  refine ⟨_, (Engine_bind_of_ok loop).trans ((Engine_bind_of_ok
    (writeEntry_eq m1 (by omega) _)).trans (setLength_eq _ hq _)),
    enqueued_append _ hq (by omega) hn kept (fun p hp => ?_) fun x => ?_⟩
  · have moves : movesWith m none (i + 1) tail p ↔ startsIn m (i + 1) tail p = true := by
      rw [movesWith_iff w ht hp, startsIn_iff]
      exact and_iff_right (Option.some_ne_none p)
    obtain ⟨moved, stays⟩ := bases p hp
    by_cases starts : startsIn m (i + 1) tail p = true
    · exact (moved (moves.mpr starts)).trans (if_pos starts).symm
    · exact (stays (mt moves.mp starts)).trans (if_neg starts).symm
  · rw [entries, entryAt_sourceShiftedLeft]

/-! ### The dispatch -/

/-- ENQ on a valid handle is the dispatch on the queue's base and length (43_engine.md R203). -/
theorem enqueueByte_eq {m : Memory} {q : Nat} (d : Byte) (hq : q < 64) (hv : hValid m q = true) :
    enqueueByte m q d = enqueueAt m q d (hBase m q) (hLength m q) >>= fun m1 => .ok (m1, 0) :=
  (Engine_bind_of_ok (checkHandle_valid hq hv)).trans
    ((Engine_bind_of_ok (getBase_eq m hq)).trans (Engine_bind_of_ok (getLength_eq m hq)))

/-- Case 1 applies to a queue with base `b` and length `n` (43_engine.md R203, R204). -/
def takesFastPath (m : Memory) (b n : Nat) : Prop := n = 0 ∧ b < 1484 ∧ eValid m b = false

theorem fastPathApplies_iff (m : Memory) (b n : Nat) :
    ∃ f, fastPathApplies m b n = .ok f ∧ (f = true ↔ takesFastPath m b n) := by
  unfold fastPathApplies takesFastPath
  by_cases empty : n = 0 ∧ b < Config.maxEntries
  · obtain ⟨hn, hb⟩ := empty
    refine ⟨!eValid m b, ?_, by simp [hn, show b < 1484 from hb]⟩
    rw [if_pos ⟨hn, hb⟩, readEntry_eq m hb, Engine_ok_bind, entryAt_valid, Engine_pure]
  · refine ⟨false, by rw [if_neg empty, Engine_pure], ?_⟩
    exact iff_of_false Bool.false_ne_true fun fast => empty ⟨fast.1, fast.2.1⟩

theorem enqueueAt_fast {m : Memory} {b n : Nat} (q : Nat) (d : Byte) (fast : takesFastPath m b n) :
    enqueueAt m q d b n = fastPath m q d b := by
  obtain ⟨f, applies, hf⟩ := fastPathApplies_iff m b n
  exact (Engine_bind_of_ok applies).trans (if_pos (hf.mpr fast))

theorem enqueueAt_up {m : Memory} {b n i : Nat} (q : Nat) (d : Byte) (slow : ¬ takesFastPath m b n)
    (up : findFreeSlotUp m (b + n) = .ok (some i)) :
    enqueueAt m q d b n = enqueueRight m q d n (b + n) i := by
  obtain ⟨f, applies, hf⟩ := fastPathApplies_iff m b n
  exact (Engine_bind_of_ok applies).trans ((if_neg (mt hf.mp slow)).trans (Engine_bind_of_ok up))

theorem enqueueAt_down {m : Memory} {b n i : Nat} (q : Nat) (d : Byte) (slow : ¬ takesFastPath m b n)
    (up : findFreeSlotUp m (b + n) = .ok none) (down : findFreeSlotBelow m b = .ok (some i)) :
    enqueueAt m q d b n = enqueueLeft m q d n (b + n) i := by
  obtain ⟨f, applies, hf⟩ := fastPathApplies_iff m b n
  exact (Engine_bind_of_ok applies).trans ((if_neg (mt hf.mp slow)).trans
    ((Engine_bind_of_ok up).trans (Engine_bind_of_ok down)))

theorem enqueueAt_full {m : Memory} {b n : Nat} (q : Nat) (d : Byte) (slow : ¬ takesFastPath m b n)
    (up : findFreeSlotUp m (b + n) = .ok none) (down : findFreeSlotBelow m b = .ok none) :
    enqueueAt m q d b n = .error (.raise .noFreeSlot) := by
  obtain ⟨f, applies, hf⟩ := fastPathApplies_iff m b n
  exact (Engine_bind_of_ok applies).trans ((if_neg (mt hf.mp slow)).trans
    ((Engine_bind_of_ok up).trans (Engine_bind_of_ok down)))

theorem enqueueRight_atTail (m : Memory) (q : Nat) (d : Byte) (n tail : Nat) :
    enqueueRight m q d n tail tail = appendDirect m q d n tail := if_pos rfl

theorem enqueueRight_relocates (m : Memory) (q : Nat) (d : Byte) {tail i : Nat} (h : i ≠ tail) :
    enqueueRight m q d 0 tail i = relocateRight m q d i := (if_neg h).trans (if_pos rfl)

theorem enqueueRight_shifts (m : Memory) (q : Nat) (d : Byte) {n tail i : Nat} (h : i ≠ tail)
    (hn : 0 < n) : enqueueRight m q d n tail i = shiftRight m q d n tail i :=
  (if_neg h).trans (if_neg hn.ne')

/-- The mirror image of RelocateRight writes the same fields (43_engine.md R207, R210). -/
theorem enqueueLeft_relocates (m : Memory) (q : Nat) (d : Byte) (tail i : Nat) :
    enqueueLeft m q d 0 tail i = relocateRight m q d i := if_pos rfl

theorem enqueueLeft_shifts (m : Memory) (q : Nat) (d : Byte) {n : Nat} (tail i : Nat) (hn : 0 < n) :
    enqueueLeft m q d n tail i = shiftLeft m q d n tail i := if_neg hn.ne'

theorem not_takesFastPath_of_pos {m : Memory} {b n : Nat} (hn : 0 < n) : ¬ takesFastPath m b n :=
  fun fast => by have := fast.1; omega

theorem not_takesFastPath_of_occupied {m : Memory} {b n : Nat} (h : b < 1484 → eValid m b = true) :
    ¬ takesFastPath m b n := by
  rintro ⟨-, hb, free⟩
  rw [h hb] at free
  cases free

/-! ### The obligations -/

/-- ENQ on a queue with base `b` and length `n` ends as the dispatch does. -/
theorem command_enq {m : Memory} {q b n : Nat} (d : Byte) (hq : q < 64) (hv : hValid m q = true)
    (hb : hBase m q = b) (hn : hLength m q = n) :
    command (.enq q d) m = enqueueAt m q d b n >>= fun m1 => .ok (m1, 0) := by
  rw [← hb, ← hn]
  exact enqueueByte_eq d hq hv

/-- A dispatch that answers makes ENQ succeed with RESULT 0. -/
theorem exec_enq_succeeds {s : State} {q b n : Nat} {d : Byte} {m' : Memory} (hq : q < 64)
    (hv : hValid s.arena q = true) (hb : hBase s.arena q = b) (hn : hLength s.arena q = n)
    (run : enqueueAt s.arena q d b n = .ok m') :
    ∃ t, exec (.enq q d) s = .next t ∧ EndsInSuccess s t 0 ∧ t.arena = m' :=
  exec_succeeds (i := .enq q d)
    ((command_enq d hq hv hb hn).trans (Engine_bind_of_ok run)) (by decide)

theorem exec_enq_outOfMemory {s : State} {q b n : Nat} {d : Byte} (hq : q < 64)
    (hv : hValid s.arena q = true) (hb : hBase s.arena q = b) (hn : hLength s.arena q = n)
    (run : enqueueAt s.arena q d b n = .error (.raise .noFreeSlot)) :
    ∃ t, exec (.enq q d) s = .next t ∧ EndsInOutOfMemory s t :=
  ⟨_, exec_of_raise (i := .enq q d)
    ((command_enq d hq hv hb hn).trans (Engine_bind_of_error run)),
    endsInOutOfMemory_raise s⟩

/-- What ENQ leaves when it shifts nothing and keeps the base. -/
theorem exec_enq_in_place {s : State} {q b n slot : Nat} {d : Byte} {e : Entry} {m' : Memory}
    (hq : q < 64) (hv : hValid s.arena q = true) (hb : hBase s.arena q = b)
    (hn : hLength s.arena q = n) (run : enqueueAt s.arena q d b n = .ok m')
    (after : Enqueued s.arena m' q n slot e (hBase s.arena) id) :
    ∃ t, exec (.enq q d) s = .next t ∧ EndsInSuccess s t 0 ∧ entryAt t.arena slot = e ∧
      hLength t.arena q = n + 1 ∧
      sameOutside s.arena t.arena (fun k => entryBit slot k ∨ lengthBit q k) := by
  have ⟨_, _, _, lengths, bases, entries⟩ := after
  obtain ⟨t, next, ends, rfl⟩ := exec_enq_succeeds hq hv hb hn run
  refine ⟨t, next, ends, by rw [entries, if_pos rfl], by rw [lengths q hq, if_pos rfl], ?_⟩
  exact sameOutside_of_enqueued after (fun _ => .inr) (fun _ => .inl)
    (fun _ _ moved => absurd rfl moved) fun _ _ shifted => absurd rfl shifted

/-- Settles O19: case 1 writes the entry and the length. -/
theorem enqFastPath : Obligations.EnqFastPath := by
  intro s q b d hq hv hn hb inRange free
  obtain ⟨m', run, after⟩ := fastPath_enqueued s.arena d hq inRange
  rw [← enqueueAt_fast q d ⟨rfl, inRange, free⟩] at run
  exact exec_enq_in_place hq hv hb hn run after

/-- Settles O20: the tail is the nearest free slot, so nothing is shifted. -/
theorem enqAppendDirect : Obligations.EnqAppendDirect := by
  intro s q b n d hq hv hb hn positive inRange free
  obtain ⟨m', run, after⟩ := appendDirect_enqueued s.arena (n := n) d hq (by omega) inRange
  have up : findFreeSlotUp s.arena (b + n) = .ok (some (b + n)) :=
    findFreeSlotUp_eq_some le_rfl inRange free (fun x _ _ => by omega)
  have dispatch : enqueueAt s.arena q d b n = .ok m' := by
    rw [enqueueAt_up q d (not_takesFastPath_of_pos positive) up, enqueueRight_atTail, run]
  exact exec_enq_in_place hq hv hb hn dispatch after

/-- What an empty queue leaves that takes the slot `i`, on either side of its base. -/
theorem exec_enq_relocated {s : State} {q b i : Nat} {d : Byte} (hq : q < 64)
    (hv : hValid s.arena q = true) (hb : hBase s.arena q = b) (hn : hLength s.arena q = 0)
    (hi : i < 1484) (dispatch : enqueueAt s.arena q d b 0 = relocateRight s.arena q d i) :
    ∃ t, exec (.enq q d) s = .next t ∧ EndsInSuccess s t 0 ∧
      entryAt t.arena i = ⟨true, true, d⟩ ∧ hBase t.arena q = i ∧ hLength t.arena q = 1 ∧
      sameOutside s.arena t.arena (fun k => entryBit i k ∨ baseBit q k ∨ lengthBit q k) := by
  obtain ⟨m', run, after⟩ := relocateRight_enqueued s.arena d hq hi
  have ⟨_, _, _, lengths, bases, entries⟩ := after
  obtain ⟨t, next, ends, rfl⟩ := exec_enq_succeeds hq hv hb hn (dispatch.trans run)
  refine ⟨t, next, ends, by rw [entries, if_pos rfl], (bases q hq).trans (if_pos rfl),
    by rw [lengths q hq, if_pos rfl], ?_⟩
  refine sameOutside_of_enqueued after (fun _ h => .inr (.inr h)) (fun _ => .inl)
    (fun p _ moved k inBase => ?_) fun _ _ shifted => absurd rfl shifted
  have same : p = q := by_contra fun other => moved (if_neg other)
  exact .inr (.inl (same ▸ inBase))

/-- Settles O21: with the base slot occupied the upward search decides. -/
theorem enqRelocateRight : Obligations.EnqRelocateRight := by
  intro s q b i d hq hv hb hn above inRange free occupied
  have up : findFreeSlotUp s.arena (b + 0) = .ok (some i) :=
    findFreeSlotUp_eq_some above.le inRange free occupied
  have slow : ¬ takesFastPath s.arena b 0 :=
    not_takesFastPath_of_occupied fun _ => occupied b le_rfl above
  refine exec_enq_relocated hq hv hb hn inRange ?_
  rw [enqueueAt_up q d slow up, enqueueRight_relocates _ _ _ (by omega)]

/-- Settles O23: with the upward search empty the downward search decides. -/
theorem enqRelocateLeft : Obligations.EnqRelocateLeft := by
  intro s q b i d hq hv hb hn inRange occupiedAbove below free occupiedBelow
  have up : findFreeSlotUp s.arena (b + 0) = .ok none := findFreeSlotUp_eq_none occupiedAbove
  have down : findFreeSlotBelow s.arena b = .ok (some i) :=
    findFreeSlotBelow_eq_some inRange below free occupiedBelow
  have slow : ¬ takesFastPath s.arena b 0 :=
    not_takesFastPath_of_occupied (occupiedAbove b le_rfl)
  refine exec_enq_relocated hq hv hb hn (by omega) ?_
  rw [enqueueAt_down q d slow up down, enqueueLeft_relocates]

/-- Settles O22: the upward search stops behind the tail, and the window up to it moves. -/
theorem enqShiftRight : Obligations.EnqShiftRight := by
  intro s q b n i d w hq hv hb hn positive above inRange free occupied
  obtain ⟨m', run, after⟩ := shiftRight_enqueued w (n := n) (tail := b + n) d hq (by omega)
    (by omega) above.le inRange
  have up : findFreeSlotUp s.arena (b + n) = .ok (some i) :=
    findFreeSlotUp_eq_some above.le inRange free occupied
  have dispatch : enqueueAt s.arena q d b n = .ok m' := by
    rw [enqueueAt_up q d (not_takesFastPath_of_pos positive) up,
      enqueueRight_shifts _ _ _ above.ne' positive, run]
  have ⟨_, _, _, lengths, bases, entries⟩ := after
  obtain ⟨t, next, ends, rfl⟩ := exec_enq_succeeds hq hv hb hn dispatch
  refine ⟨t, next, ends, fun x lo hi => ?_, by rw [entries, if_pos rfl],
    by rw [lengths q hq, if_pos rfl], ?_, ?_⟩
  · rw [entries, if_neg lo.ne', sourceShiftedRight_of_mem lo hi]
  · rintro p hp c ⟨vp, lp, rfl⟩ lo hi
    exact (bases p hp).trans (if_pos ((startsIn_of_pos vp lp).mpr ⟨lo, hi⟩))
  · refine sameOutside_of_enqueued after (fun _ => .inl)
      (fun _ inEntry => .inr (.inl ⟨b + n, le_rfl, above.le, inEntry⟩))
      (fun p hp moved _ inBase => ?_) fun x _ shifted _ inEntry => ?_
    · obtain ⟨starts, lo, hi⟩ := basesShiftedRight_ne moved
      exact .inr (.inr ⟨p, hp, _, starts, lo, hi, inBase⟩)
    · obtain ⟨lo, hi⟩ := sourceShiftedRight_ne shifted
      exact .inr (.inl ⟨x, lo.le, hi, inEntry⟩)

/-- Settles O24: the window ends with the run of `q`, so its own base moves too. -/
theorem enqShiftLeft : Obligations.EnqShiftLeft := by
  intro s q b n i d w hq hv hb hn positive occupiedAbove below free occupiedBelow
  have runInRange := w.runsInRange q hq hv (by omega)
  rw [hb, hn] at runInRange
  obtain ⟨m', run, after⟩ := shiftLeft_enqueued w (n := n) (tail := b + n) (i := i) d hq (by omega)
    (by omega) runInRange
  have up : findFreeSlotUp s.arena (b + n) = .ok none := findFreeSlotUp_eq_none occupiedAbove
  have down : findFreeSlotBelow s.arena b = .ok (some i) :=
    findFreeSlotBelow_eq_some (by omega) below free occupiedBelow
  have dispatch : enqueueAt s.arena q d b n = .ok m' := by
    rw [enqueueAt_down q d (not_takesFastPath_of_pos positive) up down,
      enqueueLeft_shifts _ _ _ _ _ positive, run]
  have ⟨_, _, _, lengths, bases, entries⟩ := after
  obtain ⟨t, next, ends, rfl⟩ := exec_enq_succeeds hq hv hb hn dispatch
  refine ⟨t, next, ends, fun x lo hi => ?_, by rw [entries, if_pos rfl],
    by rw [lengths q hq, if_pos rfl], ?_, ?_⟩
  · rw [entries, if_neg hi.ne, sourceShiftedLeft_of_mem lo hi]
  · rintro p hp c ⟨vp, lp, rfl⟩ lo hi
    exact (bases p hp).trans (if_pos ((startsIn_of_pos vp lp).mpr ⟨lo, hi⟩))
  · refine sameOutside_of_enqueued after (fun _ => .inl)
      (fun _ inEntry => .inr (.inl ⟨b + n - 1, by omega, by omega, inEntry⟩))
      (fun p hp moved _ inBase => ?_) fun x _ shifted _ inEntry => ?_
    · obtain ⟨starts, lo, hi⟩ := basesShiftedLeft_ne moved
      exact .inr (.inr ⟨p, hp, _, starts, lo, hi, inBase⟩)
    · obtain ⟨lo, hi⟩ := sourceShiftedLeft_ne shifted
      exact .inr (.inl ⟨x, lo, by omega, inEntry⟩)

/-- Settles O25: both searches fail. -/
theorem enqOutOfMemory : Obligations.EnqOutOfMemory := by
  intro s q b n d hq hv hb hn inRange occupiedAbove occupiedBelow
  have up : findFreeSlotUp s.arena (b + n) = .ok none := findFreeSlotUp_eq_none occupiedAbove
  have down : findFreeSlotBelow s.arena b = .ok none :=
    findFreeSlotBelow_eq_none inRange occupiedBelow
  have slow : ¬ takesFastPath s.arena b n := by
    rintro ⟨rfl, hb', free⟩
    rw [occupiedAbove b le_rfl hb'] at free
    cases free
  exact exec_enq_outOfMemory hq hv hb hn (enqueueAt_full q d slow up down)

end Sys2Proof.Machine
end

section
/-! DEQ, CREATE and DESTROY: the arena each leaves and its records (43_engine.md R201, R202, R214). -/

namespace Sys2Proof.Machine

/-! ### DEQ -/

/-- The arena with slot `b` freed and unmarked (43_engine.md R214). -/
def Memory.freed (m : Memory) (b : Nat) : Memory := (m.withEntryValid b false).withEntryBase b false

theorem freed_eq (m : Memory) (b : Nat) :
    m.freed b = (m.withEntryValid b false).withEntryBase b false := rfl

theorem entryAt_freed (m : Memory) (b x : Nat) :
    entryAt (m.freed b) x = if x = b then ⟨false, false, eValue m b⟩ else entryAt m x := by
  by_cases h : x = b <;> simp [entryAt, freed_eq, eQb_withEntryBase, eValid_withEntryValid, h]

/-- The arena after the front byte of `q` left slot `b` and another became the front
(43_engine.md R214). -/
def Memory.advanced (m : Memory) (q b n : Nat) : Memory :=
  (((m.freed b).withBase q (b + 1)).withEntryBase (b + 1) true).withLength q (n - 1)

/-- The arena after the only byte of `q` left slot `b` (43_engine.md R214). -/
def Memory.emptied (m : Memory) (q b : Nat) : Memory :=
  ((m.freed b).withBase q 1484).withLength q 0

theorem advanced_eq (m : Memory) (q b n : Nat) : m.advanced q b n =
    (((m.freed b).withBase q (b + 1)).withEntryBase (b + 1) true).withLength q (n - 1) := rfl

theorem emptied_eq (m : Memory) (q b : Nat) :
    m.emptied q b = ((m.freed b).withBase q 1484).withLength q 0 := rfl

theorem takeFront_advances (m : Memory) {q b n : Nat} (hq : q < 64) (hn : 1 < n) (hb : b + 1 < 1484) :
    takeFront m q b n = .ok (m.advanced q b n, (eValue m b).toNat) := by
  have front : b < 1484 := by omega
  have advance : advanceBase (m.freed b) q b n =
      .ok (((m.freed b).withBase q (b + 1)).withEntryBase (b + 1) true) :=
    (if_pos hn).trans ((Engine_bind_of_ok (setBase_eq _ hq _)).trans (setEntryBase_eq _ hb true))
  exact (Engine_bind_of_ok (readEntry_eq m front)).trans
    ((Engine_bind_of_ok (setEntryValid_eq m front false)).trans
    ((Engine_bind_of_ok (setEntryBase_eq _ front false)).trans
    ((Engine_bind_of_ok advance).trans (Engine_bind_of_ok (setLength_eq _ hq _)))))

theorem takeFront_empties (m : Memory) {q b : Nat} (hq : q < 64) (hb : b < 1484) :
    takeFront m q b 1 = .ok (m.emptied q b, (eValue m b).toNat) := by
  have advance : advanceBase (m.freed b) q b 1 = .ok ((m.freed b).withBase q 1484) :=
    (if_neg (lt_irrefl 1)).trans (setBase_eq _ hq _)
  exact (Engine_bind_of_ok (readEntry_eq m hb)).trans
    ((Engine_bind_of_ok (setEntryValid_eq m hb false)).trans
    ((Engine_bind_of_ok (setEntryBase_eq _ hb false)).trans
    ((Engine_bind_of_ok advance).trans (Engine_bind_of_ok (setLength_eq _ hq _)))))

/-- The records after DEQ on queue `q` with base `b` and length `n`: its front slot is free, its next
byte, if it has one, is marked and the base. -/
def Dequeued (m m' : Memory) (q b n : Nat) : Prop :=
  countOf m' = countOf m ∧ (∀ p < 64, hValid m' p = hValid m p) ∧
  (∀ p < 64, hLength m' p = if p = q then n - 1 else hLength m p) ∧
  (∀ p < 64, hBase m' p = if p = q then (if n = 1 then 1484 else b + 1) else hBase m p) ∧
  ∀ x, entryAt m' x = if x = b then ⟨false, false, eValue m b⟩
    else if x = b + 1 ∧ 1 < n then ⟨true, eValid m x, eValue m x⟩ else entryAt m x

theorem dequeued_advanced (m : Memory) {q b n : Nat} (hq : q < 64) (hn : 1 < n) (hn' : n ≤ 2048)
    (hb : b + 1 < 1484) : Dequeued m (m.advanced q b n) q b n := by
  refine ⟨by simp [advanced_eq, freed_eq],
    fun p hp => by simp [advanced_eq, freed_eq, hp], fun p hp => ?_, fun p hp => ?_,
    fun x => ?_⟩
  · rw [advanced_eq, hLength_withLength, Nat.mod_eq_of_lt (by omega)]
    simp [freed_eq, hp]
  · rw [advanced_eq, hBase_withLength, hBase_withEntryBase _ _ _ hp, hBase_withBase,
      Nat.mod_eq_of_lt (by omega), if_neg hn.ne']
    simp [freed_eq, hp]
  · have old := entryAt_freed m b x
    rw [advanced_eq, entryAt_withLength _ _ hq]
    by_cases next : x = b + 1
    · subst next
      rw [if_neg (by omega)] at old
      rw [if_neg (by omega), if_pos ⟨rfl, hn⟩]
      simp only [entryAt, Entry.mk.injEq] at old ⊢
      simp [eQb_withEntryBase, hq, old]
    · rw [if_neg (c := x = b + 1 ∧ 1 < n) (fun h => next h.1), ← old]
      simp [entryAt, eQb_withEntryBase, hq, next]

theorem dequeued_emptied (m : Memory) {q b : Nat} (hq : q < 64) :
    Dequeued m (m.emptied q b) q b 1 := by
  refine ⟨by simp [emptied_eq, freed_eq],
    fun p hp => by simp [emptied_eq, freed_eq, hp],
    fun p hp => by simp [emptied_eq, freed_eq, hLength_withLength, hp],
    fun p hp => by simp [emptied_eq, freed_eq, hBase_withBase, hp], fun x => ?_⟩
  rw [emptied_eq, entryAt_withLength _ _ hq, entryAt_withBase _ _ hq, entryAt_freed]
  simp

theorem sameOutside_freed (m : Memory) (b : Nat) {P : Nat → Prop} (h : ∀ k, entryFlagBit b k → P k) :
    sameOutside m (m.freed b) P :=
  sameOutside_trans
    (sameOutside_withEntryValid m b false (h _ ⟨by omega, by omega⟩))
    (sameOutside_withEntryBase _ b false (h _ ⟨le_rfl, by omega⟩))

theorem sameOutside_advanced (m : Memory) (q b n : Nat) : sameOutside m (m.advanced q b n)
    (fun k => entryFlagBit b k ∨ k = 1544 + 10 * (b + 1) ∨ baseBit q k ∨ lengthBit q k) := by
  refine sameOutside_trans (sameOutside_freed m b fun _ => .inl) ?_
  refine sameOutside_trans (sameOutside_withBase _ q (b + 1) fun _ h => .inr (.inr (.inl h))) ?_
  exact sameOutside_trans (sameOutside_withEntryBase _ _ _ (.inr (.inl rfl)))
    (sameOutside_withLength _ q _ fun _ h => .inr (.inr (.inr h)))

theorem sameOutside_emptied (m : Memory) (q b : Nat) : sameOutside m (m.emptied q b)
    (fun k => entryFlagBit b k ∨ baseBit q k ∨ lengthBit q k) := by
  refine sameOutside_trans (sameOutside_freed m b fun _ => .inl) ?_
  exact sameOutside_trans (sameOutside_withBase _ q _ fun _ h => .inr (.inl h))
    (sameOutside_withLength _ q _ fun _ h => .inr (.inr h))

/-- DEQ on a valid handle (43_engine.md R214). -/
theorem dequeueByte_eq {m : Memory} {q : Nat} (hq : q < 64) (hv : hValid m q = true) :
    dequeueByte m q = if hLength m q = 0 then .error (.raise .emptyQueue)
      else takeFront m q (hBase m q) (hLength m q) :=
  (Engine_bind_of_ok (checkHandle_valid hq hv)).trans
    ((Engine_bind_of_ok (getBase_eq m hq)).trans (Engine_bind_of_ok (getLength_eq m hq)))

theorem dequeueByte_empty {m : Memory} {q : Nat} (hq : q < 64) (hv : hValid m q = true)
    (hn : hLength m q = 0) : dequeueByte m q = .error (.raise .emptyQueue) := by
  rw [dequeueByte_eq hq hv, if_pos hn]

theorem dequeueByte_advances {m : Memory} {q b n : Nat} (hq : q < 64) (hv : hValid m q = true)
    (hb : hBase m q = b) (hn : hLength m q = n) (more : 1 < n) (inRange : b + 1 < 1484) :
    dequeueByte m q = .ok (m.advanced q b n, (eValue m b).toNat) := by
  rw [dequeueByte_eq hq hv, hb, hn, if_neg (by omega), takeFront_advances m hq more inRange]

theorem dequeueByte_empties {m : Memory} {q b : Nat} (hq : q < 64) (hv : hValid m q = true)
    (hb : hBase m q = b) (hn : hLength m q = 1) (inRange : b < 1484) :
    dequeueByte m q = .ok (m.emptied q b, (eValue m b).toNat) := by
  rw [dequeueByte_eq hq hv, hb, hn, if_neg one_ne_zero, takeFront_empties m hq inRange]

theorem byte_lt_word (v : Byte) : v.toNat < 2 ^ 32 := v.isLt.trans (by decide)

/-- Settles O29. -/
theorem deqOnEmptyQueue : Obligations.DeqOnEmptyQueue := fun _ q hq hv hn =>
  exec_endsInIllegal (i := .deq q) kind_emptyQueue (dequeueByte_empty hq hv hn)

/-- Settles O27: the next slot takes the marker over, and the base follows it. -/
theorem deqAdvancesBase : Obligations.DeqAdvancesBase := by
  intro s q b n hq hv hb hn more inRange
  have bound := hLength_lt s.arena q
  have ⟨_, _, lengths, bases, entries⟩ := dequeued_advanced s.arena hq more (by omega) inRange
  obtain ⟨t, next, ends, ht⟩ := exec_succeeds (i := .deq q)
    (dequeueByte_advances hq hv hb hn more inRange) (byte_lt_word _)
  rw [← ht] at lengths bases entries
  have front := entries b
  have second := entries (b + 1)
  rw [if_pos rfl] at front
  rw [if_neg (by omega), if_pos ⟨rfl, more⟩] at second
  refine ⟨t, next, ends, congrArg Entry.valid front, congrArg Entry.qb front,
    congrArg Entry.qb second, ?_, ?_, ht ▸ sameOutside_advanced s.arena q b n⟩
  · rw [bases q hq, if_pos rfl, if_neg more.ne']
  · rw [lengths q hq, if_pos rfl]

/-- Settles O28: no byte is left to be the base. -/
theorem deqEmptiesQueue : Obligations.DeqEmptiesQueue := by
  intro s q b hq hv hb hn inRange
  have ⟨_, _, lengths, bases, entries⟩ := dequeued_emptied s.arena (b := b) hq
  obtain ⟨t, next, ends, ht⟩ := exec_succeeds (i := .deq q)
    (dequeueByte_empties hq hv hb hn inRange) (byte_lt_word _)
  rw [← ht] at lengths bases entries
  have front := entries b
  rw [if_pos rfl] at front
  refine ⟨t, next, ends, congrArg Entry.valid front, congrArg Entry.qb front, ?_, ?_,
    ht ▸ sameOutside_emptied s.arena q b⟩
  · rw [bases q hq, if_pos rfl, if_pos rfl]
  · rw [lengths q hq, if_pos rfl]

/-! ### CREATE -/

/-- `f` is the lowest free slot, or INVALID when every slot is taken: what CREATE records as the base
(43_engine.md R201). -/
def isFirstFree (m : Memory) (f : Nat) : Prop :=
  f ≤ 1484 ∧ (f < 1484 → eValid m f = false) ∧ ∀ x < f, eValid m x = true

theorem isFirstFree_unique {m : Memory} {f g : Nat} (hf : isFirstFree m f) (hg : isFirstFree m g) :
    f = g := by
  obtain ⟨inRange, free, taken⟩ := hf
  obtain ⟨inRange', free', taken'⟩ := hg
  rcases lt_trichotomy f g with lt | eq | gt
  · have clash := taken' f lt
    rw [free (by omega)] at clash
    cases clash
  · exact eq
  · have clash := taken g gt
    rw [free' (by omega)] at clash
    cases clash

/-- The base CREATE takes from the scan of the whole entry segment. -/
theorem findFreeSlotUp_firstFree (m : Memory) :
    ∃ o, findFreeSlotUp m 0 = .ok o ∧ isFirstFree m (baseOrInvalid o) := by
  obtain ⟨o, scan, spec⟩ := findFreeSlotUp_spec m 0
  refine ⟨o, scan, ?_⟩
  cases o with
  | none => exact ⟨le_rfl, fun h => absurd h (lt_irrefl _), fun x hx => spec x (Nat.zero_le x) hx⟩
  | some f =>
    obtain ⟨-, inRange, free, taken⟩ := spec
    exact ⟨inRange.le, fun _ => free, fun x hx => taken x (Nat.zero_le x) hx⟩

/-- The arena after CREATE made queue `q` with base `f` (43_engine.md R201). -/
def Memory.created (m : Memory) (q f : Nat) : Memory :=
  (((m.withValid q true).withCount (countOf m + 1)).withBase q f).withLength q 0

theorem created_eq (m : Memory) (q f : Nat) : m.created q f =
    (((m.withValid q true).withCount (countOf m + 1)).withBase q f).withLength q 0 := rfl

theorem createQueue_of_free {m : Memory} {q : Nat} (hq : q < 64) (free : hValid m q = false)
    (taken : ∀ p < q, hValid m p = true) :
    ∃ f, isFirstFree m f ∧ createQueue m = .ok (m.created q f, q) := by
  obtain ⟨o, scan, first⟩ :=
    findFreeSlotUp_firstFree ((m.withValid q true).withCount (countOf m + 1))
  refine ⟨baseOrInvalid o, by simpa [isFirstFree] using first, ?_⟩
  have count : incrementCount (m.withValid q true) =
      .ok ((m.withValid q true).withCount (countOf m + 1)) := by
    rw [incrementCount_eq, countOf_withValid]
  exact (Engine_bind_of_ok (findFreeHeader_eq_some hq free taken)).trans
    ((Engine_bind_of_ok (setValid_eq m hq true)).trans ((Engine_bind_of_ok count).trans
    ((Engine_bind_of_ok scan).trans ((Engine_bind_of_ok (setBase_eq _ hq _)).trans
    (Engine_bind_of_ok (setLength_eq _ hq 0))))))

theorem createQueue_full {m : Memory} (taken : ∀ p < 64, hValid m p = true) :
    createQueue m = .error (.raise .noFreeHeader) :=
  Engine_bind_of_ok (findFreeHeader_eq_none taken)

/-- All CREATE can do (43_engine.md R201). -/
theorem createQueue_cases (m : Memory) :
    (createQueue m = .error (.raise .noFreeHeader)) ∨
    ∃ q < 64, hValid m q = false ∧ ∃ f, isFirstFree m f ∧ createQueue m = .ok (m.created q f, q) := by
  obtain ⟨o, -, spec⟩ := findFreeHeader_spec m
  cases o with
  | none => exact .inl (createQueue_full spec)
  | some q =>
    obtain ⟨hq, free, taken⟩ := spec
    exact .inr ⟨q, hq, free, createQueue_of_free hq free taken⟩

section
variable (m : Memory) {q f : Nat}

theorem countOf_created : countOf (m.created q f) = (countOf m + 1) % 256 := by simp [created_eq]
theorem hValid_created (p : Nat) :
    hValid (m.created q f) p = if p = q then true else hValid m p := by
  simp [created_eq, hValid_withValid]
theorem hLength_created (p : Nat) :
    hLength (m.created q f) p = if p = q then 0 else hLength m p := by
  simp [created_eq, hLength_withLength]
theorem hBase_created (hf : f ≤ 1484) (p : Nat) :
    hBase (m.created q f) p = if p = q then f else hBase m p := by
  simp [created_eq, hBase_withBase, Nat.mod_eq_of_lt (show f < 2048 by omega)]
theorem entryAt_created (hq : q < 64) (x : Nat) : entryAt (m.created q f) x = entryAt m x := by
  simp [created_eq, hq]

end

theorem sameOutside_created (m : Memory) (q f : Nat) :
    sameOutside m (m.created q f) (fun k => k < 8 ∨ headerBit q k) := by
  refine sameOutside_trans (sameOutside_withValid m q true (.inr ⟨le_rfl, by omega⟩)) ?_
  refine sameOutside_trans (sameOutside_withCount _ (countOf m + 1) fun _ => .inl) ?_
  refine sameOutside_trans (sameOutside_withBase _ q f fun k h => .inr ?_)
    (sameOutside_withLength _ q 0 fun k h => .inr ?_)
  · exact ⟨by have := h.1; omega, by have := h.2; omega⟩
  · exact ⟨by have := h.1; omega, by have := h.2; omega⟩

/-- Settles O15. -/
theorem createWithoutFreeHeader : Obligations.CreateWithoutFreeHeader := fun _ taken =>
  exec_endsInIllegal (i := .create) kind_noFreeHeader (createQueue_full taken)

/-- Settles O14: the scan's slot is the one first free slot, INVALID when there is none. -/
theorem createAllocatesLowestQid : Obligations.CreateAllocatesLowestQid := by
  intro s q hq free taken
  obtain ⟨f, first, run⟩ := createQueue_of_free hq free taken
  obtain ⟨t, next, ends, ht⟩ := exec_succeeds (i := .create) run (by omega)
  have base : hBase t.arena q = f := by rw [ht, hBase_created _ first.1, if_pos rfl]
  refine ⟨t, next, ends, ?_, ?_, fun g hg freeSlot takenSlots => ?_, fun allTaken => ?_, ?_, ?_⟩
  · rw [ht, hValid_created, if_pos rfl]
  · rw [ht, hLength_created, if_pos rfl]
  · rw [base, isFirstFree_unique first ⟨hg.le, fun _ => freeSlot, takenSlots⟩]
  · rw [base, isFirstFree_unique first ⟨le_rfl, fun h => absurd h (lt_irrefl _), allTaken⟩]
  · rw [ht, countOf_created]
  · rw [ht]
    exact sameOutside_created s.arena q f

/-! ### DESTROY -/

/-- The records after DESTROY of queue `q` (43_engine.md R202). -/
def Destroyed (m m' : Memory) (q : Nat) : Prop :=
  countOf m' = (countOf m + 255) % 256 ∧
  (∀ p < 64, hValid m' p = if p = q then false else hValid m p) ∧
  (∀ p < 64, hLength m' p = if p = q then 0 else hLength m p) ∧
  (∀ p < 64, hBase m' p = if p = q then 1484 else hBase m p) ∧
  ∀ x, entryAt m' x = if hBase m q ≤ x ∧ x < hBase m q + hLength m q
    then ⟨eQb m x && !decide (x = hBase m q), false, eValue m x⟩ else entryAt m x

theorem destroyQueue_destroyed {m : Memory} {q : Nat} (hq : q < 64) (hv : hValid m q = true)
    (inRange : hBase m q + hLength m q ≤ 1484) :
    ∃ m', destroyQueue m q = .ok (m', 0) ∧ Destroyed m m' q := by
  obtain ⟨m1, run, kept, bases, entries⟩ := freeRun_spec (hBase m q) (hLength m q) (hBase m q) m inRange
  refine ⟨_, (Engine_bind_of_ok (checkHandle_valid hq hv)).trans
    ((Engine_bind_of_ok (getBase_eq m hq)).trans ((Engine_bind_of_ok (getLength_eq m hq)).trans
    ((Engine_bind_of_ok run).trans ((Engine_bind_of_ok (setLength_eq _ hq 0)).trans
    ((Engine_bind_of_ok (setBase_eq _ hq 1484)).trans ((Engine_bind_of_ok
    (setValid_eq _ hq false)).trans (Engine_bind_of_ok (decrementCount_eq _)))))))),
    ?_, fun p hp => ?_, fun p hp => ?_, fun p hp => ?_, fun x => ?_⟩
  · simp [kept.count]
  · simp [hValid_withValid, kept.valid p hp]
  · simp [hLength_withLength, kept.length p hp]
  · simp [hBase_withBase, bases p hp]
  · rw [entryAt_withCount, entryAt_withValid _ _ hq, entryAt_withBase _ _ hq,
      entryAt_withLength _ _ hq, entries]

/-- In a well-formed arena every valid queue's run lies in the entry segment, an empty one too. -/
theorem run_le {m : Memory} (w : WF m) {q : Nat} (hq : q < 64) (hv : hValid m q = true) :
    hBase m q + hLength m q ≤ 1484 := by
  rcases Nat.eq_zero_or_pos (hLength m q) with empty | positive
  · have base := w.emptyBases q hq hv empty
    omega
  · exact w.runsInRange q hq hv positive

/-- Settles O17: a scan that starts at a free slot stops there. -/
theorem destroyedSlotsAreFound : Obligations.DestroyedSlotsAreFound := by
  intro s t q x w hq ⟨hv, lo, hi⟩ next
  have inRange := run_le w hq hv
  obtain ⟨m', run, -, -, -, -, entries⟩ := destroyQueue_destroyed hq hv inRange
  rw [exec_of_ok (i := .destroy q) run] at next
  cases next
  have free : eValid m' x = false := by
    rw [← entryAt_valid, entries, if_pos ⟨lo, hi⟩]
  exact ⟨free, findFreeSlotUp_eq_some le_rfl (by omega) free (fun y _ _ => by omega),
    findFreeSlotBelow_eq_some (by omega) (by omega) free (fun y _ _ => by omega)⟩

end Sys2Proof.Machine
end

section
/-! Every command keeps a well-formed arena well formed and the queues' bytes in order, and INTERNAL
is out of reach (43_engine.md R230 to R235). -/

namespace Sys2Proof.Machine

/-! ### ENQ gains a byte -/

/-- `m'` is well formed, queue `q` has the byte `d` behind those it had in `m`, and every other valid
queue keeps its own (43_engine.md R231, R232). -/
def GainsByte (m m' : Memory) (q : Nat) (d : Byte) : Prop :=
  WF m' ∧ (∀ p < 64, hValid m' p = hValid m p) ∧ contents m' q = contents m q ++ [d] ∧
  ∀ p < 64, p ≠ q → hValid m p = true → contents m' p = contents m p

theorem gainsByte_of_place {m m' : Memory} {q i : Nat} {d : Byte} (w : WF m) (hq : q < 64)
    (hv : hValid m q = true) (hn : hLength m q = 0) (hi : i < 1484) (free : eValid m i = false)
    (after : Enqueued m m' q 0 i ⟨true, true, d⟩ (fun p => if p = q then i else hBase m p) id) :
    GainsByte m m' q d := by
  obtain ⟨-, count, valid, lengths, bases, entries⟩ := after
  obtain ⟨wf, gains, others⟩ :=
    wf_place w hq hv hn hi free count valid lengths bases fun x _ => entries x
  exact ⟨wf, valid, gains, others⟩

/-- FastPath is a placement at the base that stands already. -/
theorem place_at_base (m : Memory) (q : Nat) :
    (fun p => if p = q then hBase m q else hBase m p) = hBase m := by
  funext p
  split
  · next same => rw [same]
  · rfl

theorem gainsByte_of_shiftRight {m m' : Memory} {q b n i : Nat} {d : Byte} (w : WF m) (hq : q < 64)
    (hv : hValid m q = true) (hb : hBase m q = b) (hn : hLength m q = n) (positive : 0 < n)
    (ht : b + n ≤ i) (hi : i < 1484) (free : eValid m i = false)
    (occupied : ∀ x, b + n ≤ x → x < i → eValid m x = true)
    (after : Enqueued m m' q n (b + n) ⟨false, true, d⟩ (basesShiftedRight m (b + n) i)
      (sourceShiftedRight (b + n) i)) : GainsByte m m' q d := by
  obtain ⟨-, count, valid, lengths, bases, entries⟩ := after
  obtain ⟨wf, gains, others⟩ := wf_shiftRight w hq hv hb hn positive ht hi free occupied count valid
    lengths
    (fun p hp vp lp => (bases p hp).trans (if_congr (startsIn_of_pos vp lp) rfl rfl))
    (fun p hp _ empty => (bases p hp).trans (if_neg (not_startsIn_of_empty empty)))
    (fun x _ => by rw [entries, entryAt_sourceShiftedRight])
  exact ⟨wf, valid, gains, others⟩

/-- AppendDirect is a shift of an empty window. -/
theorem shiftedRight_empty (m : Memory) (tail : Nat) :
    basesShiftedRight m tail tail = hBase m ∧ sourceShiftedRight tail tail = id := by
  constructor
  · funext p
    refine if_neg fun starts => ?_
    rw [startsIn_iff] at starts
    omega
  · funext x
    exact if_neg (by omega)

theorem gainsByte_of_shiftLeft {m m' : Memory} {q b n i : Nat} {d : Byte} (w : WF m) (hq : q < 64)
    (hv : hValid m q = true) (hb : hBase m q = b) (hn : hLength m q = n) (positive : 0 < n)
    (hi : i < b) (free : eValid m i = false) (occupied : ∀ x, i < x → x < b → eValid m x = true)
    (after : Enqueued m m' q n (b + n - 1) ⟨false, true, d⟩ (basesShiftedLeft m (i + 1) (b + n))
      (sourceShiftedLeft i (b + n))) : GainsByte m m' q d := by
  obtain ⟨-, count, valid, lengths, bases, entries⟩ := after
  obtain ⟨wf, gains, others⟩ := wf_shiftLeft w hq hv hb hn positive hi free occupied count valid
    lengths
    (fun p hp vp lp => (bases p hp).trans (if_congr (startsIn_of_pos vp lp) rfl rfl))
    (fun p hp _ empty => (bases p hp).trans (if_neg (not_startsIn_of_empty empty)))
    (fun x _ => by rw [entries, entryAt_sourceShiftedLeft])
  exact ⟨wf, valid, gains, others⟩

/-- Case 2: `i` is the nearest free slot at or above the tail (43_engine.md R205). -/
theorem enqueueRight_gains {m : Memory} {q b n i : Nat} (w : WF m) (d : Byte) (hq : q < 64)
    (hv : hValid m q = true) (hb : hBase m q = b) (hn : hLength m q = n)
    (slow : ¬ takesFastPath m b n) (ht : b + n ≤ i) (hi : i < 1484) (free : eValid m i = false)
    (occupied : ∀ x, b + n ≤ x → x < i → eValid m x = true) :
    ∃ m', enqueueRight m q d n (b + n) i = .ok m' ∧ GainsByte m m' q d := by
  rcases Nat.eq_zero_or_pos n with rfl | positive
  · have shifted : i ≠ b + 0 := by
      rintro rfl
      exact slow ⟨rfl, hi, free⟩
    obtain ⟨m', run, after⟩ := relocateRight_enqueued m d hq hi
    refine ⟨m', ?_, gainsByte_of_place w hq hv hn hi free after⟩
    rw [enqueueRight_relocates _ _ _ shifted, run]
  · by_cases atTail : i = b + n
    · obtain ⟨m', run, after⟩ := appendDirect_enqueued m (n := n) (tail := i) d hq (by omega) hi
      obtain ⟨noBase, noSource⟩ := shiftedRight_empty m i
      rw [← noBase, ← noSource] at after
      subst atTail
      refine ⟨m', by rw [enqueueRight_atTail, run], ?_⟩
      exact gainsByte_of_shiftRight w hq hv hb hn positive le_rfl hi free occupied after
    · obtain ⟨m', run, after⟩ := shiftRight_enqueued w (n := n) (tail := b + n) d hq (by omega)
        (by omega) ht hi
      refine ⟨m', by rw [enqueueRight_shifts _ _ _ atTail positive, run], ?_⟩
      exact gainsByte_of_shiftRight w hq hv hb hn positive ht hi free occupied after

/-- Case 3: `i` is the nearest free slot below the base (43_engine.md R209). -/
theorem enqueueLeft_gains {m : Memory} {q b n i : Nat} (w : WF m) (d : Byte) (hq : q < 64)
    (hv : hValid m q = true) (hb : hBase m q = b) (hn : hLength m q = n) (hi : i < b)
    (free : eValid m i = false) (occupied : ∀ x, i < x → x < b → eValid m x = true) :
    ∃ m', enqueueLeft m q d n (b + n) i = .ok m' ∧ GainsByte m m' q d := by
  have runInRange := run_le w hq hv
  rw [hb, hn] at runInRange
  rcases Nat.eq_zero_or_pos n with rfl | positive
  · obtain ⟨m', run, after⟩ := relocateRight_enqueued m d hq (show i < 1484 by omega)
    refine ⟨m', ?_, gainsByte_of_place w hq hv hn (by omega) free after⟩
    rw [enqueueLeft_relocates, run]
  · obtain ⟨m', run, after⟩ := shiftLeft_enqueued w (n := n) (tail := b + n) (i := i) d hq (by omega)
      (by omega) runInRange
    refine ⟨m', by rw [enqueueLeft_shifts _ _ _ _ _ positive, run], ?_⟩
    exact gainsByte_of_shiftLeft w hq hv hb hn positive hi free occupied after

/-- All ENQ can do to a valid queue of a well-formed arena: some slot is free and the queue gains the
byte, or every slot is taken (43_engine.md R234). -/
theorem enqueueAt_cases {m : Memory} {q : Nat} (w : WF m) (d : Byte) (hq : q < 64)
    (hv : hValid m q = true) :
    ((∃ x < 1484, eValid m x = false) ∧
      ∃ m', enqueueAt m q d (hBase m q) (hLength m q) = .ok m' ∧ GainsByte m m' q d) ∨
    ((∀ x < 1484, eValid m x = true) ∧
      enqueueAt m q d (hBase m q) (hLength m q) = .error (.raise .noFreeSlot)) := by
  by_cases fast : takesFastPath m (hBase m q) (hLength m q)
  · have ⟨empty, inRange, free⟩ := fast
    obtain ⟨m', run, after⟩ := fastPath_enqueued m d hq inRange
    rw [enqueueAt_fast q d fast]
    exact .inl ⟨⟨_, inRange, free⟩, m', run,
      gainsByte_of_place w hq hv empty inRange free (by rwa [place_at_base])⟩
  · have baseInRange : hBase m q ≤ 1484 := (Nat.le_add_right _ _).trans (run_le w hq hv)
    obtain ⟨up, scanUp, above⟩ := findFreeSlotUp_spec m (hBase m q + hLength m q)
    cases up with
    | some i =>
      obtain ⟨ht, hi, free, occupied⟩ := above
      rw [enqueueAt_up q d fast scanUp]
      exact .inl ⟨⟨i, hi, free⟩,
        enqueueRight_gains w d hq hv rfl rfl fast ht hi free occupied⟩
    | none =>
      obtain ⟨down, scanDown, below⟩ := findFreeSlotBelow_spec m (hBase m q) baseInRange
      cases down with
      | some i =>
        obtain ⟨hi, free, occupied⟩ := below
        rw [enqueueAt_down q d fast scanUp scanDown]
        exact .inl ⟨⟨i, by omega, free⟩, enqueueLeft_gains w d hq hv rfl rfl hi free occupied⟩
      | none =>
        refine .inr ⟨fun x hx => ?_, enqueueAt_full q d fast scanUp scanDown⟩
        rcases lt_or_ge x (hBase m q) with left | fromBase
        · exact below x left
        · rcases lt_or_ge x (hBase m q + hLength m q) with inside | right
          · exact (w.validBits x hx).mpr ⟨q, hq, hv, fromBase, inside⟩
          · exact above x right hx

/-! ### DEQ loses a byte -/

/-- `m'` is well formed, queue `q` lost its oldest byte `v`, and every other valid queue keeps its
bytes (43_engine.md R231, R232). -/
def LosesByte (m m' : Memory) (q : Nat) (v : Byte) : Prop :=
  WF m' ∧ (∀ p < 64, hValid m' p = hValid m p) ∧ contents m q = v :: contents m' q ∧
  ∀ p < 64, p ≠ q → hValid m p = true → contents m' p = contents m p

theorem losesByte_of_dequeued {m m' : Memory} {q : Nat} (w : WF m) (hq : q < 64)
    (hv : hValid m q = true) (positive : 0 < hLength m q)
    (after : Dequeued m m' q (hBase m q) (hLength m q)) : LosesByte m m' q (eValue m (hBase m q)) := by
  obtain ⟨count, valid, lengths, bases, entries⟩ := after
  obtain ⟨wf, loses, others⟩ :=
    wf_takeFront w hq hv rfl rfl positive count valid lengths bases fun x _ => entries x
  exact ⟨wf, valid, loses, others⟩

/-- All DEQ can do to a valid queue of a well-formed arena. -/
theorem dequeueByte_cases {m : Memory} {q : Nat} (w : WF m) (hq : q < 64) (hv : hValid m q = true) :
    dequeueByte m q = .error (.raise .emptyQueue) ∨
    ∃ m' v, dequeueByte m q = .ok (m', v.toNat) ∧ LosesByte m m' q v := by
  have runInRange := run_le w hq hv
  rcases Nat.eq_zero_or_pos (hLength m q) with empty | positive
  · exact .inl (dequeueByte_empty hq hv empty)
  · rcases Nat.eq_or_lt_of_le positive with single | more
    · refine .inr ⟨_, _, dequeueByte_empties hq hv rfl single.symm (by omega),
        losesByte_of_dequeued w hq hv positive ?_⟩
      rw [← single]
      exact dequeued_emptied m hq
    · exact .inr ⟨_, _, dequeueByte_advances hq hv rfl rfl more (by omega),
        losesByte_of_dequeued w hq hv positive (dequeued_advanced m hq more (by omega) (by omega))⟩

/-! ### CREATE and DESTROY -/

theorem wf_created {m : Memory} {q f : Nat} (w : WF m) (hq : q < 64) (free : hValid m q = false)
    (hf : f ≤ 1484) : WF (m.created q f) :=
  wf_addQueue w hq free hf (countOf_created m) (fun p _ => hValid_created m p)
    (fun p _ => hLength_created m p) (fun p _ => hBase_created m hf p)
    (fun x _ => entryAt_created m hq x)

/-- CREATE moves no byte (43_engine.md R201). -/
theorem contents_created (m : Memory) {q f : Nat} (hq : q < 64) (hf : f ≤ 1484) (p : Nat) :
    contents (m.created q f) p = if p = q then [] else contents m p := by
  have value (x : Nat) : eValue (m.created q f) x = eValue m x :=
    congrArg Entry.value (entryAt_created m hq x)
  rw [contents, hLength_created, hBase_created m hf]
  split
  · rfl
  · simp only [value, contents]

theorem destroyQueue_wf {m : Memory} {q : Nat} (w : WF m) (hq : q < 64) (hv : hValid m q = true) :
    ∃ m', destroyQueue m q = .ok (m', 0) ∧ Destroyed m m' q ∧ WF m' ∧
      ∀ p < 64, p ≠ q → hValid m p = true → contents m' p = contents m p := by
  obtain ⟨m', run, after⟩ := destroyQueue_destroyed hq hv (run_le w hq hv)
  have ⟨count, valid, lengths, bases, entries⟩ := after
  exact ⟨m', run, after,
    wf_removeQueue w hq hv count valid lengths bases fun x _ => entries x⟩

/-! ### Every command -/

/-- A command on a handle raises, or the handle is that of a valid queue (43_engine.md R200). -/
theorem command_raises_or_valid {i : Instr} {q : Nat} {d : Byte} (m : Memory)
    (hi : i = .destroy q ∨ i = .enq q d ∨ i = .deq q) :
    (∃ c, command i m = .error (.raise c)) ∨ (q < 64 ∧ hValid m q = true) := by
  rcases checkHandle_cases m q with ⟨-, null⟩ | ⟨-, -, invalid⟩ | ⟨hq, hv, -⟩
  · exact .inl ⟨_, command_of_checkHandle_error hi null⟩
  · exact .inl ⟨_, command_of_checkHandle_error hi invalid⟩
  · exact .inr ⟨hq, hv⟩

/-- A command on a handle that answers has a valid queue. -/
theorem valid_of_command_ok {i : Instr} {q : Nat} {d : Byte} {m : Memory} {r : Memory × Nat}
    (hi : i = .destroy q ∨ i = .enq q d ∨ i = .deq q) (h : command i m = .ok r) :
    q < 64 ∧ hValid m q = true := by
  rcases command_raises_or_valid m hi with ⟨c, raises⟩ | valid
  · cases h.symm.trans raises
  · exact valid

/-- All a command can do to a well-formed arena: it raises, or it answers a well-formed arena; INTERNAL
is unreachable (43_engine.md R231). -/
theorem command_cases {m : Memory} (w : WF m) (i : Instr) :
    (∃ c, command i m = .error (.raise c)) ∨ ∃ m' v, command i m = .ok (m', v) ∧ WF m' := by
  cases i with
  | create =>
    rcases createQueue_cases m with full | ⟨q, hq, free, f, first, run⟩
    · exact .inl ⟨_, full⟩
    · exact .inr ⟨_, _, run, wf_created w hq free first.1⟩
  | destroy q =>
    rcases command_raises_or_valid (d := 0#8) m (.inl rfl) with raises | ⟨hq, hv⟩
    · exact .inl raises
    · obtain ⟨m', run, -, wf, -⟩ := destroyQueue_wf w hq hv
      exact .inr ⟨m', 0, run, wf⟩
  | enq q d =>
    rcases command_raises_or_valid m (.inr (.inl rfl)) with raises | ⟨hq, hv⟩
    · exact .inl raises
    · rw [command_enq d hq hv rfl rfl]
      rcases enqueueAt_cases w d hq hv with ⟨-, m', run, wf, -⟩ | ⟨-, full⟩
      · exact .inr ⟨m', 0, Engine_bind_of_ok run, wf⟩
      · exact .inl ⟨_, Engine_bind_of_error full⟩
  | deq q =>
    rcases command_raises_or_valid (d := 0#8) m (.inr (.inr rfl)) with raises | ⟨hq, hv⟩
    · exact .inl raises
    · rcases dequeueByte_cases w hq hv with empty | ⟨m', v, run, wf, -⟩
      · exact .inl ⟨_, empty⟩
      · exact .inr ⟨m', _, run, wf⟩
  | rdfield o n =>
    by_cases legal : 1 ≤ n ∧ n ≤ 24 ∧ o + n ≤ 16384
    · obtain ⟨positive, narrow, inside⟩ := legal
      exact .inr ⟨m, m.bits o n, (if_pos ((legalField_iff o n).mpr ⟨positive, narrow, inside⟩)).trans
        (Engine_bind_of_ok (fieldRead_in positive narrow inside)), w⟩
    · exact .inl ⟨_, if_neg (mt (legalField_iff o n).mp legal)⟩

theorem wf_of_command_ok {m m' : Memory} {i : Instr} {v : Nat} (w : WF m)
    (h : command i m = .ok (m', v)) : WF m' := by
  rcases command_cases w i with ⟨c, raises⟩ | ⟨m1, v1, answers, wf⟩
  · cases h.symm.trans raises
  · cases h.symm.trans answers
    exact wf

/-- Settles O51: a command that does not refuse leaves the FSM IDLE, after an error too. -/
theorem wellFormedStatesComplete : Obligations.WellFormedStatesComplete := by
  intro s i w
  rcases command_cases w i with ⟨c, raises⟩ | ⟨m, v, answers, -⟩
  · exact ⟨_, exec_of_raise raises, raiseError_fsm ..⟩
  · exact ⟨_, exec_of_ok answers, succeed_fsm ..⟩

/-! ### The queues as byte sequences -/

/-- Settles O30. -/
theorem enqAppendsToContents : Obligations.EnqAppendsToContents := by
  intro s t q d w next success
  obtain ⟨m, v, run, rfl⟩ := command_of_success next success
  obtain ⟨hq, hv⟩ := valid_of_command_ok (.inr (.inl rfl)) run
  rw [command_enq d hq hv rfl rfl] at run
  rcases enqueueAt_cases w d hq hv with ⟨-, m', answers, -, valid, gains, others⟩ | ⟨-, full⟩
  · cases run.symm.trans (Engine_bind_of_ok answers)
    exact ⟨gains, fun p hp => ⟨valid p hp, others p hp⟩⟩
  · cases run.symm.trans (Engine_bind_of_error full)

/-- Settles O31. -/
theorem deqRemovesOldest : Obligations.DeqRemovesOldest := by
  intro s t q w next success
  obtain ⟨m, v, run, rfl⟩ := command_of_success next success
  obtain ⟨hq, hv⟩ := valid_of_command_ok (d := 0#8) (.inr (.inr rfl)) run
  rcases dequeueByte_cases w hq hv with empty | ⟨m', v', answers, -, valid, loses, others⟩
  · cases run.symm.trans empty
  · cases run.symm.trans answers
    have result : (s.succeed m v'.toNat).result.toNat = v'.toNat := by
      rw [succeed_result, BitVec.toNat_ofNat, Nat.mod_eq_of_lt (byte_lt_word v')]
    exact ⟨⟨v', loses, result⟩, fun p hp => ⟨valid p hp, others p hp⟩⟩

/-- Settles O32: CREATE touches one header, DESTROY one header and one run. -/
theorem lifecycleKeepsOtherQueues : Obligations.LifecycleKeepsOtherQueues := by
  refine fun s t w success => ⟨fun next => ?_, fun q next => ?_⟩
  · obtain ⟨m, v, run, rfl⟩ := command_of_success next success
    rcases createQueue_cases s.arena with full | ⟨q, hq, free, f, first, answers⟩
    · cases run.symm.trans full
    · cases run.symm.trans answers
      refine ⟨v, hq, ?_, free, ?_, ?_, fun p _ other => ⟨?_, ?_⟩⟩
      · rw [succeed_result, BitVec.toNat_ofNat, Nat.mod_eq_of_lt (by omega)]
      · exact (hValid_created s.arena v).trans (if_pos rfl)
      · exact (contents_created s.arena hq first.1 v).trans (if_pos rfl)
      · exact (hValid_created s.arena p).trans (if_neg other)
      · exact (contents_created s.arena hq first.1 p).trans (if_neg other)
  · obtain ⟨m, v, run, rfl⟩ := command_of_success next success
    obtain ⟨hq, hv⟩ := valid_of_command_ok (d := 0#8) (.inl rfl) run
    obtain ⟨m', answers, ⟨-, valid, -⟩, -, others⟩ := destroyQueue_wf w hq hv
    cases run.symm.trans answers
    exact ⟨hv, (valid q hq).trans (if_pos rfl), fun p hp other =>
      ⟨(valid p hp).trans (if_neg other), others p hp other⟩⟩

/-! ### Capacity -/

/-- The slots of the run of `q`, none for an invalid header. -/
def runSlots (m : Memory) (q : Nat) : Finset Nat :=
  if hValid m q then Finset.Ico (hBase m q) (hBase m q + hLength m q) else ∅

theorem runSlots_of_valid {m : Memory} {q : Nat} (h : hValid m q = true) :
    runSlots m q = Finset.Ico (hBase m q) (hBase m q + hLength m q) := if_pos h

theorem runSlots_of_invalid {m : Memory} {q : Nat} (h : ¬ hValid m q = true) :
    runSlots m q = ∅ := if_neg h

theorem mem_runSlots {m : Memory} {q x : Nat} : x ∈ runSlots m q ↔ inRun m q x := by
  by_cases valid : hValid m q = true
  · rw [runSlots_of_valid valid, Finset.mem_Ico]
    exact (and_iff_right valid).symm
  · rw [runSlots_of_invalid valid]
    exact iff_of_false (Finset.notMem_empty x) fun run => valid run.1

theorem card_runSlots (m : Memory) (q : Nat) :
    (runSlots m q).card = if hValid m q then hLength m q else 0 := by
  by_cases valid : hValid m q = true
  · rw [runSlots_of_valid valid, Nat.card_Ico, Nat.add_sub_cancel_left, if_pos valid]
  · rw [runSlots_of_invalid valid, Finset.card_empty, if_neg valid]

/-- The runs of a well-formed arena are disjoint sets of slots, so their lengths add up to no more than
there are slots (43_engine.md R234). -/
theorem sum_lengths_le {m : Memory} (w : WF m) :
    ((List.range 64).map (fun q => if hValid m q then hLength m q else 0)).sum ≤ 1484 := by
  have apart : Set.PairwiseDisjoint (Finset.range 64 : Set Nat) (runSlots m) := by
    intro p hp r hr other
    refine Finset.disjoint_left.mpr fun x inP inR => ?_
    rw [mem_runSlots] at inP inR
    exact w.disjoint p (Finset.mem_range.mp hp) r (Finset.mem_range.mp hr) other x ⟨inP, inR⟩
  have inside : (Finset.range 64).biUnion (runSlots m) ⊆ Finset.range 1484 := by
    intro x hx
    obtain ⟨q, hq, inRunOfQ⟩ := Finset.mem_biUnion.mp hx
    rw [mem_runSlots] at inRunOfQ
    obtain ⟨valid, -, below⟩ := inRunOfQ
    exact Finset.mem_range.mpr (below.trans_le (run_le w (Finset.mem_range.mp hq) valid))
  calc ((List.range 64).map (fun q => if hValid m q then hLength m q else 0)).sum
      = ∑ q ∈ Finset.range 64, if hValid m q then hLength m q else 0 := rfl
    _ = ∑ q ∈ Finset.range 64, (runSlots m q).card := Finset.sum_congr rfl fun q _ => (card_runSlots m q).symm
    _ = ((Finset.range 64).biUnion (runSlots m)).card := (Finset.card_biUnion apart).symm
    _ ≤ (Finset.range 1484).card := Finset.card_le_card inside
    _ = 1484 := Finset.card_range 1484

/-- Settles O26: ENQ fails only with both searches empty and the run itself full. -/
theorem capacityIsEverySlot : Obligations.CapacityIsEverySlot := by
  refine fun s w => ⟨fun q hq hv d => ?_, sum_lengths_le w⟩
  rcases enqueueAt_cases w d hq hv with ⟨⟨x, hx, free⟩, m', run, -⟩ | ⟨taken, full⟩
  · obtain ⟨t, next, ends, -⟩ := exec_enq_succeeds hq hv rfl rfl run
    refine ⟨t, next, fun allTaken => ?_, fun _ => ends⟩
    rw [allTaken x hx] at free
    cases free
  · obtain ⟨t, next, ends⟩ := exec_enq_outOfMemory hq hv rfl rfl full
    refine ⟨t, next, fun _ => ends, fun ⟨x, hx, free⟩ => ?_⟩
    rw [taken x hx] at free
    cases free

end Sys2Proof.Machine
end

section
/-! Every step keeps a well-formed arena, and with a host in contract every step is safe
(43_engine.md R231, 10_state.md R37). -/

namespace Sys2Proof.Machine

/-! ### What a step leaves -/

theorem reset_hValid (q : Nat) : hValid State.reset.arena q = false := reset_bit _

/-- At reset no header and no slot is valid, so no clause of WF speaks of anything. -/
theorem wf_reset : WF State.reset.arena where
  counter := by simp [countOf, reset_bits, reset_hValid, List.filter_eq_nil_iff.mpr]
  runsInRange q _ valid _ := by simp [reset_hValid] at valid
  emptyBases q _ valid _ := by simp [reset_hValid] at valid
  disjoint p _ q _ _ x both := by simp [inRun, reset_hValid] at both
  validBits x _ := by simp [eValid, inRun, reset_hValid, reset_bit]
  markers x _ := by simp [eQb, startsAt, reset_hValid, reset_bit]
  lengths q _ valid := by simp [reset_hValid] at valid

/-- A host write touches neither the arena nor the events to come. -/
theorem busWrite_keeps (s : State) (a : BitVec 14) (w : Word) :
    (busWrite s a w).arena = s.arena ∧ (busWrite s a w).host = s.host := by
  by_cases cmd : a = 0#14
  · rw [cmd, busWrite_cmd]
    by_cases idle : s.fsm = .idle
    · rw [writeCmd_idle idle]
      exact ⟨rfl, rfl⟩
    · rw [writeCmd_not_idle idle]
      exact ⟨rfl, rfl⟩
  · rw [busWrite_other cmd]
    exact ⟨rfl, rfl⟩

/-- A host read touches neither the arena nor the events to come. -/
theorem busRead_keeps (s : State) (a : BitVec 14) :
    (busRead s a).arena = s.arena ∧ (busRead s a).host = s.host := by
  unfold busRead
  split
  · exact ⟨rfl, rfl⟩
  · exact ⟨rfl, rfl⟩

/-- All a step can do to the arena: keep it, reset it, or leave what a command answers. -/
theorem step_arena {s t : State} (h : step s = .next t) :
    t.arena = s.arena ∨ t.arena = State.reset.arena ∨
      ∃ i v, command i s.arena = .ok (t.arena, v) := by
  rcases step_next h with ⟨quiet, busy, -⟩ | ⟨-, -, rfl⟩ | ⟨-, rfl⟩ | ⟨a, w, -, -, rfl⟩ | ⟨a, -, -, rfl⟩
  · rcases step_busy_quiet busy quiet with ⟨i, -, run⟩ | ⟨e, -, run⟩
    · rw [run, exec_eq_finish] at h
      rcases finish_next h with ⟨m, v, answers, rfl⟩ | ⟨c, -, rfl⟩
      · exact .inr (.inr ⟨i, v, answers⟩)
      · exact .inl rfl
    · rw [run] at h
      cases h
      exact .inl rfl
  · exact .inl rfl
  · exact .inr (.inl rfl)
  · exact .inl (busWrite_keeps ..).1
  · exact .inl (busRead_keeps ..).1

/-- Every step takes one event from the list (log 1). -/
theorem step_host {s t : State} (h : step s = .next t) : t.host = s.host.tail := by
  rcases step_next h with
    ⟨-, -, ⟨m, v, rfl⟩ | ⟨c, -, rfl⟩⟩ | ⟨-, -, rfl⟩ | ⟨-, rfl⟩ | ⟨a, w, -, -, rfl⟩ | ⟨a, -, -, rfl⟩
  · rfl
  · rfl
  · rfl
  · rfl
  · exact (busWrite_keeps ..).2
  · exact (busRead_keeps ..).2

/-- Settles O53: a step keeps the arena, resets it, or runs a command on it. -/
theorem stepKeepsWellFormed : Obligations.StepKeepsWellFormed := by
  intro s t w next
  rcases step_arena next with kept | reset | ⟨i, v, answers⟩
  · rwa [kept]
  · rw [reset]
    exact wf_reset
  · exact wf_of_command_ok w answers

/-! ### A host in contract -/

theorem nextEvent_mem {s : State} (h : s.nextEvent ≠ .quiet) : s.nextEvent ∈ s.host := by
  unfold State.nextEvent at h ⊢
  cases hhost : s.host with
  | nil =>
    rw [hhost] at h
    exact absurd rfl h
  | cons e rest => exact List.mem_cons_self

theorem hostInContract_step {s t : State} (contract : hostInContract s) (h : step s = .next t) :
    hostInContract t := by
  intro e he
  rw [step_host h] at he
  exact contract e (List.mem_of_mem_tail he)

/-- A step is safe when no command of it reaches INTERNAL and its access is an aligned word. -/
theorem safeStep_of_wf {s : State} (w : WF s.arena) (contract : hostInContract s) : safeStep s := by
  cases event : s.nextEvent with
  | quiet =>
    by_cases busy : s.fsm = .busy
    · rcases step_busy_quiet busy event with ⟨i, -, run⟩ | ⟨e, -, run⟩
      · obtain ⟨t, answers, -⟩ := wellFormedStatesComplete s.beginStep i w
        exact ⟨t, run.trans answers⟩
      · exact ⟨_, run⟩
    · exact ⟨_, (step_quiet event).trans (engineTurn_not_busy (s := s.beginStep) busy)⟩
  | rst => exact ⟨_, step_rst event⟩
  | write a n data =>
    have pending : .write a n data ∈ s.host := event ▸ nextEvent_mem (by simp [event])
    have aligned : alignedWord a n = true := contract _ pending
    exact ⟨_, (step_write_cases event).trans (if_pos aligned)⟩
  | read a n =>
    have pending : .read a n ∈ s.host := event ▸ nextEvent_mem (by simp [event])
    have aligned : alignedWord a n = true := contract _ pending
    exact ⟨_, (step_read_cases event).trans (if_pos aligned)⟩

/-- Settles O52: the step is safe, and it keeps both halves of the invariant. -/
theorem contractStepsAreSafe : Obligations.ContractStepsAreSafe := by
  intro s w contract
  obtain ⟨t, next⟩ := safeStep_of_wf w contract
  exact ⟨t, next, stepKeepsWellFormed s t w next, hostInContract_step contract next⟩

end Sys2Proof.Machine
end

section
/-! What an error leaves unchanged, what a completion writes to STATUS, and where the FSM goes
(60_exceptions.md R303, R305, R307). -/

namespace Sys2Proof.Machine

/-! ### Precise errors -/

/-- Settles O33: the engine ended in `raiseError`, for `succeed` writes SUCCESS. -/
theorem errorsArePrecise : Obligations.ErrorsArePrecise := by
  intro s t busy quiet next failed
  rcases step_busy_quiet_next busy quiet next with ⟨m, v, rfl⟩ | ⟨c, -, rfl⟩
  · exact absurd (succeed_lastErr s.beginStep m v) failed
  · simp

/-! ### The sticky bits -/

/-- Every sticky bit set in `s` is set in `t`. -/
def stickyKept (s t : State) : Prop :=
  (s.stickyIllop = true → t.stickyIllop = true) ∧ (s.stickyOom = true → t.stickyOom = true) ∧
    (s.stickyOverrun = true → t.stickyOverrun = true)

theorem stickyKept_refl (s : State) : stickyKept s s := ⟨id, id, id⟩

/-- An ending sets the sticky bit of its cause's kind and touches no other. -/
theorem stickyKept_raiseError (s : State) (c : Cause) : stickyKept s (s.raiseError c) := by
  refine ⟨fun illop => ?_, fun oom => ?_, id⟩
  · simp [illop]
  · simp [oom]

theorem stickyKept_succeed (s : State) (m : Memory) (r : Nat) : stickyKept s (s.succeed m r) := by
  simp [stickyKept]

/-- A write of CMD that is not accepted sets STICKY_OVERRUN; no write clears a bit. -/
theorem stickyKept_busWrite (s : State) (a : BitVec 14) (w : Word) : stickyKept s (busWrite s a w) := by
  by_cases cmd : a = 0#14
  · rw [cmd, busWrite_cmd]
    by_cases idle : s.fsm = .idle
    · rw [writeCmd_idle idle]
      exact stickyKept_refl s
    · rw [writeCmd_not_idle idle]
      exact ⟨id, id, fun _ => rfl⟩
  · rw [busWrite_other cmd]
    exact stickyKept_refl s

theorem stickyKept_busRead (s : State) (a : BitVec 14) : stickyKept s (busRead s a) := by
  unfold busRead
  split
  · exact stickyKept_refl s
  · exact stickyKept_refl s

/-- No step but a reset clears a sticky bit: the start of a step has the bits of the state before it,
and no ending and no bus access clears one. -/
theorem step_stickyKept {s t : State} (noReset : s.nextEvent ≠ .rst) (h : step s = .next t) :
    stickyKept s t := by
  rcases step_next h with ⟨-, -, ⟨m, v, rfl⟩ | ⟨c, -, rfl⟩⟩ | ⟨-, -, rfl⟩ | ⟨rst, -⟩ |
    ⟨a, w, -, -, rfl⟩ | ⟨a, -, -, rfl⟩
  · exact stickyKept_succeed s.beginStep m v
  · exact stickyKept_raiseError s.beginStep c
  · exact stickyKept_refl s
  · exact absurd rst noReset
  · exact stickyKept_busWrite s.beginStep a w
  · exact stickyKept_busRead s.beginStep a

/-! ### STATUS at completion -/

/-- The causes of IllegalOperation are numbered 1 to 7 (60_exceptions.md R301). -/
theorem code_of_kind_illegalOperation {c : Cause} (h : c.kind = .illegalOperation) :
    1 ≤ c.code ∧ c.code ≤ 7 := by
  cases c with
  | none => cases h
  | noFreeSlot => cases h
  | noFreeHeader | nullHandle | invalidHandle | emptyQueue | reservedOpcode | reservedBits | badField =>
    decide

/-- Settles O37: the kind of the cause decides which of the two sticky bits an error sets. -/
theorem statusAtCompletion : Obligations.StatusAtCompletion := by
  refine ⟨fun s t busy quiet next => ?_, fun s t => step_stickyKept⟩
  rcases step_busy_quiet_next busy quiet next with ⟨m, v, rfl⟩ | ⟨c, raised, rfl⟩
  · exact .inl (by simp [ErrKind.code, Cause.code])
  · cases kind : c.kind with
    | success => exact absurd ((kind_success_iff c).mp kind) raised
    | illegalOperation =>
      obtain ⟨low, high⟩ := code_of_kind_illegalOperation kind
      exact .inr (.inl (by simp [kind, ErrKind.code, low, high]))
    | outOfMemory =>
      obtain rfl := (kind_oom_iff c).mp kind
      exact .inr (.inr (by simp [ErrKind.code, Cause.code]))

/-! ### The FSM after a completion -/

/-- A completion leaves BUSY for IDLE, with an error as without one (ON_ERROR = RESUME, log 21). -/
theorem step_completion_idle {s t : State} (busy : s.fsm = .busy) (quiet : s.nextEvent = .quiet)
    (h : step s = .next t) : t.fsm = .idle := by
  rcases step_busy_quiet_next busy quiet h with ⟨m, v, rfl⟩ | ⟨c, -, rfl⟩
  · exact succeed_fsm s.beginStep m v
  · exact raiseError_fsm s.beginStep c

/-- Settles O38: HALTED is not IDLE, so a CMD write is the ignored one of O42. -/
theorem engineResumesAfterError : Obligations.EngineResumesAfterError := by
  refine ⟨rfl, rfl, fun s t => step_completion_idle, fun s w rest halted pending => ?_⟩
  obtain ⟨-, ignored⟩ := (cmdWriteStartsCommand s w rest).1 pending
  have notIdle : s.fsm ≠ .idle := by simp [halted]
  exact ⟨_, ignored notIdle, halted, rfl, rfl⟩

end Sys2Proof.Machine
end

section
/-! The reset state, what `rst` does in any state, and that a bus access leaves a block that is not
IDLE as it is, but for STICKY_OVERRUN and the word read (70_reset_and_hazards.md R400 to R412). -/

namespace Sys2Proof.Machine

/-! ### Accesses outside IDLE -/

/-- A block that is not IDLE takes no write, but a write of CMD can set STICKY_OVERRUN (R410). -/
theorem busWrite_not_idle {s : State} (notIdle : s.fsm ≠ .idle) (a : BitVec 14) (w : Word) :
    ∃ overrun, busWrite s a w = { s with stickyOverrun := overrun } := by
  by_cases cmd : a = 0#14
  · rw [cmd, busWrite_cmd, writeCmd_not_idle notIdle]
    exact ⟨_, rfl⟩
  · exact ⟨_, busWrite_other cmd s w⟩

/-- A read puts its word on the bus, and a BUSY one of the ARENA window takes a draw (R412). -/
theorem busRead_effect (s : State) (a : BitVec 14) :
    ∃ word draws, busRead s a = { s with busRdata := word, draws := draws } := by
  unfold busRead
  split
  · exact ⟨_, _, rfl⟩
  · exact ⟨_, _, rfl⟩

/-- All an access can do to a block that is not IDLE (R410 to R412). -/
theorem step_access_not_idle {s t : State} (notIdle : s.fsm ≠ .idle)
    (access : s.nextEvent ≠ .quiet) (noReset : s.nextEvent ≠ .rst) (h : step s = .next t) :
    ∃ overrun word draws,
      t = { s.beginStep with stickyOverrun := overrun, busRdata := word, draws := draws } := by
  rcases step_next h with ⟨quiet, -⟩ | ⟨quiet, -⟩ | ⟨rst, -⟩ | ⟨a, w, -, -, rfl⟩ | ⟨a, -, -, rfl⟩
  · exact absurd quiet access
  · exact absurd quiet access
  · exact absurd rst noReset
  · obtain ⟨overrun, effect⟩ := busWrite_not_idle (s := s.beginStep) notIdle a w
    exact ⟨overrun, _, _, effect⟩
  · obtain ⟨word, draws, effect⟩ := busRead_effect s.beginStep a
    exact ⟨_, word, draws, effect⟩

/-- Only `rst` leaves HALTED: the engine does nothing there, and an access keeps the FSM (R400). -/
theorem step_stays_halted {s t : State} (halted : s.fsm = .halted) (noReset : s.nextEvent ≠ .rst)
    (h : step s = .next t) : t.fsm = .halted := by
  by_cases quiet : s.nextEvent = .quiet
  · have notBusy : s.beginStep.fsm ≠ .busy := by simp [halted]
    rw [step_quiet quiet, engineTurn_not_busy notBusy] at h
    cases h
    exact halted
  · obtain ⟨_, _, _, rfl⟩ := step_access_not_idle (by simp [halted]) quiet noReset h
    exact halted

/-! ### The obligations -/

/-- Settles O40: every bit of the reset arena is 0. -/
theorem resetIsWellFormed : Obligations.ResetIsWellFormed :=
  ⟨wf_reset, reset_bits _ _, fun q _ => reset_hValid q, fun _ _ => ⟨reset_bit _, reset_bit _⟩⟩

/-- Settles O41: a step with `rst` is `applyReset` whatever the FSM; every other step keeps the
sticky bits and HALTED. -/
theorem rstResetsEverything : Obligations.RstResetsEverything := by
  refine ⟨fun s rest pending => ?_, fun s t noReset next => ?_⟩
  · have hostTail : s.beginStep.applyReset.host = rest := congrArg List.tail pending
    exact ⟨_, step_rst (nextEvent_of_host pending), rfl, rfl, rfl, rfl, rfl, rfl, rfl, rfl, hostTail⟩
  · obtain ⟨illop, oom, overrun⟩ := step_stickyKept noReset next
    exact ⟨illop, oom, overrun, fun halted => step_stays_halted halted noReset next⟩

/-- Settles O48: a BUSY block is not IDLE, and what an access may change is none of these fields. -/
theorem accessesWhileBusyKeepCommand : Obligations.AccessesWhileBusyKeepCommand := by
  intro s t busy access noReset next
  obtain ⟨_, _, _, rfl⟩ := step_access_not_idle (by simp [busy]) access noReset next
  exact ⟨busy, rfl, rfl, rfl, rfl, rfl, rfl, rfl, rfl⟩

end Sys2Proof.Machine
end

section
/-! Every step keeps the canonical form of the arena, its addresses and its pad bits
(10_state.md R20, R25; 20_memory.md R62; the form is log 8). -/

namespace Sys2Proof.Machine

/-! ### Engine computations that keep the form -/

/-- Wherever `x` answers, the arena in its answer has the form of `m`. -/
def AnswersForm {α : Type} (arena : α → Memory) (m : Memory) (x : Engine α) : Prop :=
  ∀ a, x = .ok a → KeepsForm m (arena a)

section
variable {α β : Type} {arena : α → Memory} {m : Memory}

theorem answersForm_ok {a : α} (h : KeepsForm m (arena a)) : AnswersForm arena m (.ok a) := by
  intro b answers
  cases answers
  exact h

theorem answersForm_error (e : Stop) : AnswersForm arena m (.error e) :=
  fun _ answers => nomatch answers

theorem answersForm_ite {p : Prop} [Decidable p] {x y : Engine α} (hx : AnswersForm arena m x)
    (hy : AnswersForm arena m y) : AnswersForm arena m (if p then x else y) := by
  split
  · exact hx
  · exact hy

/-- A read in front of a computation on the same arena. -/
theorem answersForm_read {x : Engine β} {f : β → Engine α} (h : ∀ b, AnswersForm arena m (f b)) :
    AnswersForm arena m (x >>= f) := by
  intro a answers
  obtain ⟨b, -, rest⟩ := Engine_bind_ok answers
  exact h b a rest

/-- A write in front of a computation on the arena it leaves. -/
theorem answersForm_write {x : Engine Memory} {f : Memory → Engine α} (hx : AnswersForm id m x)
    (hf : ∀ m1, AnswersForm arena m1 (f m1)) : AnswersForm arena m (x >>= f) := by
  intro a answers
  obtain ⟨m1, write, rest⟩ := Engine_bind_ok answers
  exact (hx m1 write).trans (hf m1 a rest)

end

/-! ### The writes of the records -/

theorem answersForm_setValid (m : Memory) (q : Nat) (v : Bool) : AnswersForm id m (setValid m q v) := by
  intro m' answers
  obtain ⟨hq, rfl⟩ := setValid_ok answers
  exact keepsForm_withValid m hq v

theorem answersForm_setBase (m : Memory) (q b : Nat) : AnswersForm id m (setBase m q b) := by
  intro m' answers
  obtain ⟨hq, rfl⟩ := setBase_ok answers
  exact keepsForm_withBase m hq b

theorem answersForm_setLength (m : Memory) (q n : Nat) : AnswersForm id m (setLength m q n) := by
  intro m' answers
  obtain ⟨hq, rfl⟩ := setLength_ok answers
  exact keepsForm_withLength m hq n

theorem answersForm_writeEntry (m : Memory) (x : Nat) (e : Entry) :
    AnswersForm id m (writeEntry m x e) := by
  intro m' answers
  obtain ⟨hx, rfl⟩ := writeEntry_ok answers
  exact keepsForm_withEntry m hx e

theorem answersForm_setEntryValid (m : Memory) (x : Nat) (b : Bool) :
    AnswersForm id m (setEntryValid m x b) := by
  intro m' answers
  obtain ⟨hx, rfl⟩ := setEntryValid_ok answers
  exact keepsForm_withEntryValid m hx b

theorem answersForm_setEntryBase (m : Memory) (x : Nat) (b : Bool) :
    AnswersForm id m (setEntryBase m x b) := by
  intro m' answers
  obtain ⟨hx, rfl⟩ := setEntryBase_ok answers
  exact keepsForm_withEntryBase m hx b

theorem answersForm_incrementCount (m : Memory) : AnswersForm id m (incrementCount m) := by
  rw [incrementCount_eq]
  exact answersForm_ok (keepsForm_withCount m _)

theorem answersForm_decrementCount (m : Memory) : AnswersForm id m (decrementCount m) := by
  rw [decrementCount_eq]
  exact answersForm_ok (keepsForm_withCount m _)

/-! ### The cases of ENQ -/

/-- The writes of FastPath and AppendDirect: an entry and the length (43_engine.md R204, R206). -/
theorem answersForm_place (m : Memory) (q n x : Nat) (e : Entry) :
    AnswersForm id m (writeEntry m x e >>= fun m1 => setLength m1 q n) :=
  answersForm_write (answersForm_writeEntry m x e) fun _ => answersForm_setLength _ _ _

/-- RelocateRight, and RelocateLeft with it (43_engine.md R207, R210). -/
theorem answersForm_relocate (m : Memory) (q : Nat) (d : Byte) (i : Nat) :
    AnswersForm id m (relocateRight m q d i) :=
  answersForm_write (answersForm_writeEntry m i _) fun _ =>
    answersForm_write (answersForm_setBase _ _ _) fun _ => answersForm_setLength _ _ _

theorem answersForm_enqueueRight (m : Memory) (q : Nat) (d : Byte) (n tail i : Nat) :
    AnswersForm id m (enqueueRight m q d n tail i) :=
  answersForm_ite (answersForm_place m q _ _ _)
    (answersForm_ite (answersForm_relocate m q d i)
      (answersForm_write (fun _ => shiftRightLoop_keepsForm) fun m1 => answersForm_place m1 q _ _ _))

theorem answersForm_enqueueLeft (m : Memory) (q : Nat) (d : Byte) (n tail i : Nat) :
    AnswersForm id m (enqueueLeft m q d n tail i) :=
  answersForm_ite (answersForm_relocate m q d i)
    (answersForm_write (fun _ => shiftLeftLoop_keepsForm) fun m1 => answersForm_place m1 q _ _ _)

theorem answersForm_enqueueAt (m : Memory) (q : Nat) (d : Byte) (b n : Nat) :
    AnswersForm id m (enqueueAt m q d b n) := by
  refine answersForm_read fun fast => answersForm_ite (answersForm_place m q _ _ _)
    (answersForm_read fun up => ?_)
  cases up with
  | some i => exact answersForm_enqueueRight m q d n _ i
  | none =>
    refine answersForm_read fun down => ?_
    cases down with
    | some i => exact answersForm_enqueueLeft m q d n _ i
    | none => exact answersForm_error _

/-! ### The commands -/

theorem answersForm_createQueue (m : Memory) : AnswersForm Prod.fst m (createQueue m) := by
  refine answersForm_read fun header => ?_
  cases header with
  | none => exact answersForm_error _
  | some q =>
    exact answersForm_write (answersForm_setValid _ _ _) fun _ =>
      answersForm_write (answersForm_incrementCount _) fun _ => answersForm_read fun _ =>
      answersForm_write (answersForm_setBase _ _ _) fun _ =>
      answersForm_write (answersForm_setLength _ _ _) fun m4 => answersForm_ok (KeepsForm.refl m4)

theorem answersForm_destroyQueue (m : Memory) (q : Nat) :
    AnswersForm Prod.fst m (destroyQueue m q) :=
  answersForm_read fun _ => answersForm_read fun _ => answersForm_read fun _ =>
    answersForm_write (fun _ => freeRun_keepsForm) fun _ =>
    answersForm_write (answersForm_setLength _ _ _) fun _ =>
    answersForm_write (answersForm_setBase _ _ _) fun _ =>
    answersForm_write (answersForm_setValid _ _ _) fun _ =>
    answersForm_write (answersForm_decrementCount _) fun m5 => answersForm_ok (KeepsForm.refl m5)

theorem answersForm_enqueueByte (m : Memory) (q : Nat) (d : Byte) :
    AnswersForm Prod.fst m (enqueueByte m q d) :=
  answersForm_read fun _ => answersForm_read fun _ => answersForm_read fun _ =>
    answersForm_write (answersForm_enqueueAt m q d _ _) fun m1 => answersForm_ok (KeepsForm.refl m1)

theorem answersForm_advanceBase (m : Memory) (q b n : Nat) :
    AnswersForm id m (advanceBase m q b n) :=
  answersForm_ite
    (answersForm_write (answersForm_setBase _ _ _) fun _ => answersForm_setEntryBase _ _ _)
    (answersForm_setBase _ _ _)

theorem answersForm_dequeueByte (m : Memory) (q : Nat) :
    AnswersForm Prod.fst m (dequeueByte m q) :=
  answersForm_read fun _ => answersForm_read fun _ => answersForm_read fun _ =>
    answersForm_ite (answersForm_error _) (answersForm_read fun _ =>
      answersForm_write (answersForm_setEntryValid _ _ _) fun _ =>
      answersForm_write (answersForm_setEntryBase _ _ _) fun _ =>
      answersForm_write (answersForm_advanceBase _ _ _ _) fun _ =>
      answersForm_write (answersForm_setLength _ _ _) fun m4 => answersForm_ok (KeepsForm.refl m4))

theorem answersForm_rdfield (m : Memory) (o w : Nat) : AnswersForm Prod.fst m (rdfield m o w) :=
  answersForm_ite (answersForm_read fun _ => answersForm_ok (KeepsForm.refl m))
    (answersForm_error _)

/-- Every command keeps the form of any arena, one that is not well formed too. -/
theorem keepsForm_of_command_ok {i : Instr} {m m' : Memory} {v : Nat}
    (h : command i m = .ok (m', v)) : KeepsForm m m' := by
  have form : AnswersForm Prod.fst m (command i m) := by
    cases i with
    | create => exact answersForm_createQueue m
    | destroy q => exact answersForm_destroyQueue m q
    | enq q d => exact answersForm_enqueueByte m q d
    | deq q => exact answersForm_dequeueByte m q
    | rdfield o w => exact answersForm_rdfield m o w
  exact form _ h

/-! ### The obligations -/

theorem reset_form : State.reset.arena.wf ∧ State.reset.arena.inArena ∧ padsClear State.reset.arena :=
  ⟨⟨List.Pairwise.nil, fun _ listed => absurd listed List.not_mem_nil⟩,
    fun _ listed => absurd listed List.not_mem_nil, fun _ _ => reset_bit _⟩

/-- Settles O54: a step keeps the arena, resets it, or runs a command on it. -/
theorem stepKeepsArenaForm : Obligations.StepKeepsArenaForm := by
  rintro s t ⟨wf, inArena, pads⟩ next
  rcases step_arena next with kept | reset | ⟨i, v, answers⟩
  · rw [kept]
    exact ⟨wf, inArena, pads⟩
  · rw [reset]
    exact reset_form
  · have form := keepsForm_of_command_ok answers
    exact ⟨form.wf wf, form.inArena inArena, fun q hq => (form.pad q hq).trans (pads q hq)⟩

theorem reset_statusConsistent : StatusConsistent State.reset where
  kind := rfl
  illopSticks h := nomatch h
  oomSticks h := nomatch h
  illopLogged h := nomatch h
  oomLogged h := nomatch h
  logIllop _ listed := absurd listed List.not_mem_nil
  logOom _ listed := absurd listed List.not_mem_nil
  notBoth h := nomatch h.1
  pulseIllop h := nomatch h
  pulseOom h := nomatch h
  notHalted h := nomatch h

/-- Settles O56: at reset nothing is listed, no sticky bit is set and no event is to come. -/
theorem resetHasInvariants : Obligations.ResetHasInvariants := by
  obtain ⟨wf, inArena, pads⟩ := reset_form
  exact ⟨wf, inArena, pads, reset_statusConsistent,
    fun _ pending => absurd pending List.not_mem_nil⟩

end Sys2Proof.Machine
end

section
/-! DESTROY as a whole: the records and the frame of a queue whose run is in range, or that is empty
(43_engine.md R202). -/

namespace Sys2Proof.Machine

/-- DESTROY of an empty queue frees no slot, so it answers whatever the base is (43_engine.md R202). -/
theorem destroyQueue_empty {m : Memory} {q : Nat} (hq : q < 64) (hv : hValid m q = true)
    (empty : hLength m q = 0) : ∃ m', destroyQueue m q = .ok (m', 0) ∧ Destroyed m m' q := by
  have noRun : freeRun m (hBase m q) (hLength m q) (hBase m q) = .ok m := by
    rw [empty, freeRun]
  refine ⟨_, (Engine_bind_of_ok (checkHandle_valid hq hv)).trans
    ((Engine_bind_of_ok (getBase_eq m hq)).trans ((Engine_bind_of_ok (getLength_eq m hq)).trans
    ((Engine_bind_of_ok noRun).trans ((Engine_bind_of_ok (setLength_eq m hq 0)).trans
    ((Engine_bind_of_ok (setBase_eq _ hq 1484)).trans ((Engine_bind_of_ok
    (setValid_eq _ hq false)).trans (Engine_bind_of_ok (decrementCount_eq _)))))))),
    by simp, fun p _ => by simp [hValid_withValid], fun p _ => by simp [hLength_withLength],
    fun p _ => by simp [hBase_withBase], fun x => ?_⟩
  rw [entryAt_withCount, entryAt_withValid _ _ hq, entryAt_withBase _ _ hq,
    entryAt_withLength _ _ hq, if_neg (by omega)]

/-- DESTROY of a valid queue answers when every slot of its run exists (43_engine.md R202). -/
theorem destroyQueue_answers {m : Memory} {q : Nat} (hq : q < 64) (hv : hValid m q = true)
    (run : hLength m q = 0 ∨ hBase m q + hLength m q ≤ 1484) :
    ∃ m', destroyQueue m q = .ok (m', 0) ∧ Destroyed m m' q :=
  run.elim (destroyQueue_empty hq hv) (destroyQueue_destroyed hq hv)

theorem bit_eq_of_eValue {m m' : Memory} {x k : Nat} (h : eValue m' x = eValue m x)
    (lo : 1546 + 10 * x ≤ k) (hi : k < 1554 + 10 * x) : m'.bit k = m.bit k := by
  have value := congrArg BitVec.toNat h
  simp only [eValue, BitVec.toNat_ofNat, Nat.mod_eq_of_lt (bits_lt _ _ 8)] at value
  exact bit_eq_of_bits_eq value lo (by omega)

/-- DESTROY writes the counter, the header and the flags of the run (43_engine.md R202). -/
theorem sameOutside_of_destroyed {m m' : Memory} {q : Nat} (form : KeepsForm m m')
    (after : Destroyed m m' q) : sameOutside m m' (fun k => k < 8 ∨ headerBit q k ∨
      ∃ x, hBase m q ≤ x ∧ x < hBase m q + hLength m q ∧ entryFlagBit x k) := by
  obtain ⟨-, valids, lengths, bases, entries⟩ := after
  refine sameOutside_of_bits fun k outside => ?_
  have other {p : Nat} (field : 8 + 24 * p ≤ k ∧ k < 31 + 24 * p) : p ≠ q := by
    rintro rfl
    exact outside (.inr (.inl field))
  rcases bit_place k with counter | ⟨p, hp, rfl | inBase | inLength | rfl⟩ | ⟨x, hx, inEntry⟩ | beyond
  · exact absurd (.inl counter) outside
  · exact (valids p hp).trans (if_neg (other (by omega)))
  · have ⟨lo, hi⟩ := inBase
    exact bit_eq_of_hBase ((bases p hp).trans (if_neg (other (by omega)))) inBase
  · have ⟨lo, hi⟩ := inLength
    exact bit_eq_of_hLength ((lengths p hp).trans (if_neg (other (by omega)))) inLength
  · exact form.pad p hp
  · by_cases inRun : hBase m q ≤ x ∧ x < hBase m q + hLength m q
    · have ⟨lo, hi⟩ := inRun
      have value : eValue m' x = eValue m x := by
        rw [← entryAt_value, entries, if_pos inRun]
      have noFlag : ¬ k < 1546 + 10 * x := fun flag =>
        outside (.inr (.inr ⟨x, lo, hi, inEntry.1, flag⟩))
      exact bit_eq_of_eValue value (by omega) inEntry.2
    · exact bit_eq_of_entryAt ((entries x).trans (if_neg inRun)) inEntry
  · exact form.beyond k beyond

/-- Settles O16: the loop frees the run, and the header is closed behind it. -/
theorem destroyFreesTheRun : Obligations.DestroyFreesTheRun := by
  rintro s q b n hq hv rfl rfl inRange
  obtain ⟨m', run, after⟩ := destroyQueue_answers hq hv inRange
  have frame := sameOutside_of_destroyed (keepsForm_of_command_ok (i := .destroy q) run) after
  obtain ⟨count, valids, lengths, bases, entries⟩ := after
  obtain ⟨t, next, ends, rfl⟩ := exec_succeeds (i := .destroy q) run (by decide)
  refine ⟨t, next, ends, (valids q hq).trans (if_pos rfl), (bases q hq).trans (if_pos rfl),
    (lengths q hq).trans (if_pos rfl), count, fun x lo hi => ?_, frame⟩
  have freed := (entries x).trans (if_pos ⟨lo, hi⟩)
  exact ⟨congrArg Entry.valid freed, congrArg Entry.value freed, congrArg Entry.qb freed⟩

end Sys2Proof.Machine
end

section
/-! The hook outputs and their history: one event at an error's completion, none elsewhere
(60_exceptions.md R304; log 5). -/

namespace Sys2Proof.Machine

/-- Settles O34: the ending's cause decides the one event, by its kind. -/
theorem oneHookEventPerError : Obligations.OneHookEventPerError := by
  intro s t busy quiet next
  rcases step_busy_quiet_next busy quiet next with ⟨m, v, rfl⟩ | ⟨c, raised, rfl⟩
  · exact .inl (by simp)
  · cases kind : c.kind with
    | success => exact absurd ((kind_success_iff c).mp kind) raised
    | illegalOperation => exact .inr (.inl (by simp [kind, hookEvents]))
    | outOfMemory => exact .inr (.inr (by simp [kind, hookEvents]))

/-- All a host write can change (10_state.md R29). -/
theorem busWrite_effect (s : State) (a : BitVec 14) (w : Word) : ∃ word fsm overrun,
    busWrite s a w = { s with cmdbuf := word, fsm := fsm, stickyOverrun := overrun } := by
  by_cases idle : s.fsm = .idle
  · by_cases cmd : a = 0#14
    · rw [cmd, busWrite_cmd, writeCmd_idle idle]
      exact ⟨_, _, _, rfl⟩
    · exact ⟨_, _, _, busWrite_other cmd s w⟩
  · obtain ⟨overrun, effect⟩ := busWrite_not_idle idle a w
    exact ⟨_, _, overrun, effect⟩

/-- Settles O35: the start of a step lowers both outputs, and only a completion raises one. -/
theorem noHookEventElsewhere : Obligations.NoHookEventElsewhere := by
  intro s t noCompletion next
  rcases step_next next with
    ⟨quiet, busy, -⟩ | ⟨-, -, rfl⟩ | ⟨-, rfl⟩ | ⟨a, w, -, -, rfl⟩ | ⟨a, -, -, rfl⟩
  · exact (noCompletion.elim (· busy) (· quiet)).elim
  · exact ⟨rfl, rfl, rfl⟩
  · exact ⟨rfl, rfl, rfl⟩
  · obtain ⟨_, _, _, effect⟩ := busWrite_effect s.beginStep a w
    rw [effect]
    exact ⟨rfl, rfl, rfl⟩
  · obtain ⟨_, _, effect⟩ := busRead_effect s.beginStep a
    rw [effect]
    exact ⟨rfl, rfl, rfl⟩

end Sys2Proof.Machine
end

section
/-! The ARENA window, the command of a quiet step, and the host's issue sequence (10_state.md R35,
R38; 30_encoding.md R109, R112). -/

namespace Sys2Proof.Machine

/-! ### The ARENA window -/

/-- The bus offset of ARENA[k] (10_state.md R28). -/
theorem toNat_windowOffset {k : Nat} (hk : k < 2048) :
    (BitVec.ofNat 14 (0x1000 + 4 * k)).toNat = 0x1000 + 4 * k := by
  rw [BitVec.toNat_ofNat, Nat.mod_eq_of_lt (by omega)]

theorem inWindow_windowOffset {k : Nat} (hk : k < 2048) :
    inWindow (BitVec.ofNat 14 (0x1000 + 4 * k)) = true := by
  simp only [inWindow, toNat_windowOffset hk, Bool.and_eq_true, decide_eq_true_eq]
  omega

theorem windowOffset_aligned {k : Nat} (hk : k < 2048) :
    (BitVec.ofNat 14 (0x1000 + 4 * k)).toNat % 4 = 0 := by
  rw [toNat_windowOffset hk]
  omega

theorem readRegister_window (s : State) {k : Nat} (hk : k < 2048) :
    readRegister s (BitVec.ofNat 14 (0x1000 + 4 * k)) = (s.arena.read k).setWidth 32 := by
  have index : (0x1000 + 4 * k - 0x1000) / 4 = k := by omega
  unfold readRegister
  rw [inWindow_windowOffset hk, toNat_windowOffset hk, index]
  iterate 6 rw [if_neg (by omega)]
  rfl

theorem busRead_window_not_busy {s : State} (notBusy : s.fsm ≠ .busy) {a : BitVec 14}
    (window : inWindow a = true) : busRead s a = { s with busRdata := readRegister s a } := by
  simp [busRead, window, State.busy, notBusy]

theorem busRead_window_busy {s : State} (busy : s.fsm = .busy) {a : BitVec 14}
    (window : inWindow a = true) : busRead s a = drawRead s := by
  simp [busRead, window, State.busy, busy]

/-- Settles O45: an offset of the window is aligned and is not CMD, and BUSY decides what a read
answers. -/
theorem arenaWindowReads : Obligations.ArenaWindowReads := by
  intro s k rest hk
  have window := inWindow_windowOffset hk
  have aligned := windowOffset_aligned hk
  have value := readRegister_window s.beginStep hk
  have notCmd : BitVec.ofNat 14 (0x1000 + 4 * k) ≠ 0#14 := by
    rw [BitVec.toNat_ne, toNat_windowOffset hk, BitVec.toNat_zero]
    omega
  refine ⟨fun pending => ?_, fun w pending => ?_⟩
  · rw [step_read (nextEvent_of_host pending) aligned]
    refine ⟨fun notBusy => ?_, fun busy => ?_⟩
    · rw [busRead_window_not_busy (s := s.beginStep) notBusy window, value]
      rfl
    · rw [busRead_window_busy (s := s.beginStep) busy window]
      rfl
  · exact otherWritesAreIgnored s _ w rest aligned notCmd pending

/-! ### The command of a quiet step -/

theorem step_runs_decoded {s : State} {i : Instr} (busy : s.fsm = .busy) (quiet : s.nextEvent = .quiet)
    (decodes : decode s.cmdbuf = .ok i) : step s = exec i s.beginStep := by
  rw [step_quiet quiet, engineTurn_command (s := s.beginStep) busy decodes]

/-- A row of the opcode table that fills the command word is that word. -/
theorem tableWord_32 {w : Nat} (hw : w < 2 ^ 32) : tableWord 32 w = BitVec.ofNat 32 w := by
  rw [tableWord, Nat.mod_eq_of_lt hw]

theorem withFetchWord_beginStep (s : State) {w : Nat} (hw : w < 2 ^ 32) :
    (s.withFetchWord 32 w).beginStep =
      { s with cmdbuf := BitVec.ofNat 32 w, fsm := .busy, hookIllop := false, hookOom := false } := by
  rw [← tableWord_32 hw]
  rfl

/-- Settles O50: `withFetchWord` makes a BUSY state whose next event is `quiet`. -/
theorem stepRunsDecodedCommand : Obligations.StepRunsDecodedCommand := by
  refine ⟨fun s i => step_runs_decoded, fun s w i hw decodes => ?_⟩
  have fetched : decode (s.withFetchWord 32 w).cmdbuf = .ok i := by
    rw [withFetchWord_cmdbuf, tableWord_32 hw, decodes]
  rw [step_runs_decoded (withFetchWord_fsm s 32 w) rfl fetched, withFetchWord_beginStep s hw]

/-! ### The issue sequence -/

/-- Settles O49: O42 accepts the write, the quiet step completes the command, and O43 answers the two
reads, which change nothing but the word on the bus. -/
theorem issueSequenceReadsOutcome : Obligations.IssueSequenceReadsOutcome := by
  intro s w rest idle pending
  obtain ⟨accepted, -⟩ := (cmdWriteStartsCommand s w _).1 pending
  have hostAfterWrite : s.beginStep.host =
      .quiet :: .read 0x0004#14 4 :: .read 0x0008#14 4 :: rest := congrArg List.tail pending
  refine ⟨_, accepted idle, rfl, rfl, rfl, fun b completes => ?_⟩
  have quiet : State.nextEvent { s.beginStep with cmdbuf := w, fsm := .busy } = .quiet :=
    nextEvent_of_host hostAfterWrite
  have idleAgain : b.fsm = .idle := step_completion_idle rfl quiet completes
  have hostAfterCommand : b.host = .read 0x0004#14 4 :: .read 0x0008#14 4 :: rest :=
    (step_host completes).trans (congrArg List.tail hostAfterWrite)
  have hostAfterStatus : b.beginStep.host = .read 0x0008#14 4 :: rest :=
    congrArg List.tail hostAfterCommand
  obtain ⟨-, -, -, readStatus, -, -⟩ := registerReadsAnswer b _ _ hostAfterCommand
  obtain ⟨-, -, -, -, readResult, -⟩ :=
    registerReadsAnswer { b.beginStep with busRdata := b.status } _ _ hostAfterStatus
  obtain ⟨busyBit, -⟩ := statusWordLayout b
  have notBusy : b.status.getLsbD 0 = false := by rw [busyBit, idleAgain, decide_eq_false (by decide)]
  exact ⟨_, _, readStatus rfl, readResult rfl, rfl, notBusy, rfl, rfl, idleAgain,
    congrArg List.tail hostAfterStatus⟩

end Sys2Proof.Machine
end

section
/-! INTERNAL: the codec, the entry store and the header table out of range (40_codec.md R132,
42_entry_store.md R178, 60_exceptions.md R312; 93_implementation_defined.md K3). -/

namespace Sys2Proof.Machine

theorem inDomain_eq_false {o w : Nat} (out : w = 0 ∨ 24 < w ∨ 16384 < o + w) :
    inDomain o w = false := by
  rw [← Bool.not_eq_true, inDomain_iff]
  omega

theorem fieldRead_out {o w : Nat} (out : w = 0 ∨ 24 < w ∨ 16384 < o + w) (m : Memory) :
    fieldRead m o w = .error .internal := by
  rw [fieldRead, inDomain_eq_false out, if_neg Bool.false_ne_true]

theorem fieldWrite_out {o w : Nat} (out : w = 0 ∨ 24 < w ∨ 16384 < o + w) (m : Memory) (v : Nat) :
    fieldWrite m o w v = .error .internal := by
  rw [fieldWrite, inDomain_eq_false out, if_neg Bool.false_ne_true]

section
variable {x : Nat} (out : 1484 ≤ x) (m : Memory)
include out

theorem writeEntry_ge (e : Entry) : writeEntry m x e = .error .internal :=
  Engine_bind_of_error (checkSlot_ge out)

theorem setEntryValid_ge (b : Bool) : setEntryValid m x b = .error .internal :=
  Engine_bind_of_error (checkSlot_ge out)

theorem setEntryBase_ge (b : Bool) : setEntryBase m x b = .error .internal :=
  Engine_bind_of_error (checkSlot_ge out)

theorem copyEntry_source_ge (dst : Nat) : copyEntry m x dst = .error .internal :=
  Engine_bind_of_error (readEntry_ge m out)

/-- The source is read first, and either access is out of range. -/
theorem copyEntry_destination_ge (src : Nat) : copyEntry m src x = .error .internal := by
  rcases Nat.lt_or_ge src 1484 with inRange | sourceOut
  · exact (Engine_bind_of_ok (readEntry_eq m inRange)).trans (writeEntry_ge out m _)
  · exact copyEntry_source_ge sourceOut m x

end

section
variable {q : Nat} (out : 64 ≤ q) (m : Memory)
include out

theorem getHeader_ge : getHeader m q = .error .internal :=
  Engine_bind_of_error (Engine_bind_of_error (checkQid_ge out))

theorem setValid_ge (b : Bool) : setValid m q b = .error .internal :=
  Engine_bind_of_error (checkQid_ge out)

theorem setBase_ge (b : Nat) : setBase m q b = .error .internal :=
  Engine_bind_of_error (checkQid_ge out)

theorem setLength_ge (n : Nat) : setLength m q n = .error .internal :=
  Engine_bind_of_error (checkQid_ge out)

end

/-- Settles O11: each access checks its range before it touches the arena. -/
theorem outOfRangeAccessesAreInternal : Obligations.OutOfRangeAccessesAreInternal :=
  ⟨fun m _ _ v out => ⟨fieldRead_out out m, fieldWrite_out out m v⟩,
    fun m _ y e b out => ⟨readEntry_ge m out, writeEntry_ge out m e, setEntryValid_ge out m b,
      setEntryBase_ge out m b, copyEntry_source_ge out m y, copyEntry_destination_ge out m y⟩,
    fun m _ n b out => ⟨getHeader_ge out m, setValid_ge out m b, setBase_ge out m n,
      setLength_ge out m n⟩,
    finish_internal⟩

end Sys2Proof.Machine
end

section
/-! Lines of assembler: what a line of each form assembles to, and which operands are refused
(30_encoding.md R110, R111; the spacing is log 16). -/

namespace Sys2Proof.Machine

/-- A line that names a command with operands that fit is its word (30_encoding.md R110). -/
theorem assemble_encodable {line : List Char} {i : Instr} {w : Word}
    (names : assemble line = assembleInstr i) (fits : i.wellFormed = true) (word : encode i = w) :
    assemble line = some w := by
  rw [names, assembleInstr, if_pos fits, word]

/-- A line that names a pseudo-command is the word of the RDFIELD it stands for
(30_encoding.md R111). -/
theorem assemble_pseudo {line : List Char} {p : Pseudo} {w : Word}
    (names : assemble line = assemblePseudo p) (fits : p.wellFormed = true)
    (word : encode p.expand = w) : assemble line = some w := by
  rw [names, assemblePseudo, if_pos fits, word]

/-- A line with a QID, OFFSET or WIDTH that does not fit is refused (30_encoding.md R110). -/
theorem assemble_unencodable {line : List Char} {i : Instr}
    (names : assemble line = assembleInstr i) (overflows : i.wellFormed = false) :
    assemble line = none := by
  rw [names, assembleInstr, if_neg (Bool.eq_false_iff.mp overflows)]

/-- A line with a DATA operand over 255 is refused (30_encoding.md R110). -/
theorem assemble_wide_data {line : List Char} {q b : Nat} (names : assemble line = assembleEnq q b)
    (overflows : 255 < b) : assemble line = none := by
  rw [names, assembleEnq, if_neg (by omega)]

/-- Settles O4: each line names its command, and the command's operands decide. -/
theorem assemblerLinesEncode : Obligations.AssemblerLinesEncode :=
  ⟨assemble_encodable (i := .create) rfl rfl rfl,
    assemble_encodable (i := .destroy 0x3F) rfl rfl rfl,
    assemble_encodable (i := .enq 0xFF 1#8) rfl rfl rfl,
    assemble_encodable (i := .deq 255) rfl rfl rfl,
    assemble_encodable (i := .rdfield 16383 31) rfl rfl rfl,
    assemble_pseudo (p := .rdhdr 1) rfl rfl rfl,
    assemble_pseudo (p := .rdent 4) rfl rfl rfl,
    assemble_unencodable (i := .deq 256) rfl rfl,
    assemble_wide_data (q := 0) (b := 256) rfl (by decide),
    assemble_unencodable (i := .rdfield 16384 1) rfl rfl,
    assemble_unencodable (i := .rdfield 0 32) rfl rfl⟩

end Sys2Proof.Machine
end
